-- ==== Sys2Proof/Word.lean ====
section
/-!
DEFINITION. The word types of ACRX: the 32-bit control word (30_encoding.md R61), the fields of a
host address (R60) and the carrier of the fixed machine.
-/

namespace Sys2Proof

/-- A control word: 32 bits, an unsigned integer (30 R61). -/
abbrev Word := BitVec 32

/-- The bank number of a host address, `addr[31:24]` (30 R60). -/
abbrev BankNo := BitVec 8

/-- The index within a bank, `addr[23:0]` (30 R60). -/
abbrev Index := BitVec 24

/-- The carrier with which the fixed machine (`State`, `exec`, `step`) is built. Every operation of the
block is stated for an arbitrary carrier `S`, the type that `NUM` brings (00_scope.md R6, R7); a state
that can be compared and written out needs one definite type, and a rational is how the spec writes a
value of `S` (00_scope.md section 6).
DESIGN CHOICE (log 1): no rule looks inside a value. -/
abbrev Sample := Rat

end Sys2Proof
end

