-- ==== Sys2Proof/Config.lean ====
section
/-!
DEFINITION. What an implementation fixes (00_scope.md R6): the numerics record `NUM` with its laws,
the three capacities, the source of draws, and the offline designer. The machine's own configuration
is opaque: nothing in Lean can evaluate it, and a claim about the machine holds for every
configuration that satisfies the spec's laws.
-/

namespace Sys2Proof

/-! ## The numerics record -/

/-- The record `NUM` of 00 R7 over a carrier `S`. `SW`, `enc` and `dec` are the word width and codec of
a physical realisation; no rule reads them. -/
structure Num (S : Type) where
  zero : S
  two : S
  add : S → S → S
  sub : S → S → S
  mul : S → S → S
  half : S → S
  mag : S → S → S
  lt : S → S → Bool
  wf : S → Bool
  SW : Nat
  enc : S → BitVec SW
  dec : BitVec SW → S

/-- The value 1, as half of `two`: `NUM` has no field for it (00 R7), and in `REAL` it is 1 (00 R9). DEDUCED
(log 12). -/
def Num.one {S : Type} (N : Num S) : S := N.half N.two

/-- The laws L1 to L4 that every instance of `NUM` satisfies (00 R8). L1's "exactly one" is written as
"at least one" together with irreflexivity; with transitivity no two of the three can hold. -/
structure Num.Lawful {S : Type} (N : Num S) : Prop where
  /-- L1: one of `lt(a,b)`, `a = b`, `lt(b,a)` holds. -/
  lt_total : ∀ a b, N.wf a = true → N.wf b = true → N.lt a b = true ∨ a = b ∨ N.lt b a = true
  /-- L1: `a = a` holds, so `lt(a,a)` does not. -/
  lt_irrefl : ∀ a, N.wf a = true → N.lt a a = false
  /-- L1: `lt` is transitive. -/
  lt_trans : ∀ a b c, N.wf a = true → N.wf b = true → N.wf c = true →
    N.lt a b = true → N.lt b c = true → N.lt a c = true
  /-- L2. -/
  wf_zero : N.wf N.zero = true
  add_zero_zero : N.add N.zero N.zero = N.zero
  sub_zero_zero : N.sub N.zero N.zero = N.zero
  mul_zero : ∀ c, N.wf c = true → N.mul c N.zero = N.zero
  zero_mul : ∀ c, N.wf c = true → N.mul N.zero c = N.zero
  mag_zero_zero : N.mag N.zero N.zero = N.zero
  half_zero : N.half N.zero = N.zero
  /-- L3. -/
  wf_two : N.wf N.two = true
  wf_add : ∀ a b, N.wf a = true → N.wf b = true → N.wf (N.add a b) = true
  wf_sub : ∀ a b, N.wf a = true → N.wf b = true → N.wf (N.sub a b) = true
  wf_mul : ∀ a b, N.wf a = true → N.wf b = true → N.wf (N.mul a b) = true
  wf_half : ∀ a, N.wf a = true → N.wf (N.half a) = true
  wf_mag : ∀ a b, N.wf a = true → N.wf b = true → N.wf (N.mag a b) = true
  /-- L4. -/
  mag_not_neg : ∀ a b, N.wf a = true → N.wf b = true → N.lt (N.mag a b) N.zero = false

/-! ## The reference instance -/

/-- The reference instance `REAL`: exact arithmetic on the real numbers (00 R9). DESIGN CHOICE: it has the word
width 0 with a constant `enc` and `dec`, since 00 R7 leaves the three open, R9 gives none and no rule reads
them (log 13). -/
noncomputable def Num.real : Num ℝ where
  zero := 0
  two := 2
  add := (· + ·)
  sub := (· - ·)
  mul := (· * ·)
  half a := a / 2
  mag a b := Real.sqrt (a * a + b * b)
  lt a b := decide (a < b)
  wf _ := true
  SW := 0
  enc _ := 0
  dec _ := 0

/-- "`REAL` satisfies rule R8" (00 R9). -/
theorem Num.real_lawful : Num.real.Lawful where
  lt_total a b _ _ := by
    rcases lt_trichotomy a b with h | h | h <;> simp [Num.real, h]
  lt_irrefl a _ := by simp [Num.real]
  lt_trans a b c _ _ _ hab hbc := by
    simp only [Num.real, decide_eq_true_eq] at *; exact lt_trans hab hbc
  wf_zero := rfl
  add_zero_zero := by simp [Num.real]
  sub_zero_zero := by simp [Num.real]
  mul_zero c _ := by simp [Num.real]
  zero_mul c _ := by simp [Num.real]
  mag_zero_zero := by simp [Num.real]
  half_zero := by simp [Num.real]
  wf_two := rfl
  wf_add _ _ _ _ := rfl
  wf_sub _ _ _ _ := rfl
  wf_mul _ _ _ _ := rfl
  wf_half _ _ := rfl
  wf_mag _ _ _ _ := rfl
  mag_not_neg a b _ _ := by
    simp only [Num.real, decide_eq_false_iff_not, not_lt]
    exact Real.sqrt_nonneg _

/-- One bit of the integer square root of `n` at a time, from bit `b` down. -/
def sqrtBits (n : Nat) : Nat → Nat → Nat
  | 0, r => r
  | b + 1, r => sqrtBits n b (if (r + 2 ^ b) * (r + 2 ^ b) ≤ n then r + 2 ^ b else r)

/-- The integer square root, rounded down. -/
def natSqrt (n : Nat) : Nat := sqrtBits n (n.log2 / 2 + 1) 0

/-- `mag` of the sub-instance on rationals: the square root of `a * a + b * b` where that is rational,
which is where the test vectors use it (00 R9); elsewhere rounded down to a multiple of one over the
denominator of the sum (DESIGN CHOICE, log 1). -/
def ratMag (a b : Rat) : Rat :=
  (natSqrt ((a * a + b * b).num.toNat * (a * a + b * b).den) : Rat) / ((a * a + b * b).den : Rat)

/-- The sub-instance of `REAL` on exact rationals that the test vectors use (00 R9;
95_test_vectors.md). DESIGN CHOICE: the word width is 0 with a constant `enc` and `dec`, as in `Num.real`
(log 13). -/
def Num.rational : Num Rat where
  zero := 0
  two := 2
  add := (· + ·)
  sub := (· - ·)
  mul := (· * ·)
  half a := a / 2
  mag := ratMag
  lt a b := decide (a < b)
  wf _ := true
  SW := 0
  enc _ := 0
  dec _ := 0

/-- The rational instance satisfies L1 to L4. -/
theorem Num.rational_lawful : Num.rational.Lawful where
  lt_total a b _ _ := by
    rcases lt_trichotomy a b with h | h | h <;> simp [Num.rational, h]
  lt_irrefl a _ := by simp [Num.rational]
  lt_trans a b c _ _ _ hab hbc := by
    simp only [Num.rational, decide_eq_true_eq] at *; exact lt_trans hab hbc
  wf_zero := rfl
  add_zero_zero := by simp [Num.rational]
  sub_zero_zero := by simp [Num.rational]
  mul_zero c _ := by simp [Num.rational]
  zero_mul c _ := by simp [Num.rational]
  mag_zero_zero := by
    show ratMag 0 0 = 0
    decide +kernel
  half_zero := by simp [Num.rational]
  wf_two := rfl
  wf_add _ _ _ _ := rfl
  wf_sub _ _ _ _ := rfl
  wf_mul _ _ _ _ := rfl
  wf_half _ _ := rfl
  wf_mag _ _ _ _ := rfl
  mag_not_neg a b _ _ := by
    simp only [Num.rational, decide_eq_false_iff_not, not_lt]
    unfold ratMag
    positivity

/-! ## The configuration -/

/-- The parameters of an implementation and their constraints (00 R6, R7, R8), over the type of values `S`
that `NUM` brings. -/
structure Config (S : Type) where
  num : Num S
  lawful : num.Lawful
  maxOrd : Nat
  maxOrd_le : maxOrd ≤ 2 ^ 24 - 1
  maxLen : Nat
  maxLen_pos : 1 ≤ maxLen
  maxLen_le : maxLen ≤ 2 ^ 24
  maxPer : Nat
  maxPer_pos : 1 ≤ maxPer
  maxPer_le : maxPer ≤ 2 ^ 24

/-- The parameters of part B and C of 95_test_vectors.md: exact rationals, `MAXORD` 4, `MAXLEN` 16,
`MAXPER` 8. Used by tests, never by the machine. -/
def Config.reference : Config Sample where
  num := Num.rational
  lawful := Num.rational_lawful
  maxOrd := 4
  maxOrd_le := by decide
  maxLen := 16
  maxLen_pos := by decide
  maxLen_le := by decide
  maxPer := 8
  maxPer_pos := by decide
  maxPer_le := by decide

/-- A configuration of the fixed machine. The field's default shows Lean that one exists. -/
structure Implementation where
  config : Config Sample := Config.reference
  deriving Inhabited

/-- The implementation at hand: nothing in Lean can evaluate it. A FREE VALUE (log 2). -/
opaque Config.implementation : Implementation

/-- The configuration of the machine: any one that meets the laws and ranges of 00 R6 to R8
(log 1, log 2). -/
def Config.machine : Config Sample := Config.implementation.config

/-- The draws of 20 R47, one for each number: any value, well formed or not, under no law.
A FREE VALUE (log 5). -/
opaque Config.draw : Nat → Sample

/-! ## The offline designer's data (40_coefficient_contract.md) -/

/-- The family selector of a `FilterSpec`; the families are "named only as examples", so the list
stays open (40 R81; 91_not_in_source.md N11). -/
inductive FilterFamily where
  | elliptic
  | chebyshevI
  | butterworth
  | other (tag : Nat)
  deriving DecidableEq, Repr

/-- The band edges as fractions of the Nyquist frequency: two cutoff pairs for a bandpass, one pair for
a lowpass (40 R81). DESIGN CHOICE: the edges are exact rationals, since the source gives no number format
(91_not_in_source.md N3), so an irrational edge cannot be written (log 12). -/
inductive BandEdges where
  | bandpass (stopbandLow passbandLow passbandHigh stopbandHigh : Rat)
  | lowpass (passbandEdge stopbandEdge : Rat)
  deriving DecidableEq, Repr

/-- AC's `FilterSpec`: edges, ripple bound `Rp` and attenuation bound `Rs` in decibels, family (40 R81).
DESIGN CHOICE: the bounds are exact rationals, as the edges are (log 12). -/
structure FilterSpec where
  edges : BandEdges
  rp : Rat
  rs : Rat
  family : FilterFamily
  deriving DecidableEq, Repr

/-- AC's `FilterCoefficients`: the feed-forward and the feedback sequence, of values of `NUM` (40 R85;
00 R6: "the type of every sample, coefficient, table entry, threshold and statistic"). -/
structure FilterCoefficients (S : Type) where
  feedforward : List S
  feedback : List S
  deriving DecidableEq, Repr

/-- A coefficient set with every term changed by one function. -/
def FilterCoefficients.map {S T : Type} (g : S → T) (f : FilterCoefficients S) : FilterCoefficients T :=
  { feedforward := f.feedforward.map g, feedback := f.feedback.map g }

/-- What DESIGN answers: coefficients, or the error `InvalidSpecification` (40 R80, R83). -/
inductive DesignResult (S : Type) where
  | coefficients (c : FilterCoefficients S)
  | invalidSpecification
  deriving DecidableEq, Repr, Inhabited

/-- The designer's synthesis on a valid `FilterSpec`: AC gives neither formulas nor values, so it is an
uninterpreted function, for each `NUM` (40 R84, R91). A FREE VALUE (log 10). -/
opaque Config.synthesise {S : Type} (N : Num S) : FilterSpec → DesignResult S

/-- Which coefficient sets are filters of a family: AC names families and defines none (40 R81, R84).
A FREE VALUE (log 10). -/
opaque Config.inFamily : FilterFamily → FilterCoefficients ℝ → Prop

end Sys2Proof
end

