-- ==== Sys2Proof/Machine/Datapath.lean ====
section
/-!
DEFINITION. The numeric functions of the stage operations, for an arbitrary carrier `S` and numerics
record `NUM`: IIR (41_iir_filter.md R100), the oscillator phase and the mixer (42_downconverter.md R110,
R111), the envelope, the peak and the median (43_envelope_gate.md R120 to R122).
-/

namespace Sys2Proof.Machine

variable {S : Type}

/-! ## The filter -/

/-- Element `k` of a stream or a coefficient sequence. (A rule never reads past the end.) -/
def item (N : Num S) (l : List S) (k : Nat) : S := l.getD k N.zero

/-- The delayed element `l[n-k]`, `zero` before the first sample (41 R100). -/
def delayed (N : Num S) (l : List S) (n k : Nat) : S :=
  if k ≤ n then item N l (n - k) else N.zero

/-- The feed-forward terms of output `n`: `mul(b[0], u[n])`, then the terms `k = 1 .. M` added in
ascending order (41 R100). -/
def feedForward (N : Num S) (b : List S) (M : Nat) (u : List S) (n : Nat) : S :=
  (List.range' 1 M).foldl (fun acc k => N.add acc (N.mul (item N b k) (delayed N u n k)))
    (N.mul (item N b 0) (item N u n))

/-- Output `n` of the filter from the outputs `v[0 .. n-1]`: the feedback terms `k = 1 .. M` subtracted in
ascending order (41 R100). The list `a` holds `a[1 .. M]`, so `a[k]` is its element `k - 1`. -/
def iirOutput (N : Num S) (b a : List S) (M : Nat) (u v : List S) (n : Nat) : S :=
  (List.range' 1 M).foldl (fun acc k => N.sub acc (N.mul (item N a (k - 1)) (delayed N v n k)))
    (feedForward N b M u n)

/-- `IIR(b, a, M, u, N)`: the outputs `v[0 .. len-1]` (41 R100). -/
def iir (N : Num S) (b a : List S) (M : Nat) (u : List S) (len : Nat) : List S :=
  (List.range len).foldl (fun v n => v ++ [iirOutput N b a M u v n]) []

/-- The last `M` elements of a stream of which `n` have passed, newest first, `zero` before the first
(10 R29). -/
def lastOf (N : Num S) (l : List S) (M n : Nat) : List S :=
  (List.range' 1 M).map (delayed N l n)

/-! ## The oscillator and the mixer -/

/-- The phase index of sample `n`, `(n * LO_STEP) mod LO_PER` (42 R110). -/
def phase (period step n : Nat) : Nat := (n * step) % period

/-- The phase indexes of samples `0 .. len-1` (42 R110). -/
def phases (period step len : Nat) : List Nat := (List.range len).map (phase period step)

/-- One product of the mixer: `d <- mul(two, ybp[n])`, then `mul(d, tone)` (42 R111). -/
def mixProduct (N : Num S) (y tone : S) : S := N.mul (N.mul N.two y) tone

/-- A mixer output: the products with the tone of each sample (42 R111). -/
def mixStream (N : Num S) (ybp tones : List S) : List S := List.zipWith (mixProduct N) ybp tones

/-! ## The envelope and its statistics -/

/-- The magnitudes `m[n] = mag(ib[n], qb[n])` (43 R120). -/
def envelope (N : Num S) (ib qb : List S) : List S := List.zipWith N.mag ib qb

/-- The running maximum: the greater of the two under `lt`, the earlier on a tie (43 R121). -/
def maxStep (N : Num S) (peak v : S) : S := if N.lt peak v then v else peak

/-- The peak of a first magnitude and the rest, by the scan from index 0 (43 R121). -/
def peakOf (N : Num S) (first : S) (rest : List S) : S := rest.foldl (maxStep N) first

/-- Puts `x` into an ascending list, before the first element that is not below it. -/
def insertAscending (N : Num S) (x : S) : List S → List S
  | [] => [x]
  | y :: t => if N.lt y x then y :: insertAscending N x t else x :: y :: t

/-- The elements arranged so that `lt(s[j+1], s[j])` is false for every `j` (43 R122). -/
def ascending (N : Num S) : List S → List S
  | [] => []
  | x :: t => insertAscending N x (ascending N t)

/-- `MED(m, N)`: the middle element of the ascending arrangement, or the mean of the two middle ones
when the count is even (43 R122). -/
def med (N : Num S) (m : List S) : S :=
  if m.length % 2 = 1 then item N (ascending N m) ((m.length - 1) / 2)
  else N.half (N.add (item N (ascending N m) (m.length / 2 - 1)) (item N (ascending N m) (m.length / 2)))

end Sys2Proof.Machine
end

