-- ==== Sys2Proof/Syntax.lean ====
section
/-!
DEFINITION. The operations of ACRX as syntax: one constructor for each row of spec/opcode_table.json,
and the encoded forms they are decoded from (30_encoding.md R62, R63, R72).
-/

namespace Sys2Proof

/-- The payload of a host write: a CTRL-WORD for bank 0x00, a value of `NUM.S` for any other bank
(30 R72). -/
inductive Payload (S : Type) where
  | word (w : Word)
  | value (v : S)
  deriving DecidableEq, Repr

/-- A host transaction over any type of values: the write of a payload to a location, or the read of a
location (30 R72). A command is the write of its word to CMD (30 R62). -/
inductive Transaction (S : Type) where
  | write (bank : BankNo) (index : Index) (payload : Payload S)
  | read (bank : BankNo) (index : Index)
  deriving DecidableEq, Repr

/-- The operations: three commands (30 R66), nine stage operations (30 R65), two host transactions
(30 R72). A value in a write is one of the fixed machine's (log 1). -/
inductive Instr where
  | run
  | clear
  | sreset
  | check
  | bpf
  | mix
  | lpfI
  | lpfQ
  | form
  | env
  | stat
  | gate
  | wr (bank : BankNo) (index : Index) (payload : Payload Sample)
  | rd (bank : BankNo) (index : Index)
  deriving DecidableEq, Repr

/-- What an operation is decoded from: a stage code held in `stage` (format STAGE, 30 R63), or a host
transaction, whose header is the 33 bits `we`, `bank`, `index` (most significant first) and whose
payload is present in the request of a WR only (format HOST, 30 R72). A command is the write of its
word to CMD (30 R62). -/
inductive Encoded where
  | stage (code : BitVec 4)
  | host (header : BitVec 33) (payload : Option (Payload Sample))
  deriving DecidableEq, Repr

end Sys2Proof
end

