-- ==== Sys2Proof/WellFormed.lean ====
section
/-!
DEFINITION. Which terms of `Instr` are the spelling of an operation (30_encoding.md R66, R72).
-/

namespace Sys2Proof

/-- The kind of the payload is fixed by the address: a control word for bank 0x00, a value for any
other bank (20_memory.md R45; 30 R72). -/
def Payload.fits {S : Type} (bank : BankNo) : Payload S → Bool
  | .word _ => bank == 0#8
  | .value _ => bank != 0#8

/-- A write of a legal command word to CMD; the operation it spells is RUN, CLEAR or SRESET
(30 R66, R71). -/
def Payload.isCommandWrite {S : Type} (bank : BankNo) (index : Index) : Payload S → Bool
  | .word w => bank == 0#8 && index == 0#24 && (w == 1#32 || w == 2#32 || w == 3#32)
  | .value _ => false

/-- A term is well formed when its payload has the kind of its address and it is not a command spelled
as a plain write: RUN, CLEAR and SRESET have constructors of their own (30 R71). -/
def Instr.wellFormed : Instr → Bool
  | .run => true
  | .clear => true
  | .sreset => true
  | .check => true
  | .bpf => true
  | .mix => true
  | .lpfI => true
  | .lpfQ => true
  | .form => true
  | .env => true
  | .stat => true
  | .gate => true
  | .wr bank index payload => payload.fits bank && !payload.isCommandWrite bank index
  | .rd _ _ => true

end Sys2Proof
end

