-- ==== Sys2Proof/Decode.lean ====
section
/-!
DEFINITION. The decoder and the encoder, both written from the tables of 30_encoding.md (R60, R62, R65,
R66, R67, R72).
-/

namespace Sys2Proof

/-- Why a form decodes to no operation. -/
inductive DecodeError where
  /-- Codes 0, 10 and 15: resting stages, which perform nothing (30 R65). -/
  | restingStage (code : BitVec 4)
  /-- Codes 11 to 14, never held by `stage` (30 R67 b). -/
  | reservedStage (code : BitVec 4)
  /-- A WR header with no payload: no such transaction (30 R72). -/
  | writeWithoutPayload
  /-- An RD header with a payload: no such transaction (30 R72). -/
  | readWithPayload
  /-- A payload whose kind is not that of the bank: no such transaction (20 R45). -/
  | payloadKind
  deriving DecidableEq, Repr

/-- The stage operation a stage code names (30 R65). -/
def decodeStage (code : BitVec 4) : Except DecodeError Instr :=
  match code.toNat with
  | 1 => .ok .check
  | 2 => .ok .bpf
  | 3 => .ok .mix
  | 4 => .ok .lpfI
  | 5 => .ok .lpfQ
  | 6 => .ok .form
  | 7 => .ok .env
  | 8 => .ok .stat
  | 9 => .ok .gate
  | 0 => .error (.restingStage code)
  | 10 => .error (.restingStage code)
  | 15 => .error (.restingStage code)
  | _ => .error (.reservedStage code)

/-- The field `op` of a CMD word, `w[7:0]` (30 R62). -/
def cmdOp (w : Word) : BitVec 8 := w.extractLsb' 0 8

/-- The field `zero` of a CMD word, `w[31:8]`, which must be 0 (30 R62). -/
def cmdZero (w : Word) : BitVec 24 := w.extractLsb' 8 24

/-- The command a CMD word names; `none` for an illegal word (30 R62, R66, R67 a). -/
def decodeCommand (w : Word) : Option Instr :=
  if cmdZero w = 0#24 then
    match (cmdOp w).toNat with
    | 1 => some .run
    | 2 => some .clear
    | 3 => some .sreset
    | _ => none
  else none

/-- The bit `we` of a transaction header, its most significant bit (30 R72). -/
def headerWe (h : BitVec 33) : BitVec 1 := h.extractLsb' 32 1

/-- The bank bits of a transaction header (30 R60, R72). -/
def headerBank (h : BitVec 33) : BankNo := h.extractLsb' 24 8

/-- The index bits of a transaction header (30 R60, R72). -/
def headerIndex (h : BitVec 33) : Index := h.extractLsb' 0 24

/-- A transaction header with its payload, if any, over any type of values (30 R72): a write carries a payload
of the kind its bank fixes (20_memory.md R45), a read none. -/
def decodeTransaction {S : Type} (h : BitVec 33) (payload : Option (Payload S)) :
    Except DecodeError (Transaction S) :=
  if headerWe h = 1#1 then
    match payload with
    | some p =>
      if p.fits (headerBank h) then .ok (.write (headerBank h) (headerIndex h) p)
      else .error .payloadKind
    | none => .error .writeWithoutPayload
  else
    match payload with
    | some _ => .error .readWithPayload
    | none => .ok (.read (headerBank h) (headerIndex h))

/-- The operation a transaction is: a legal command word written to CMD is that command (30 R66, R71), every
other write is a WR; an illegal word written to CMD stays a WR, which the port refuses (30 R67 a; 44 R138). -/
def Transaction.instr : Transaction Sample → Instr
  | .write bank index (.word w) =>
    if bank = 0#8 ∧ index = 0#24 then (decodeCommand w).getD (.wr bank index (.word w))
    else .wr bank index (.word w)
  | .write bank index (.value v) => .wr bank index (.value v)
  | .read bank index => .rd bank index

/-- A host transaction at the port as an operation (30 R72). -/
def decodeHost (h : BitVec 33) (payload : Option (Payload Sample)) : Except DecodeError Instr :=
  (decodeTransaction h payload).map Transaction.instr

/-- The decoder: total on every encoded form. -/
def decode : Encoded → Except DecodeError Instr
  | .stage code => decodeStage code
  | .host h payload => decodeHost h payload

/-- The 33-bit pattern of a transaction, `we`, `bank`, `index`, most significant first (30 R72). -/
def header (we : BitVec 1) (bank : BankNo) (index : Index) : BitVec 33 :=
  (we ++ bank ++ index).cast (by rfl)

/-- A command as the write of its word to CMD (30 R62, R66). -/
def encodeCommand (w : Word) : Encoded := .host (header 1#1 0#8 0#24) (some (.word w))

/-- The encoder, from the tables of 30 R65, R66 and R72. -/
def encode : Instr → Encoded
  | .run => encodeCommand 0x00000001#32
  | .clear => encodeCommand 0x00000002#32
  | .sreset => encodeCommand 0x00000003#32
  | .check => .stage 0b0001#4
  | .bpf => .stage 0b0010#4
  | .mix => .stage 0b0011#4
  | .lpfI => .stage 0b0100#4
  | .lpfQ => .stage 0b0101#4
  | .form => .stage 0b0110#4
  | .env => .stage 0b0111#4
  | .stat => .stage 0b1000#4
  | .gate => .stage 0b1001#4
  | .wr bank index payload => .host (header 1#1 bank index) (some payload)
  | .rd bank index => .host (header 0#1 bank index) none

/-- The payload of zeros that the opcode table's numbering leaves unsaid: a WR header is followed by a
payload of the kind its bank fixes, a RD header by none (30 R72). -/
def zeroPayload (h : BitVec 33) : Option (Payload Sample) :=
  if headerWe h = 1#1 then
    some (if headerBank h = 0#8 then .word 0#32 else .value 0)
  else none

/-- The host transaction that a table word of the formats CMD (32 bits) and HOST (33 bits) stands for:
a CMD word is the payload of a write to CMD, a HOST word is the header. -/
def tableTransaction (nbits w : Nat) : Encoded :=
  if nbits ≤ 32 then encodeCommand (BitVec.ofNat 32 w)
  else .host (BitVec.ofNat 33 w) (zeroPayload (BitVec.ofNat 33 w))


/-- The instruction the decoder reads from a word numbered as spec/opcode_table.json numbers it: a STAGE
row has 4 bits, a CMD row 32, a HOST row 33. A word with a bit above its format, and a CMD word that
is no legal command, is no instruction. -/
def decodeTableWord (nbits w : Nat) : Option Instr :=
  if nbits ≤ 8 then
    if w < 2 ^ 4 then (decode (.stage (BitVec.ofNat 4 w))).toOption else none
  else if nbits ≤ 32 then
    if w < 2 ^ 32 then decodeCommand (BitVec.ofNat 32 w) else none
  else if w < 2 ^ 33 then (decode (tableTransaction nbits w)).toOption else none

end Sys2Proof
end

