-- ==== Sys2Proof/Machine/State.lean ====
section
/-!
DEFINITION. The state of ACRX as plain data (10_state.md), the coming events of its environment, the
reasons a step can stop, and the state after reset (R35).
-/

namespace Sys2Proof.Machine

/-- The twelve legal values of `stage` (10 R11; 30 R65). Codes 11 to 14 cannot be represented
(30 R67 b). -/
inductive Stage where
  | idle
  | check
  | bpf
  | mix
  | lpfI
  | lpfQ
  | form
  | env
  | stat
  | gate
  | done
  | error
  deriving DecidableEq, Repr

/-- The three legal values of STATUS.RESULT (10 R14; 30 R68). -/
inductive Result where
  | none
  | signalPresent
  | noSignal
  deriving DecidableEq, Repr

/-- The values ERRCODE can hold: no error, or one of the five configuration errors (60 R151). -/
inductive ErrCode where
  | none
  | badLen
  | badBpOrd
  | badLpOrd
  | badLoPer
  | badLoStep
  deriving DecidableEq, Repr

/-- A filter's delay line: the last `M` inputs and the last `M` outputs, newest first (10 R29). -/
structure Delay (S : Type) where
  inputs : List S
  outputs : List S
  deriving DecidableEq, Repr

/-- The response of a host transaction: `ERR`, `OK` to a write, `OK` with a control word, `OK` with a
value (30 R72; 44 R138, R139). -/
inductive Response (S : Type) where
  | err
  | ok
  | okWord (w : Word)
  | okValue (v : S)
  deriving DecidableEq, Repr

/-- A coming event: a host transaction as it stands at the port (30 R72), a turn of the sequencer, or a
hardware reset (00 R5; 44 R141; 70 R170). -/
inductive Event (S : Type) where
  | host (header : BitVec 33) (payload : Option (Payload S))
  | sequencer
  | hardwareReset
  deriving DecidableEq, Repr

/-- The numeric banks and output banks: (flat address, value) pairs, addresses strictly rising, where
the flat address of `{bank, index}` is `bank * 2^24 + index` (30 R60). A location that is not listed
holds `none` (10 R10), so no pair can repeat what an unlisted address reads as. -/
abbrev Memory (S : Type) := List (Nat × S)

/-- Every item of state the spec gives the block, over the carrier `S` of `NUM` (10_state.md; 00_scope.md
R6, R7). -/
structure Block (S : Type) where
  /-- The sequencer stage, the block's program counter (R11). -/
  stage : Stage
  /-- STATUS.RESULT, the block's only flag (R14). -/
  result : Result
  /-- ERRCODE (R15). -/
  errcode : ErrCode
  /-- LEN (R16). -/
  len : Word
  /-- BP_ORD (R17). -/
  bpOrd : Word
  /-- LP_ORD (R18). -/
  lpOrd : Word
  /-- LO_PER (R19). -/
  loPer : Word
  /-- LO_STEP (R20). -/
  loStep : Word
  /-- OUT_LEN (R21). -/
  outLen : Word
  /-- THR: `some v`, or `none` when no value has been placed there (R10, R22). -/
  thr : Option S
  /-- PEAK (R23). -/
  peak : Option S
  /-- MEDIAN (R23). -/
  median : Option S
  /-- BP_B, BP_A, LP_B, LP_A, LO_COS, LO_SIN, X, YB_I, YB_Q (R24 to R27, R33). -/
  mem : Memory S
  /-- The internal stream `ybp`; the empty list is "no content" (R28). -/
  ybp : List S
  /-- The internal stream `i` (R28). -/
  i : List S
  /-- The internal stream `q` (R28). -/
  q : List S
  /-- The internal stream `ib` (R28). -/
  ib : List S
  /-- The internal stream `qb` (R28). -/
  qb : List S
  /-- The internal stream `m` (R28). -/
  m : List S
  /-- The delay line of the bandpass filter (R29). -/
  bpDelay : Delay S
  /-- The delay line of the lowpass filter on I (R29). -/
  lpiDelay : Delay S
  /-- The delay line of the lowpass filter on Q (R29). -/
  lpqDelay : Delay S
  /-- The mixer's sample counter `n` (R30). -/
  mixN : Nat
  /-- The mixer's phase index `k` (R30). -/
  mixK : Nat
  /-- STAT's running maximum (R31). -/
  statMax : Option S
  /-- STAT's ordered magnitudes (R31). -/
  statOrder : List S
  deriving DecidableEq, Repr

/-- The block with its port and its environment, over the carrier `S` of `NUM`: three fields of the model's own
beside the block (log 3, 4, 5). -/
structure System (S : Type) extends Block S where
  /-- The model's own: the port's response to the latest host transaction (log 4). -/
  response : Option (Response S)
  /-- The model's own: the events to come, the next one first (log 3). -/
  agenda : List (Event S)
  /-- The model's own: how many draws have been made (log 5). -/
  draws : Nat
  deriving DecidableEq, Repr

/-- The state of the machine with the fixed names: the system over the fixed carrier (log 1). -/
structure State extends System Sample
  deriving DecidableEq, Repr

/-- Why the machine stops with a fault. Neither can happen in a run from reset: CHECK refuses the
register values that lead to them (92_eei_decisions.md D25; log 6). -/
inductive Fault where
  /-- Raised by `memRead` and `memWrite`: the sequencer indexes outside a bank. Safe. -/
  | unimplementedLocation (bank index : Nat)
  /-- Raised by MIX: the phase index modulo a period of 0. Safe. -/
  | zeroPeriod
  deriving DecidableEq, Repr

/-- Why the model gives a step no meaning. -/
inductive Refusal where
  /-- Raised by an arm of `exec` that has no meaning yet. Safe. -/
  | notModelled (mnemonic : String)
  /-- Raised by CHECK: the configuration tests pass but the needed set holds `none` or an ill-formed
  value; the spec has the model refuse the run (20 R48; log 7). Safe. -/
  | unspecifiedRun
  /-- Raised by a stage operation: a sequencer read of a numeric location that holds `none`
  (00_scope.md section 6, `MemRead`; 20 R48). CHECK comes first, so no run from reset gets here. Safe. -/
  | readsNone (bank index : Nat)
  /-- Raised by a stage operation: an internal stream has fewer elements than LEN; before its stage has
  run it "has no content" (10 R28). No run from reset gets here. Safe. -/
  | streamWithoutContent
  /-- Raised by WR on an ill-formed term: a payload whose kind is not that of its bank; the port has no
  such transaction (20 R45). Safe. -/
  | payloadKind
  /-- Raised by the step: the event at the port is no transaction (30 R72). Safe. -/
  | undecodable (why : DecodeError)
  deriving DecidableEq, Repr

/-- An empty delay line. -/
def Delay.empty {S : Type} : Delay S := { inputs := [], outputs := [] }

/-- The block after reset: column "reset" of 10 R35. The delay lines and working registers, whose
reset content R35 leaves unsaid, are empty (DESIGN CHOICE, log 9). -/
def Block.reset {S : Type} : Block S where
  stage := .idle
  result := .none
  errcode := .none
  len := 0#32
  bpOrd := 0#32
  lpOrd := 0#32
  loPer := 0#32
  loStep := 0#32
  outLen := 0#32
  thr := none
  peak := none
  median := none
  mem := []
  ybp := []
  i := []
  q := []
  ib := []
  qb := []
  m := []
  bpDelay := Delay.empty
  lpiDelay := Delay.empty
  lpqDelay := Delay.empty
  mixN := 0
  mixK := 0
  statMax := none
  statOrder := []

/-- The system after reset: every item of the block has its reset value, nothing is to come, no
transaction has been answered and no draw made (log 3, 4, 5). -/
def System.reset {S : Type} : System S where
  toBlock := Block.reset
  response := none
  agenda := []
  draws := 0

/-- The state after reset (10 R35). -/
def State.reset : State where
  toSystem := System.reset

end Sys2Proof.Machine
end

