-- ==== Sys2Proof/Machine/Flags.lean ====
section
/-!
DEFINITION. The coded fields: stage codes (30_encoding.md R65), the RESULT flag (R68), the ERRCODE codes
(60_exceptions.md R151) and the STATUS and ERRCODE words as they are read (10_state.md R13, R15).
-/

namespace Sys2Proof.Machine

/-- The 4-bit stage code (30 R65). -/
def Stage.code : Stage → BitVec 4
  | .idle => 0#4
  | .check => 1#4
  | .bpf => 2#4
  | .mix => 3#4
  | .lpfI => 4#4
  | .lpfQ => 5#4
  | .form => 6#4
  | .env => 7#4
  | .stat => 8#4
  | .gate => 9#4
  | .done => 10#4
  | .error => 15#4

/-- The stage a legal code stands for; codes 11 to 14 stand for none (30 R65, R67 b). -/
def stageOfCode (code : BitVec 4) : Option Stage :=
  match code.toNat with
  | 0 => some .idle
  | 1 => some .check
  | 2 => some .bpf
  | 3 => some .mix
  | 4 => some .lpfI
  | 5 => some .lpfQ
  | 6 => some .form
  | 7 => some .env
  | 8 => some .stat
  | 9 => some .gate
  | 10 => some .done
  | 15 => some .error
  | _ => none

/-- The 2-bit RESULT code (30 R68). -/
def Result.code : Result → BitVec 2
  | .none => 0#2
  | .signalPresent => 1#2
  | .noSignal => 2#2

/-- The 8-bit error code (60 R151). -/
def ErrCode.code : ErrCode → BitVec 8
  | .none => 0#8
  | .badLen => 1#8
  | .badBpOrd => 2#8
  | .badLpOrd => 3#8
  | .badLoPer => 4#8
  | .badLoStep => 5#8

/-- The STATUS word: RESULT in bits 9:8, STAGE in bits 3:0, the other bits 0 (10 R13). -/
def statusWord {S : Type} (s : Block S) : Word :=
  (0#22 ++ s.result.code ++ 0#4 ++ s.stage.code).cast (by rfl)

/-- The ERRCODE word: the code in bits 7:0, the other bits 0 (10 R15). -/
def errcodeWord {S : Type} (s : Block S) : Word := (0#24 ++ s.errcode.code).cast (by rfl)

/-- RESULT as GATE decides it: NO_SIGNAL exactly when the peak is below the threshold (43 R124). -/
def gateResult (below : Bool) : Result := if below then .noSignal else .signalPresent

/-- OUT_LEN as GATE decides it (43 R124; 10 R21). -/
def gateOutLen (below : Bool) (len : Word) : Word := if below then 0#32 else len

end Sys2Proof.Machine
end

