-- ==== Sys2Proof/Machine/Operands.lean ====
section
/-!
DEFINITION. The operand forms: the address map of 20_memory.md R41, the resolution of a host address
(30_encoding.md R60) and the access rights by stage (20 R46).
-/

namespace Sys2Proof.Machine

/-- The numeric banks of 20 R41 other than NREG. -/
inductive Bank where
  | bpB
  | bpA
  | lpB
  | lpA
  | loCos
  | loSin
  | x
  | ybI
  | ybQ
  deriving DecidableEq, Repr

/-- The bank number (20 R41). -/
def Bank.number : Bank → Nat
  | .bpB => 0x02
  | .bpA => 0x03
  | .lpB => 0x04
  | .lpA => 0x05
  | .loCos => 0x06
  | .loSin => 0x07
  | .x => 0x08
  | .ybI => 0x09
  | .ybQ => 0x0A

/-- Whether index `k` of the bank exists (20 R41, column "impl. index"). -/
def Bank.implemented {S : Type} (c : Config S) (k : Nat) : Bank → Bool
  | .bpB => decide (k ≤ c.maxOrd)
  | .bpA => decide (1 ≤ k) && decide (k ≤ c.maxOrd)
  | .lpB => decide (k ≤ c.maxOrd)
  | .lpA => decide (1 ≤ k) && decide (k ≤ c.maxOrd)
  | .loCos => decide (k < c.maxPer)
  | .loSin => decide (k < c.maxPer)
  | .x => decide (k < c.maxLen)
  | .ybI => decide (k < c.maxLen)
  | .ybQ => decide (k < c.maxLen)

/-- The output banks, read-only for the host (20 R41; 10 R33). -/
def Bank.isOutput : Bank → Bool
  | .ybI => true
  | .ybQ => true
  | .bpB => false
  | .bpA => false
  | .lpB => false
  | .lpA => false
  | .loCos => false
  | .loSin => false
  | .x => false

/-- The flat address of index `k` of a bank, `bank * 2^24 + index` (30 R60). -/
def Bank.address (b : Bank) (k : Nat) : Nat := 2 ^ 24 * b.number + k

/-- What a host address names: a control register (10 R12 to R21), a numeric register (10 R22, R23), an
entry of a numeric bank, or nothing (20 R41). -/
inductive Loc where
  | cmd
  | status
  | errcode
  | len
  | bpOrd
  | lpOrd
  | loPer
  | loStep
  | outLen
  | thr
  | peak
  | median
  | entry (b : Bank) (k : Nat)
  | unimplemented
  deriving DecidableEq, Repr

/-- Bank 0x00, CTRL (20 R41; 10 R12 to R21). -/
def ctrlLoc (index : Nat) : Loc :=
  match index with
  | 0 => .cmd
  | 1 => .status
  | 2 => .errcode
  | 3 => .len
  | 4 => .bpOrd
  | 5 => .lpOrd
  | 6 => .loPer
  | 7 => .loStep
  | 8 => .outLen
  | _ => .unimplemented

/-- Bank 0x01, NREG (20 R41; 10 R22, R23). -/
def nregLoc (index : Nat) : Loc :=
  match index with
  | 0 => .thr
  | 1 => .peak
  | 2 => .median
  | _ => .unimplemented

/-- An entry of a numeric bank, if the index exists (20 R41). -/
def entryLoc {S : Type} (c : Config S) (b : Bank) (index : Nat) : Loc :=
  if b.implemented c index then .entry b index else .unimplemented

/-- What the host address `{bank, index}` names (20 R41). -/
def resolve {S : Type} (c : Config S) (bank : BankNo) (index : Index) : Loc :=
  match bank.toNat with
  | 0x00 => ctrlLoc index.toNat
  | 0x01 => nregLoc index.toNat
  | 0x02 => entryLoc c .bpB index.toNat
  | 0x03 => entryLoc c .bpA index.toNat
  | 0x04 => entryLoc c .lpB index.toNat
  | 0x05 => entryLoc c .lpA index.toNat
  | 0x06 => entryLoc c .loCos index.toNat
  | 0x07 => entryLoc c .loSin index.toNat
  | 0x08 => entryLoc c .x index.toNat
  | 0x09 => entryLoc c .ybI index.toNat
  | 0x0A => entryLoc c .ybQ index.toNat
  | _ => .unimplemented

/-- The stage class BUSY, codes 1 to 9 (00_scope.md section 6; 30 R65). -/
def Stage.busy : Stage → Bool
  | .idle => false
  | .check => true
  | .bpf => true
  | .mix => true
  | .lpfI => true
  | .lpfQ => true
  | .form => true
  | .env => true
  | .stat => true
  | .gate => true
  | .done => false
  | .error => false

/-- The read columns of 20 R46: whether a host read of the location is accepted. -/
def readable (stage : Stage) (outLen : Word) : Loc → Bool
  | .cmd => false
  | .status => true
  | .errcode => true
  | .outLen => true
  | .len => true
  | .bpOrd => true
  | .lpOrd => true
  | .loPer => true
  | .loStep => true
  | .thr => !stage.busy
  | .peak => stage == .done
  | .median => stage == .done
  | .entry b k => if b.isOutput then stage == .done && decide (k < outLen.toNat) else !stage.busy
  | .unimplemented => false

/-- The write columns of 20 R46. For CMD the row's "OK" is judged again by the command itself
(44 R131, R133, R134). -/
def writable (stage : Stage) : Loc → Bool
  | .cmd => !stage.busy
  | .status => false
  | .errcode => false
  | .outLen => false
  | .len => stage == .idle
  | .bpOrd => stage == .idle
  | .lpOrd => stage == .idle
  | .loPer => stage == .idle
  | .loStep => stage == .idle
  | .thr => stage == .idle
  | .peak => false
  | .median => false
  | .entry b _ => !b.isOutput && stage == .idle
  | .unimplemented => false

end Sys2Proof.Machine
end

