-- ==== Sys2Proof/Machine/Ops.lean ====
section
/-!
DEFINITION. The named operations over memory, registers, streams and the port that the meanings share:
the sequencer's reads and writes, entering the stage ERROR and the two clearing events, the needed set
of a run, the commands and the host transactions.
-/

namespace Sys2Proof.Machine

variable {S : Type}

/-! ## Memory S -/

/-- What the location at a flat address holds; an unlisted one holds `none` (10_state.md R10). -/
def Memory.read : Memory S → Nat → Option S
  | [], _ => none
  | (b, v) :: t, a => if a = b then some v else Memory.read t a

/-- The memory after a value is placed at a flat address; keeps the addresses rising. -/
def Memory.write : Memory S → Nat → S → Memory S
  | [], a, v => [(a, v)]
  | (b, w) :: t, a, v =>
    if a < b then (a, v) :: (b, w) :: t
    else if a = b then (a, v) :: t
    else (b, w) :: Memory.write t a v

/-- The bank a flat address lies in (30_encoding.md R60). -/
def bankOf (a : Nat) : Nat := a / 2 ^ 24

/-- The memory after every location of a bank takes `none` (10 R35). -/
def Memory.discard (m : Memory S) (b : Bank) : Memory S := m.filter (fun e => bankOf e.1 != b.number)

/-- The canonical form: addresses strictly rising. -/
def Memory.wf : Memory S → Bool
  | [] => true
  | [_] => true
  | e :: f :: t => decide (e.1 < f.1) && Memory.wf (f :: t)

/-- Every listed address is an implemented location of a numeric bank (20_memory.md R41). -/
def Memory.mapped (c : Config S) (m : Memory S) : Bool :=
  m.all (fun e =>
    [Bank.bpB, .bpA, .lpB, .lpA, .loCos, .loSin, .x, .ybI, .ybQ].any (fun b =>
      bankOf e.1 == b.number && b.implemented c (e.1 % 2 ^ 24)))

/-- What `bank[k]` holds. -/
def Block.entry (s : Block S) (b : Bank) (k : Nat) : Option S := s.mem.read (b.address k)

/-- The state after `bank[k] <- some v`. -/
def Block.setEntry (s : Block S) (b : Bank) (k : Nat) (v : S) : Block S :=
  { s with mem := s.mem.write (b.address k) v }

/-! ## Ways to stop -/

/-- A meaning stops with a fault or a refusal. -/
inductive Stop where
  | fault (f : Fault)
  | refuse (r : Refusal)
  deriving DecidableEq, Repr

/-- The outcome of a step from the result of a meaning. -/
def outcomeOf : Except Stop (System Sample) → Host.Outcome State Fault Refusal
  | .ok s => .next { toSystem := s }
  | .error (.fault f) => .fault f
  | .error (.refuse r) => .refused r

/-- The system after its block has changed: the model's own fields stay. -/
def System.withBlock (s : System S) (b : Block S) : System S := { s with toBlock := b }

/-- A stage operation of the sequencer, which acts on the block alone, as a step of the system. -/
def System.afterStage (s : System S) (r : Except Stop (Block S)) : Except Stop (System S) :=
  r.map s.withBlock

/-! ## The sequencer's accesses -/

/-- `MemRead(bank, idx)`: the held value; a run that reads `none` is refused (00_scope.md section 6;
20 R48). An index outside the bank is no location (20 R41). -/
def memRead (c : Config S) (s : Block S) (b : Bank) (k : Nat) : Except Stop S :=
  if b.implemented c k then
    match s.entry b k with
    | some v => .ok v
    | none => .error (.refuse (.readsNone b.number k))
  else .error (.fault (.unimplementedLocation b.number k))

/-- `MemRead` of several entries, in the order given. -/
def memReads (c : Config S) (s : Block S) (b : Bank) : List Nat → Except Stop (List S)
  | [] => .ok []
  | k :: t =>
    match memRead c s b k with
    | .error e => .error e
    | .ok v =>
      match memReads c s b t with
      | .error e => .error e
      | .ok vs => .ok (v :: vs)

/-- `MemWrite(bank, idx, v)` (00 section 6). -/
def memWrite (c : Config S) (s : Block S) (b : Bank) (k : Nat) (v : S) : Except Stop (Block S) :=
  if b.implemented c k then .ok (s.setEntry b k v)
  else .error (.fault (.unimplementedLocation b.number k))

/-- `MemWrite(bank, n, v[n])` for the elements of a stream, from index `k` up. -/
def memWrites (c : Config S) (b : Bank) : Block S → Nat → List S → Except Stop (Block S)
  | s, _, [] => .ok s
  | s, k, v :: t =>
    match memWrite c s b k v with
    | .error e => .error e
    | .ok s' => memWrites c b s' (k + 1) t

/-- The sequencer's read of a numeric register. -/
def regRead (r : Option S) (index : Nat) : Except Stop S :=
  match r with
  | some v => .ok v
  | none => .error (.refuse (.readsNone 0x01 index))

/-- The first `n` elements of an internal stream; a stream has no content before its stage has run
(10 R28). -/
def streamRead (l : List S) (n : Nat) : Except Stop (List S) :=
  if n ≤ l.length then .ok (l.take n) else .error (.refuse .streamWithoutContent)

/-! ## The exception: entering ERROR, and the clearing events that leave it -/

/-- `raise Error(code)`: ERRCODE takes the code and the stage becomes ERROR; nothing is saved
(60_exceptions.md R154). -/
def raiseError (code : ErrCode) (s : Block S) : Block S := { s with errcode := code, stage := .error }

/-- Column "CLEAR" of 10 R35: result and event state and the run state go, session state is kept. It is
the way back from DONE and ERROR within a session (60 R155). -/
def clearColumn (s : Block S) : Block S :=
  { s with
    stage := .idle
    result := .none
    errcode := .none
    len := 0#32
    outLen := 0#32
    peak := none
    median := none
    mem := ((s.mem.discard .x).discard .ybI).discard .ybQ
    ybp := []
    i := []
    q := []
    ib := []
    qb := []
    m := []
    bpDelay := Delay.empty
    lpiDelay := Delay.empty
    lpqDelay := Delay.empty
    mixN := 0
    mixK := 0
    statMax := none
    statOrder := [] }

/-- A hardware reset, possible in any stage: every item of the block takes its reset value, column "reset"
of 10 R35 (70_reset_and_hazards.md R170, R171). No response is outstanding after it; the coming events and
the count of draws are the environment's and stay (log 3, log 4, log 5). -/
def hardwareReset (s : System S) : System S := { s with toBlock := Block.reset, response := none }

/-! ## The configuration test and the needed set -/

/-- The tests of CHECK in their order; the first that fails decides the code (44 R132; 60 R153 a). -/
def configTest (c : Config S) (s : Block S) : ErrCode :=
  if s.len = 0#32 ∨ c.maxLen < s.len.toNat then .badLen
  else if c.maxOrd < s.bpOrd.toNat then .badBpOrd
  else if c.maxOrd < s.lpOrd.toNat then .badLpOrd
  else if s.loPer = 0#32 ∨ c.maxPer < s.loPer.toNat then .badLoPer
  else if s.loPer.toNat ≤ s.loStep.toNat then .badLoStep
  else .none

/-- A held, well-formed value. -/
def holdsWf (c : Config S) : Option S → Bool
  | some v => c.num.wf v
  | none => false

/-- The entries `ks` of a bank hold well-formed values. -/
def entriesWf (c : Config S) (s : Block S) (b : Bank) (ks : List Nat) : Bool :=
  ks.all (fun k => holdsWf c (s.entry b k))

/-- The needed set of a run holds well-formed values only (20 R48). -/
def neededWf (c : Config S) (s : Block S) : Bool :=
  holdsWf c s.thr
  && entriesWf c s .bpB (List.range (s.bpOrd.toNat + 1))
  && entriesWf c s .bpA (List.range' 1 s.bpOrd.toNat)
  && entriesWf c s .lpB (List.range (s.lpOrd.toNat + 1))
  && entriesWf c s .lpA (List.range' 1 s.lpOrd.toNat)
  && entriesWf c s .loCos (List.range s.loPer.toNat)
  && entriesWf c s .loSin (List.range s.loPer.toNat)
  && entriesWf c s .x (List.range s.len.toNat)

/-! ## The filter operations -/

/-- The coefficients `b[0 .. M]` and `a[1 .. M]` of a pair of banks (41 R101, R102). -/
def readCoefficients (c : Config S) (s : Block S) (bankB bankA : Bank) (M : Nat) :
    Except Stop (List S × List S) :=
  match memReads c s bankB (List.range (M + 1)) with
  | .error e => .error e
  | .ok b =>
    match memReads c s bankA (List.range' 1 M) with
    | .error e => .error e
    | .ok a => .ok (b, a)

/-- The delay line that a filter run of `n` samples leaves (10 R29). -/
def delayAfter (N : Num S) (M : Nat) (u v : List S) (n : Nat) : Delay S :=
  { inputs := lastOf N u M n, outputs := lastOf N v M n }

/-! ## The port -/

/-- RUN: accepted only in IDLE (44 R131). -/
def runCommand (s : Block S) : Block S × Response S :=
  if s.stage = .idle then ({ s with stage := .check }, .ok) else (s, .err)

/-- CLEAR: refused while BUSY (44 R133). -/
def clearCommand (s : Block S) : Block S × Response S :=
  if s.stage.busy then (s, .err) else (clearColumn s, .ok)

/-- SRESET: refused while BUSY; else every item takes its reset value, column "reset" of 10 R35
(44 R134). -/
def sresetCommand (s : Block S) : Block S × Response S :=
  if s.stage.busy then (s, .err) else (Block.reset, .ok)

/-- A word written to CMD: the command it names, or ERR (30 R66, R67 a; 44 R138). -/
def commandWrite (w : Word) (s : Block S) : Block S × Response S :=
  if w = 0x00000001#32 then runCommand s
  else if w = 0x00000002#32 then clearCommand s
  else if w = 0x00000003#32 then sresetCommand s
  else (s, .err)

/-- The accepted write of a control word: all 32 bits are stored (10 R16 to R20). -/
def writeWord (w : Word) (s : Block S) : Loc → Block S × Response S
  | .cmd => commandWrite w s
  | .len => ({ s with len := w }, .ok)
  | .bpOrd => ({ s with bpOrd := w }, .ok)
  | .lpOrd => ({ s with lpOrd := w }, .ok)
  | .loPer => ({ s with loPer := w }, .ok)
  | .loStep => ({ s with loStep := w }, .ok)
  | .status => (s, .err)
  | .errcode => (s, .err)
  | .outLen => (s, .err)
  | .thr => (s, .err)
  | .peak => (s, .err)
  | .median => (s, .err)
  | .entry _ _ => (s, .err)
  | .unimplemented => (s, .err)

/-- The accepted write of a value: stored as it stands, well formed or not (44 R138). -/
def writeValue (v : S) (s : Block S) : Loc → Block S × Response S
  | .thr => ({ s with thr := some v }, .ok)
  | .entry b k => (s.setEntry b k v, .ok)
  | .cmd => (s, .err)
  | .status => (s, .err)
  | .errcode => (s, .err)
  | .len => (s, .err)
  | .bpOrd => (s, .err)
  | .lpOrd => (s, .err)
  | .loPer => (s, .err)
  | .loStep => (s, .err)
  | .outLen => (s, .err)
  | .peak => (s, .err)
  | .median => (s, .err)
  | .unimplemented => (s, .err)

/-- The payload's effect on an accepted location. -/
def writeLoc (payload : Payload S) (s : Block S) (l : Loc) : Block S × Response S :=
  match payload with
  | .word w => writeWord w s l
  | .value v => writeValue v s l

/-- `HostWrite(addr, v)`: the block after it and the port's answer (44 R138). -/
def hostWrite (c : Config S) (bank : BankNo) (index : Index) (payload : Payload S) (s : Block S) :
    Except Stop (Block S × Response S) :=
  if payload.fits bank then
    if writable s.stage (resolve c bank index) then .ok (writeLoc payload s (resolve c bank index))
    else .ok (s, .err)
  else .error (.refuse .payloadKind)

/-- What a host read finds: a refusal, a control word, or the content of a numeric location. -/
inductive Found (S : Type) where
  | err
  | word (w : Word)
  | numeric (held : Option S)
  deriving DecidableEq, Repr

/-- The accepted read of a location (44 R139; 10 R13 to R23). -/
def readLoc (s : Block S) : Loc → Found S
  | .cmd => .err
  | .status => .word (statusWord s)
  | .errcode => .word (errcodeWord s)
  | .len => .word s.len
  | .bpOrd => .word s.bpOrd
  | .lpOrd => .word s.lpOrd
  | .loPer => .word s.loPer
  | .loStep => .word s.loStep
  | .outLen => .word s.outLen
  | .thr => .numeric s.thr
  | .peak => .numeric s.peak
  | .median => .numeric s.median
  | .entry b k => .numeric (s.entry b k)
  | .unimplemented => .err

/-- `HostRead(addr)`: it changes nothing in the block (44 R139; 20 R54). -/
def hostRead (c : Config S) (bank : BankNo) (index : Index) (s : Block S) : Found S :=
  if readable s.stage s.outLen (resolve c bank index) then readLoc s (resolve c bank index)
  else .err

/-- The system after a host write or a command: the block and the answer it gave. -/
def System.transact (s : System S) (r : Block S × Response S) : System S :=
  { s with toBlock := r.1, response := some r.2 }

/-- The port's answer to a transaction that changes nothing. -/
def respond (r : Response S) (s : System S) : System S := { s with response := some r }

/-- The system after a host read: what the read found, with a draw where a numeric location holds `none`
(20 R47). -/
def answerRead (draw : Nat → S) (s : System S) : Found S → System S
  | .err => respond .err s
  | .word w => respond (.okWord w) s
  | .numeric (some v) => respond (.okValue v) s
  | .numeric none => respond (.okValue (draw s.draws)) { s with draws := s.draws + 1 }

end Sys2Proof.Machine
end

