-- ==== Sys2Proof/Machine/Check.lean ====
section
/-!
DEFINITION. The configuration test CHECK (44_sequencer_and_commands.md R132).
-/

namespace Sys2Proof.Machine

/-- CHECK: a failing test enters ERROR; when every test passes the model refuses a run whose needed set
holds `none` or an ill-formed value, and otherwise the stage becomes BPF (44 R132; 20 R48). -/
def check {S : Type} (c : Config S) (s : Block S) : Except Stop (Block S) :=
  if configTest c s = .none then
    if neededWf c s then .ok { s with stage := .bpf } else .error (.refuse .unspecifiedRun)
  else .ok (raiseError (configTest c s) s)

/-- CHECK on the machine's configuration. -/
def execCheck (s : State) : Host.Outcome State Fault Refusal :=
  outcomeOf (s.afterStage (check Config.machine s.toBlock))

end Sys2Proof.Machine
end

