-- ==== Sys2Proof/Machine/Command.lean ====
section
/-!
DEFINITION. The commands RUN, CLEAR and SRESET (44_sequencer_and_commands.md R131, R133, R134).
-/

namespace Sys2Proof.Machine

/-- RUN (44 R131). -/
def execRun (s : State) : Host.Outcome State Fault Refusal :=
  outcomeOf (.ok (s.transact (runCommand s.toBlock)))

/-- CLEAR, end of an event (44 R133). -/
def execClear (s : State) : Host.Outcome State Fault Refusal :=
  outcomeOf (.ok (s.transact (clearCommand s.toBlock)))

/-- SRESET, end of a session (44 R134). -/
def execSreset (s : State) : Host.Outcome State Fault Refusal :=
  outcomeOf (.ok (s.transact (sresetCommand s.toBlock)))

end Sys2Proof.Machine
end

