-- ==== Sys2Proof/Machine/Downconvert.lean ====
section
/-!
DEFINITION. The quadrature downconverter operations MIX and FORM (42_downconverter.md R111, R114).
-/

namespace Sys2Proof.Machine

/-- MIX, quadrature downconversion (42 R111). The working registers hold the sample counter and the
phase index that follow the last sample (10 R30). -/
def mix {S : Type} (c : Config S) (s : Block S) : Except Stop (Block S) :=
  let P := s.loPer.toNat
  let STEP := s.loStep.toNat
  let N := s.len.toNat
  if P = 0 ∧ N ≠ 0 then .error (.fault .zeroPeriod)
  else
    match streamRead s.ybp N with
    | .error e => .error e
    | .ok y =>
      match memReads c s .loCos (phases P STEP N) with
      | .error e => .error e
      | .ok cosines =>
        match memReads c s .loSin (phases P STEP N) with
        | .error e => .error e
        | .ok sines =>
          .ok { s with
            i := mixStream c.num y cosines
            q := mixStream c.num y sines
            mixN := N
            mixK := phase P STEP N
            stage := .lpfI }

/-- FORM, complex baseband formation (42 R114). -/
def form {S : Type} (c : Config S) (s : Block S) : Except Stop (Block S) :=
  match streamRead s.ib s.len.toNat with
  | .error e => .error e
  | .ok re =>
    match streamRead s.qb s.len.toNat with
    | .error e => .error e
    | .ok im =>
      match memWrites c .ybI s 0 re with
      | .error e => .error e
      | .ok s₁ =>
        match memWrites c .ybQ s₁ 0 im with
        | .error e => .error e
        | .ok s₂ => .ok { s₂ with stage := .env }

/-- MIX on the machine's configuration. -/
def execMix (s : State) : Host.Outcome State Fault Refusal :=
  outcomeOf (s.afterStage (mix Config.machine s.toBlock))

/-- FORM on the machine's configuration. -/
def execForm (s : State) : Host.Outcome State Fault Refusal :=
  outcomeOf (s.afterStage (form Config.machine s.toBlock))

end Sys2Proof.Machine
end

