-- ==== Sys2Proof/Machine/Filter.lean ====
section
/-!
DEFINITION. The IIR filter operations BPF, LPF_I and LPF_Q (41_iir_filter.md R101 to R103).
-/

namespace Sys2Proof.Machine

/-- BPF, bandpass isolation (41 R101). -/
def bpf {S : Type} (c : Config S) (s : Block S) : Except Stop (Block S) :=
  match readCoefficients c s .bpB .bpA s.bpOrd.toNat with
  | .error e => .error e
  | .ok (b, a) =>
    match memReads c s .x (List.range s.len.toNat) with
    | .error e => .error e
    | .ok u =>
      let v := iir c.num b a s.bpOrd.toNat u s.len.toNat
      .ok { s with
        ybp := v
        bpDelay := delayAfter c.num s.bpOrd.toNat u v s.len.toNat
        stage := .mix }

/-- LPF_I, lowpass baseband recovery of the in-phase channel (41 R102). -/
def lpfI {S : Type} (c : Config S) (s : Block S) : Except Stop (Block S) :=
  match readCoefficients c s .lpB .lpA s.lpOrd.toNat with
  | .error e => .error e
  | .ok (b, a) =>
    match streamRead s.i s.len.toNat with
    | .error e => .error e
    | .ok u =>
      let v := iir c.num b a s.lpOrd.toNat u s.len.toNat
      .ok { s with
        ib := v
        lpiDelay := delayAfter c.num s.lpOrd.toNat u v s.len.toNat
        stage := .lpfQ }

/-- LPF_Q, lowpass baseband recovery of the quadrature channel (41 R103). -/
def lpfQ {S : Type} (c : Config S) (s : Block S) : Except Stop (Block S) :=
  match readCoefficients c s .lpB .lpA s.lpOrd.toNat with
  | .error e => .error e
  | .ok (b, a) =>
    match streamRead s.q s.len.toNat with
    | .error e => .error e
    | .ok u =>
      let v := iir c.num b a s.lpOrd.toNat u s.len.toNat
      .ok { s with
        qb := v
        lpqDelay := delayAfter c.num s.lpOrd.toNat u v s.len.toNat
        stage := .form }

/-- BPF on the machine's configuration. -/
def execBpf (s : State) : Host.Outcome State Fault Refusal :=
  outcomeOf (s.afterStage (bpf Config.machine s.toBlock))

/-- LPF_I on the machine's configuration. -/
def execLpfI (s : State) : Host.Outcome State Fault Refusal :=
  outcomeOf (s.afterStage (lpfI Config.machine s.toBlock))

/-- LPF_Q on the machine's configuration. -/
def execLpfQ (s : State) : Host.Outcome State Fault Refusal :=
  outcomeOf (s.afterStage (lpfQ Config.machine s.toBlock))

end Sys2Proof.Machine
end

