-- ==== Sys2Proof/Machine/Gate.lean ====
section
/-!
DEFINITION. The envelope detector and the presence gate: ENV, STAT and GATE (43_envelope_gate.md R120,
R121, R124).
-/

namespace Sys2Proof.Machine

/-- ENV, envelope detection (43 R120). -/
def env {S : Type} (c : Config S) (s : Block S) : Except Stop (Block S) :=
  match streamRead s.ib s.len.toNat with
  | .error e => .error e
  | .ok re =>
    match streamRead s.qb s.len.toNat with
    | .error e => .error e
    | .ok im => .ok { s with m := envelope c.num re im, stage := .stat }

/-- STAT, peak and median over the whole record (43 R121, R122). The element `m[0]` exists because CHECK
has passed. The working storage holds the running maximum and the ordered magnitudes (10 R31). -/
def stat {S : Type} (c : Config S) (s : Block S) : Except Stop (Block S) :=
  match streamRead s.m s.len.toNat with
  | .error e => .error e
  | .ok [] => .error (.refuse .streamWithoutContent)
  | .ok (first :: rest) =>
    .ok { s with
      peak := some (peakOf c.num first rest)
      median := some (med c.num (first :: rest))
      statMax := some (peakOf c.num first rest)
      statOrder := ascending c.num (first :: rest)
      stage := .gate }

/-- GATE, the presence decision: NO_SIGNAL exactly when `lt(PEAK, THR)` (43 R124). -/
def gate {S : Type} (c : Config S) (s : Block S) : Except Stop (Block S) :=
  match regRead s.peak 1 with
  | .error e => .error e
  | .ok peak =>
    match regRead s.thr 0 with
    | .error e => .error e
    | .ok thr =>
      .ok { s with
        result := gateResult (c.num.lt peak thr)
        outLen := gateOutLen (c.num.lt peak thr) s.len
        stage := .done }

/-- ENV on the machine's configuration. -/
def execEnv (s : State) : Host.Outcome State Fault Refusal :=
  outcomeOf (s.afterStage (env Config.machine s.toBlock))

/-- STAT on the machine's configuration. -/
def execStat (s : State) : Host.Outcome State Fault Refusal :=
  outcomeOf (s.afterStage (stat Config.machine s.toBlock))

/-- GATE on the machine's configuration. -/
def execGate (s : State) : Host.Outcome State Fault Refusal :=
  outcomeOf (s.afterStage (gate Config.machine s.toBlock))

end Sys2Proof.Machine
end

