-- ==== Sys2Proof/Machine/HostPort.lean ====
section
/-!
DEFINITION. The host transactions WR and RD (44_sequencer_and_commands.md R138, R139).
-/

namespace Sys2Proof.Machine

/-- WR, host write (44 R138). -/
def execWr (bank : BankNo) (index : Index) (payload : Payload Sample) (s : State) :
    Host.Outcome State Fault Refusal :=
  outcomeOf ((hostWrite Config.machine bank index payload s.toBlock).map s.transact)

/-- RD, host read (44 R139). -/
def execRd (bank : BankNo) (index : Index) (s : State) : Host.Outcome State Fault Refusal :=
  outcomeOf (.ok (answerRead Config.draw s.toSystem (hostRead Config.machine bank index s.toBlock)))

end Sys2Proof.Machine
end

