-- ==== Sys2Proof/Machine/Dispatch.lean ====
section
/-!
DEFINITION. The meaning of each operation, one arm per constructor of Instr.
-/

namespace Sys2Proof.Machine

def exec (i : Instr) (s : State) : Host.Outcome State Fault Refusal :=
  match i with
  | .run => Sys2Proof.Machine.execRun s
  | .clear => Sys2Proof.Machine.execClear s
  | .sreset => Sys2Proof.Machine.execSreset s
  | .check => Sys2Proof.Machine.execCheck s
  | .bpf => Sys2Proof.Machine.execBpf s
  | .mix => Sys2Proof.Machine.execMix s
  | .lpfI => Sys2Proof.Machine.execLpfI s
  | .lpfQ => Sys2Proof.Machine.execLpfQ s
  | .form => Sys2Proof.Machine.execForm s
  | .env => Sys2Proof.Machine.execEnv s
  | .stat => Sys2Proof.Machine.execStat s
  | .gate => Sys2Proof.Machine.execGate s
  | .wr bank index payload => Sys2Proof.Machine.execWr bank index payload s
  | .rd bank index => Sys2Proof.Machine.execRd bank index s

end Sys2Proof.Machine
end

