-- ==== Sys2Proof/Machine/Fetch.lean ====
section
/-!
DEFINITION. Which agent moves next, and the operation it moves by (00_scope.md R5;
44_sequencer_and_commands.md R130, R141).
-/

namespace Sys2Proof.Machine

/-- What a step does: run an operation in a state, only pass to a state, or stop at an event that is no
transaction. -/
inductive Fetched where
  | run (i : Instr) (s : State)
  | pass (s : State)
  | bad (r : Refusal)
  deriving DecidableEq, Repr

/-- A turn of the sequencer: while BUSY it performs the operation its stage code names; in IDLE, DONE
and ERROR it does nothing (30_encoding.md R63, R65; 60_exceptions.md R165). -/
def sequencerTurn (s : State) : Fetched :=
  match decode (.stage s.stage.code) with
  | .ok i => .run i s
  | .error _ => .pass s

/-- A host transaction at the port (30 R72). -/
def hostTurn (h : BitVec 33) (payload : Option (Payload Sample)) (s : State) : Fetched :=
  match decode (.host h payload) with
  | .ok i => .run i s
  | .error e => .bad (.undecodable e)

/-- The next event of the agenda, taken off it; when there is none the sequencer moves, which is its
weak fairness (44 R141; log 3). -/
def fetch (s : State) : Fetched :=
  match s.agenda with
  | [] => sequencerTurn s
  | .sequencer :: t => sequencerTurn { s with agenda := t }
  | .host h payload :: t => hostTurn h payload { s with agenda := t }
  | .hardwareReset :: t => .pass { toSystem := hardwareReset { s.toSystem with agenda := t } }

/-- The state with a host transaction next at the port. -/
def placeTransaction (e : Encoded) (s : State) : State :=
  match e with
  | .host h payload => { s with agenda := .host h payload :: s.agenda }
  | .stage _ => s

/-- The state with a stage code next for the sequencer: `stage` holds the code and the sequencer has the
turn. A code that names no stage is never held (30 R67 b) and changes nothing. -/
def placeStage (code : BitVec 4) (s : State) : State :=
  match stageOfCode code with
  | some st => { s with stage := st, agenda := .sequencer :: s.agenda }
  | none => s

end Sys2Proof.Machine
end

