-- ==== Sys2Proof/Machine/Step.lean ====
section
/-!
DEFINITION. One step of the machine: a stage operation of the sequencer, a transaction of the host or a
hardware reset (44_sequencer_and_commands.md R141; 70_reset_and_hazards.md R170).
-/

namespace Sys2Proof.Machine

/-- One step. -/
def step (s : State) : Host.Outcome State Fault Refusal :=
  match fetch s with
  | .run i s' => exec i s'
  | .pass s' => .next s'
  | .bad r => .refused r

/-- The state whose next step runs the operation whose word, numbered as spec/opcode_table.json numbers
it, is `w`: a STAGE row sets `stage` and gives the sequencer the turn, a CMD or HOST row puts the
transaction at the port (log 3). -/
def State.withFetchWord (s : State) (nbits w : Nat) : State :=
  if nbits ≤ 8 then placeStage (BitVec.ofNat 4 w) s else placeTransaction (tableTransaction nbits w) s

end Sys2Proof.Machine
end

