-- ==== Sys2Proof/Machine/Design.lean ====
section
/-!
DEFINITION. The offline designer's contract (40_coefficient_contract.md): which FilterSpecs are valid,
what DESIGN answers, the named hypotheses a claim may use about it (R91), and the loading of its output
by host writes (R89). DESIGN is no hardware operation; no meaning of an instruction uses this file.
-/

namespace Sys2Proof.Machine

/-! ## Validity -/

/-- An edge lies strictly between 0 and 1 (40 R82 b; 90_conflicts.md C1). -/
def edgeInRange (e : Rat) : Bool := decide (0 < e) && decide (e < 1)

/-- A FilterSpec is valid when its edges are strictly nested and each lies strictly inside (0,1) (40 R82).
AC states no condition on `Rp`, `Rs` or the family. -/
def edgesValid : BandEdges → Bool
  | .bandpass stopbandLow passbandLow passbandHigh stopbandHigh =>
    decide (stopbandLow < passbandLow) && decide (passbandLow < passbandHigh)
      && decide (passbandHigh < stopbandHigh)
      && edgeInRange stopbandLow && edgeInRange passbandLow
      && edgeInRange passbandHigh && edgeInRange stopbandHigh
  | .lowpass passbandEdge stopbandEdge =>
    decide (passbandEdge < stopbandEdge) && edgeInRange passbandEdge && edgeInRange stopbandEdge

/-- DESIGN: an invalid FilterSpec fails with `InvalidSpecification` and is never clamped (40 R83); on a
valid one the answer is that of the uninterpreted synthesis (40 R84, R91). A pure function of its spec
(40 R80, R87). -/
def design {S : Type} (N : Num S) (spec : FilterSpec) : DesignResult S :=
  if edgesValid spec.edges then Config.synthesise N spec else .invalidSpecification

/-- An edge given in hertz as a fraction of the Nyquist frequency `fs/2` (40 R81). -/
def normalisedEdge (edgeHz fs : Rat) : Rat := edgeHz / (fs / 2)

/-! ## The transfer function and the named hypotheses -/

/-- The filter order, `length(feedback) - 1` (40 R85). -/
def filterOrder {S : Type} (f : FilterCoefficients S) : Nat := f.feedback.length - 1

/-- `y` is the value of `l[0] + l[1] z^-1 + l[2] z^-2 + ...` (40 R85; G1). The terms are values of
`REAL`, which 40 R88 speaks of. -/
def PolynomialHasValue (z : ℂ) (l : List ℝ) (y : ℂ) : Prop :=
  y = (l.zipIdx.map (fun e => (e.1 : ℂ) * z⁻¹ ^ e.2)).sum

/-- The gain `|H(z)|` at `z = e^(j pi w)`, `w` a fraction of Nyquist, has the value `g`: the numerator's
magnitude is `g` times the denominator's, which is not 0 (40 R85, R88; G1). -/
def HasGain (f : FilterCoefficients ℝ) (w : ℝ) (g : ℝ) : Prop :=
  ∃ num den : ℂ,
    PolynomialHasValue (Complex.exp (Complex.I * Real.pi * w)) f.feedforward num ∧
    PolynomialHasValue (Complex.exp (Complex.I * Real.pi * w)) f.feedback den ∧
    den ≠ 0 ∧ ‖num‖ = g * ‖den‖

/-- The passband of the edges. PRESUMED (log 10): between the passband edges of a bandpass, from 0 to the
passband edge of a lowpass. -/
def InPassband (e : BandEdges) (w : ℝ) : Prop :=
  match e with
  | .bandpass _ passbandLow passbandHigh _ => (passbandLow : ℝ) ≤ w ∧ w ≤ (passbandHigh : ℝ)
  | .lowpass passbandEdge _ => 0 ≤ w ∧ w ≤ (passbandEdge : ℝ)

/-- The stopband of the edges. PRESUMED (log 10): outside the stopband edges of a bandpass, above the
stopband edge of a lowpass, up to Nyquist. -/
def InStopband (e : BandEdges) (w : ℝ) : Prop :=
  match e with
  | .bandpass stopbandLow _ _ stopbandHigh =>
    (0 ≤ w ∧ w ≤ (stopbandLow : ℝ)) ∨ ((stopbandHigh : ℝ) ≤ w ∧ w ≤ 1)
  | .lowpass _ stopbandEdge => (stopbandEdge : ℝ) ≤ w ∧ w ≤ 1

/-- The filter passes its passband: every passband frequency has a gain, and it is above 0, so that a gain
in decibels exists there (40 R88). -/
def PassesPassband (spec : FilterSpec) (f : FilterCoefficients ℝ) : Prop :=
  ∀ w, InPassband spec.edges w → ∃ g, 0 < g ∧ HasGain f w g

/-- Every stopband frequency has a gain, 0 allowed: there the attenuation exceeds every bound (40 R88). -/
def HasStopbandGains (spec : FilterSpec) (f : FilterCoefficients ℝ) : Prop :=
  ∀ w, InStopband spec.edges w → ∃ g, 0 ≤ g ∧ HasGain f w g

/-- The ripple and attenuation constraints (40 R88; 00_scope.md glossary: "maximum allowed gain variation
in the passband (dB) / minimum required gain reduction in the stopband (dB)"). PRESUMED (log 10): the
variation is the ratio of any two passband gains, the reduction is against some passband gain. -/
def MeetsSpec (spec : FilterSpec) (f : FilterCoefficients ℝ) : Prop :=
  PassesPassband spec f ∧ HasStopbandGains spec f ∧
  (∀ w w' g g', InPassband spec.edges w → InPassband spec.edges w' → HasGain f w g → HasGain f w' g' →
    g ≤ (10 : ℝ) ^ ((spec.rp : ℝ) / 20) * g') ∧
  (∀ w g, InStopband spec.edges w → HasGain f w g →
    ∃ w' g', InPassband spec.edges w' ∧ HasGain f w' g' ∧ (10 : ℝ) ^ ((spec.rs : ℝ) / 20) * g ≤ g')

/-- All poles, the roots of the denominator, lie inside the unit circle (40 R85; G7). -/
def Stable (f : FilterCoefficients ℝ) : Prop :=
  ∀ z : ℂ, z ≠ 0 → PolynomialHasValue z f.feedback 0 → ‖z‖ < 1

/-- `design_rejects_invalid` (40 R83, R91). -/
def DesignRejectsInvalid {S : Type} (D : FilterSpec → DesignResult S) : Prop :=
  ∀ spec, edgesValid spec.edges = false → D spec = .invalidSpecification

/-- `design_pure` (40 R87, R91): equal specs give equal answers. -/
def DesignPure {S : Type} (D : FilterSpec → DesignResult S) : Prop :=
  ∀ spec spec' f f', spec = spec' → D spec = .coefficients f → D spec' = .coefficients f' → f = f'

/-! The next hypotheses are about `REAL` (40 R88), so a designer over another `NUM` comes with the real number
that each of its values stands for, `real`: an argument, since the spec does not say it (log 12). Over
`REAL` it is the identity. -/

/-- `design_normalised` (40 R85, R91): the leading feedback coefficient is 1. -/
def DesignNormalised {S : Type} (real : S → ℝ) (D : FilterSpec → DesignResult S) : Prop :=
  ∀ spec f, D spec = .coefficients f → (f.map real).feedback.head? = some 1

/-- `design_stable` (40 R85, R91). -/
def DesignStable {S : Type} (real : S → ℝ) (D : FilterSpec → DesignResult S) : Prop :=
  ∀ spec f, D spec = .coefficients f → Stable (f.map real)

/-- `design_meets_spec` (40 R88, R91). -/
def DesignMeetsSpec {S : Type} (real : S → ℝ) (D : FilterSpec → DesignResult S) : Prop :=
  ∀ spec f, D spec = .coefficients f → MeetsSpec spec (f.map real)

/-- The form of a coefficient set: the leading feedback coefficient is 1, and neither sequence has more than
order plus one terms (40 R85: `b[0 .. M]` and `a[0 .. M]`). -/
def HasForm (f : FilterCoefficients ℝ) : Prop :=
  f.feedback.head? = some 1 ∧ f.feedforward.length ≤ filterOrder f + 1

/-- `design_minimal_order` (40 R80, R84, R91): no stable set of the form, of the chosen family and of lower
order meets the spec. Which sets a family holds is a free value (log 10). -/
def DesignMinimalOrder {S : Type} (D : FilterSpec → DesignResult S) : Prop :=
  ∀ spec f f', D spec = .coefficients f → HasForm f' → Config.inFamily spec.family f' → Stable f' →
    MeetsSpec spec f' → filterOrder f ≤ filterOrder f'

/-! ## From DESIGN to the banks -/

/-- The set that is loaded: the designer's as it stands when its leading feedback term is 1, else with every
term of both sequences divided by that term (40 R89; 70 R179; G2). A set whose leading term is 0 or absent
cannot be normalised. DESIGN CHOICE: the division is an argument, since `NUM` has none (00 R7) and the
spec names no arithmetic for the host (log 12). -/
def normaliseCoefficients {S : Type} [DecidableEq S] (N : Num S) (divide : S → S → S)
    (f : FilterCoefficients S) : Option (FilterCoefficients S) :=
  match f.feedback with
  | [] => none
  | a0 :: _ =>
    if a0 = N.one then some f
    else if a0 = N.zero then none
    else some (f.map (fun x => divide x a0))

/-- The shorter sequence padded with `zero` to `n` terms (40 R89). -/
def padTo {S : Type} (c : Config S) (n : Nat) (l : List S) : List S :=
  l ++ List.replicate (n - l.length) c.num.zero

/-- The order loaded: `M + 1` is the longer of the two lengths (40 R89; 90_conflicts.md C8). -/
def loadedOrder {S : Type} (f : FilterCoefficients S) : Nat := max f.feedforward.length f.feedback.length - 1

/-- The writes `NAME[s] <- v0`, `NAME[s+1] <- v1`, ... in order: the expansion of LDV (30_encoding.md R71). -/
def ldv {S : Type} (b : Bank) : Nat → List S → List (Transaction S)
  | _, [] => []
  | k, v :: t =>
    .write (BitVec.ofNat 8 b.number) (BitVec.ofNat 24 k) (.value v) :: ldv b (k + 1) t

/-- The host writes that load a normalised set into an order register and its two banks: the order, then
`B[k]` for `k = 0 .. M`, then `A[k]` for `k = 1 .. M`; `a[0]` is written nowhere. A set of order above
`MAXORD` cannot be loaded (40 R89). -/
def loadSet {S : Type} (c : Config S) (orderIndex : Nat) (bankB bankA : Bank)
    (f : FilterCoefficients S) : Option (List (Transaction S)) :=
  if loadedOrder f ≤ c.maxOrd then
    some (.write 0#8 (BitVec.ofNat 24 orderIndex) (.word (BitVec.ofNat 32 (loadedOrder f)))
      :: ldv bankB 0 (padTo c (loadedOrder f + 1) f.feedforward)
      ++ ldv bankA 1 (padTo c (loadedOrder f + 1) f.feedback).tail)
  else none

/-- Loading a bandpass set: BP_ORD, BP_B, BP_A (40 R89; 70_reset_and_hazards.md R172 step 2). -/
def loadBandpass {S : Type} [DecidableEq S] (c : Config S) (divide : S → S → S)
    (f : FilterCoefficients S) : Option (List (Transaction S)) :=
  (normaliseCoefficients c.num divide f).bind (loadSet c 4 .bpB .bpA)

/-- Loading a lowpass set: LP_ORD, LP_B, LP_A (40 R89; 70 R172 step 2). -/
def loadLowpass {S : Type} [DecidableEq S] (c : Config S) (divide : S → S → S)
    (f : FilterCoefficients S) : Option (List (Transaction S)) :=
  (normaliseCoefficients c.num divide f).bind (loadSet c 5 .lpB .lpA)

end Sys2Proof.Machine
end

