-- ==== Sys2Proof/Machine/Streaming.lean ====
section
/-!
DEFINITION. The sample-at-a-time realisation of the filter that 41_iir_filter.md R105 (e) speaks of: it keeps
the last `M` inputs and outputs in registers (10_state.md R29) and takes one sample at a time.
-/

namespace Sys2Proof.Machine

variable {S : Type}

/-- The products of a row of coefficients with a row of registers, folded into an accumulator in
ascending order. -/
def tapProducts (N : Num S) (op : S → S → S) (acc : S) (coefficients registers : List S) : S :=
  (List.zipWith N.mul coefficients registers).foldl op acc

/-- One sample through the filter: the output, and the two rows of registers after it, newest first. -/
def filterTick (N : Num S) (b a inputs outputs : List S) (M : Nat) (x : S) : S × List S × List S :=
  let ff := tapProducts N N.add (N.mul (item N b 0) x) b.tail inputs
  let y := tapProducts N N.sub ff a outputs
  (y, (x :: inputs).take M, (y :: outputs).take M)

/-- A stream through the filter: the outputs and the registers after the last sample. -/
def filterTicks (N : Num S) (b a : List S) (M : Nat) :
    List S → List S → List S → List S × List S × List S
  | [], inputs, outputs => ([], inputs, outputs)
  | x :: t, inputs, outputs =>
    let r := filterTick N b a inputs outputs M x
    let rest := filterTicks N b a M t r.2.1 r.2.2
    (r.1 :: rest.1, rest.2)

end Sys2Proof.Machine
end

