-- ==== Sys2Proof/Machine/System.lean ====
section
/-!
DEFINITION. One step of the block for every `NUM`, its type of values included: the parameters and the draws
are arguments (00_scope.md R6; 20_memory.md R47). The machine with the fixed names is this one on the
fixed carrier (log 1).
-/

namespace Sys2Proof.Machine

variable {S : Type}

/-- The operation that the sequencer performs in a state, on a given configuration; in IDLE, DONE and
ERROR it does nothing (30_encoding.md R65; 60_exceptions.md R165). -/
def stageOp (c : Config S) (s : Block S) : Except Stop (Block S) :=
  match s.stage with
  | .idle => .ok s
  | .check => check c s
  | .bpf => bpf c s
  | .mix => mix c s
  | .lpfI => lpfI c s
  | .lpfQ => lpfQ c s
  | .form => form c s
  | .env => env c s
  | .stat => stat c s
  | .gate => gate c s
  | .done => .ok s
  | .error => .ok s

/-- A turn of the sequencer (44_sequencer_and_commands.md R130, R141). -/
def System.sequencerTurn (c : Config S) (s : System S) : Except Stop (System S) :=
  s.afterStage (stageOp c s.toBlock)

/-- A host transaction performed: commands are writes to CMD (30_encoding.md R62; 44 R138, R139). -/
def System.perform (c : Config S) (draw : Nat → S) (s : System S) :
    Transaction S → Except Stop (System S)
  | .write bank index payload => (hostWrite c bank index payload s.toBlock).map s.transact
  | .read bank index => .ok (answerRead draw s (hostRead c bank index s.toBlock))

/-- A host transaction at the port (30 R72). -/
def System.hostTurn (c : Config S) (draw : Nat → S) (h : BitVec 33) (payload : Option (Payload S))
    (s : System S) : Except Stop (System S) :=
  match decodeTransaction h payload with
  | .ok t => s.perform c draw t
  | .error e => .error (.refuse (.undecodable e))

/-- One step of the system: the next event, or the sequencer when nothing is to come (44 R141; log 3). -/
def System.step (c : Config S) (draw : Nat → S) (s : System S) : Except Stop (System S) :=
  match s.agenda with
  | [] => s.sequencerTurn c
  | .sequencer :: t => System.sequencerTurn c { s with agenda := t }
  | .host h payload :: t => System.hostTurn c draw h payload { s with agenda := t }
  | .hardwareReset :: t => .ok (hardwareReset { s with agenda := t })

end Sys2Proof.Machine
end

