-- ==== Sys2Proof/Safety.lean ====
section
/-!
DEFINITION. What counts as a safe run, in the terms claims use: when operands are held, when a run is
ready, the invariant of the machine, the sequencer on its own, and which stage follows which.
-/

namespace Sys2Proof.Machine

/-! ## Operands and readiness -/

/-- The entries `ks` of bank `b` exist and hold the values `vs`, in order. -/
def Holds {S : Type} (c : Config S) (s : Block S) (b : Bank) (ks : List Nat) (vs : List S) : Prop :=
  (∀ k ∈ ks, b.implemented c k = true) ∧ ks.map (s.entry b) = vs.map some

/-- `bank[k]` holds a well-formed value. -/
def EntryWf {S : Type} (c : Config S) (s : Block S) (b : Bank) (k : Nat) : Prop :=
  ∃ v, s.entry b k = some v ∧ c.num.wf v = true

/-- The needed set of a run holds well-formed values only, location by location (20_memory.md R48). -/
def Needed {S : Type} (c : Config S) (s : Block S) : Prop :=
  (∃ v, s.thr = some v ∧ c.num.wf v = true) ∧
  (∀ k, k ≤ s.bpOrd.toNat → EntryWf c s .bpB k) ∧
  (∀ k, 1 ≤ k → k ≤ s.bpOrd.toNat → EntryWf c s .bpA k) ∧
  (∀ k, k ≤ s.lpOrd.toNat → EntryWf c s .lpB k) ∧
  (∀ k, 1 ≤ k → k ≤ s.lpOrd.toNat → EntryWf c s .lpA k) ∧
  (∀ k, k < s.loPer.toNat → EntryWf c s .loCos k) ∧
  (∀ k, k < s.loPer.toNat → EntryWf c s .loSin k) ∧
  (∀ k, k < s.len.toNat → EntryWf c s .x k)

/-- The five configuration tests of 44 R132 all pass. -/
def Configured {S : Type} (c : Config S) (s : Block S) : Prop :=
  (1 ≤ s.len.toNat ∧ s.len.toNat ≤ c.maxLen) ∧ s.bpOrd.toNat ≤ c.maxOrd ∧ s.lpOrd.toNat ≤ c.maxOrd ∧
  (1 ≤ s.loPer.toNat ∧ s.loPer.toNat ≤ c.maxPer) ∧ s.loStep.toNat < s.loPer.toNat

/-! ## The address map and the agents, stated apart from the port -/

/-- The addresses that 20 R41 leaves unimplemented, bank by bank. -/
def Unimplemented {S : Type} (c : Config S) (bank : BankNo) (index : Index) : Prop :=
  (bank.toNat = 0x00 ∧ 9 ≤ index.toNat) ∨
  (bank.toNat = 0x01 ∧ 3 ≤ index.toNat) ∨
  ((bank.toNat = 0x02 ∨ bank.toNat = 0x04) ∧ c.maxOrd < index.toNat) ∨
  ((bank.toNat = 0x03 ∨ bank.toNat = 0x05) ∧ (index.toNat = 0 ∨ c.maxOrd < index.toNat)) ∨
  ((bank.toNat = 0x06 ∨ bank.toNat = 0x07) ∧ c.maxPer ≤ index.toNat) ∨
  ((bank.toNat = 0x08 ∨ bank.toNat = 0x09 ∨ bank.toNat = 0x0A) ∧ c.maxLen ≤ index.toNat) ∨
  0x0B ≤ bank.toNat

/-- The operations of the sequencer (30_encoding.md R65). -/
def isStageOp : Instr → Bool
  | .check => true
  | .bpf => true
  | .mix => true
  | .lpfI => true
  | .lpfQ => true
  | .form => true
  | .env => true
  | .stat => true
  | .gate => true
  | .run => false
  | .clear => false
  | .sreset => false
  | .wr _ _ _ => false
  | .rd _ _ => false

/-- Every item of state has the value in column "reset" of 10 R35; the delay lines and working
registers, whose content R35 leaves unobservable, are not among them. -/
def HasResetColumn {S : Type} (t : Block S) : Prop :=
  t.stage = .idle ∧ t.result = .none ∧ t.errcode = .none ∧ t.len = 0#32 ∧ t.bpOrd = 0#32 ∧
  t.lpOrd = 0#32 ∧ t.loPer = 0#32 ∧ t.loStep = 0#32 ∧ t.outLen = 0#32 ∧ t.thr = none ∧
  t.peak = none ∧ t.median = none ∧ (∀ a, t.mem.read a = none) ∧ t.ybp = [] ∧ t.i = [] ∧ t.q = [] ∧
  t.ib = [] ∧ t.qb = [] ∧ t.m = []

/-- Two states agree on the session state, the event state and the stage (10 R10). -/
def SameInputs {S : Type} (s s' : Block S) : Prop :=
  s.stage = s'.stage ∧ s.len = s'.len ∧ s.bpOrd = s'.bpOrd ∧ s.lpOrd = s'.lpOrd ∧ s.loPer = s'.loPer ∧
  s.loStep = s'.loStep ∧ s.thr = s'.thr ∧
  ∀ b k, b.isOutput = false → k < 2 ^ 24 → s.entry b k = s'.entry b k

/-- Two states agree on the result state (10 R10). -/
def SameResults {S : Type} (s s' : Block S) : Prop :=
  s.stage = s'.stage ∧ s.result = s'.result ∧ s.errcode = s'.errcode ∧ s.outLen = s'.outLen ∧
  s.peak = s'.peak ∧ s.median = s'.median ∧
  ∀ k, k < 2 ^ 24 → s.entry .ybI k = s'.entry .ybI k ∧ s.entry .ybQ k = s'.entry .ybQ k

/-- Some numeric location of the block holds the value. -/
def HeldSomewhere {S : Type} (s : Block S) (v : S) : Prop :=
  s.thr = some v ∨ s.peak = some v ∨ s.median = some v ∨ ∃ a, s.mem.read a = some v

/-! ## The sequencer on its own -/

/-- `n` turns of the sequencer with no host transaction between them (44 R141). -/
def turns {S : Type} (c : Config S) : Nat → Block S → Except Stop (Block S)
  | 0, s => .ok s
  | n + 1, s =>
    match stageOp c s with
    | .ok t => turns c n t
    | .error e => .error e

/-- The meanings of several operations one after another. -/
def execAll : List Instr → State → Host.Outcome State Fault Refusal
  | [], s => .next s
  | i :: t, s =>
    match exec i s with
    | .next s' => execAll t s'
    | .fault f => .fault f
    | .refused r => .refused r

/-- Host transactions performed one after another, over any type of values. -/
def System.performAll {S : Type} (c : Config S) (draw : Nat → S) :
    List (Transaction S) → System S → Except Stop (System S)
  | [], s => .ok s
  | t :: ts, s =>
    match s.perform c draw t with
    | .ok s' => System.performAll c draw ts s'
    | .error e => .error e

/-! ## The stage table -/

/-- The stages that may follow a BUSY or IDLE stage by a command or an operation, other than through a
clearing event (44 R130). -/
def Stage.successors : Stage → List Stage
  | .idle => [.check]
  | .check => [.error, .bpf]
  | .bpf => [.mix]
  | .mix => [.lpfI]
  | .lpfI => [.lpfQ]
  | .lpfQ => [.form]
  | .form => [.env]
  | .env => [.stat]
  | .stat => [.gate]
  | .gate => [.done]
  | .done => []
  | .error => []

/-- How far into the pipeline a stage lies; ERROR is entered from CHECK with nothing produced
(60 R154). -/
def Stage.progress : Stage → Nat
  | .idle => 0
  | .check => 1
  | .bpf => 2
  | .mix => 3
  | .lpfI => 4
  | .lpfQ => 5
  | .form => 6
  | .env => 7
  | .stat => 8
  | .gate => 9
  | .done => 10
  | .error => 1

/-! ## The invariant -/

/-- A stream has LEN elements once its stage has run, and no content before (10_state.md R28). -/
def StreamLength {S : Type} (s : Block S) (produced : Nat) (l : List S) : Prop :=
  l.length = if produced ≤ s.stage.progress then s.len.toNat else 0

/-- An output bank holds entries `0 .. LEN-1` once FORM has run, and `none` before (42 R114; 10 R35). -/
def OutputBank {S : Type} (s : Block S) (b : Bank) : Prop :=
  ∀ n, n < 2 ^ 24 → ((s.entry b n).isSome = true ↔ 7 ≤ s.stage.progress ∧ n < s.len.toNat)

/-- Every value a run has produced is well formed (44 R140). -/
def ProducedWf {S : Type} (c : Config S) (s : Block S) : Prop :=
  (∀ v, v ∈ s.ybp ++ s.i ++ s.q ++ s.ib ++ s.qb ++ s.m → c.num.wf v = true) ∧
  (∀ v, s.peak = some v → c.num.wf v = true) ∧
  (∀ v, s.median = some v → c.num.wf v = true) ∧
  (∀ n v, n < 2 ^ 24 → s.entry .ybI n = some v → c.num.wf v = true) ∧
  (∀ n v, n < 2 ^ 24 → s.entry .ybQ n = some v → c.num.wf v = true)

/-- The invariant of the machine. -/
structure Inv {S : Type} (c : Config S) (s : Block S) : Prop where
  /-- The memory keeps its canonical form. -/
  mem_wf : s.mem.wf = true
  /-- Only implemented locations hold values (20 R41). -/
  mem_mapped : s.mem.mapped c = true
  /-- RESULT is not NONE exactly when the stage is DONE (10 R14). -/
  result_iff : s.result ≠ .none ↔ s.stage = .done
  /-- ERRCODE is nonzero exactly when the stage is ERROR (10 R15). -/
  errcode_iff : s.errcode ≠ .none ↔ s.stage = .error
  /-- OUT_LEN is LEN after SIGNAL_PRESENT and 0 otherwise (10 R21). -/
  outLen_eq : s.outLen = if s.result = .signalPresent then s.len else 0#32
  /-- Past CHECK the configuration tests pass and the needed set is well formed (44 R132; 20 R48, R50). -/
  configured : 2 ≤ s.stage.progress → Configured c s ∧ Needed c s
  ybp_length : StreamLength s 3 s.ybp
  i_length : StreamLength s 4 s.i
  q_length : StreamLength s 4 s.q
  ib_length : StreamLength s 5 s.ib
  qb_length : StreamLength s 6 s.qb
  m_length : StreamLength s 8 s.m
  /-- PEAK and MEDIAN hold values once STAT has run (10 R23; 44 R131). -/
  peak_iff : s.peak.isSome = true ↔ 9 ≤ s.stage.progress
  median_iff : s.median.isSome = true ↔ 9 ≤ s.stage.progress
  ybI_bank : OutputBank s .ybI
  ybQ_bank : OutputBank s .ybQ
  /-- Law L3 keeps every produced value well formed (44 R140). -/
  produced_wf : ProducedWf c s

end Sys2Proof.Machine
end

