-- ==== Sys2Proof/Certificates/Slice0/Obligations.lean ====
section
/-!
DEFINITION. The statements for the provers. Each docstring names the rules of spec/ it formalises.
-/

open Sys2Proof Sys2Proof.Machine

/-! ## Encoding -/

/-- Every well-formed operation is read back from its encoding (30 R60, R62, R65, R66, R72). -/
def Obligations.DecodeEncodeRoundTrip : Prop :=
  ∀ i : Instr, i.wellFormed = true → decode (encode i) = .ok i

/-- What decodes has one encoding and is well formed, so no two forms share an operation and no bit of a
form is dropped (30 R60, R62, R65, R66, R72). -/
def Obligations.EncodeDecodeRoundTrip : Prop :=
  ∀ (e : Encoded) (i : Instr), decode e = .ok i → encode i = e ∧ i.wellFormed = true

/-- Words written out from the spec's encodings decode to the operations they stand for: STAGE codes
(30 R65), CMD words (30 R66), and HOST headers with the examples of 30 R60: `WR X[5]` at 0x08000005,
`RD LEN` at 0x00000003, `RD THR` at 0x01000000. -/
def Obligations.SpecWordsDecode : Prop :=
  decodeTableWord 4 0b0001 = some .check ∧ decodeTableWord 4 0b0110 = some .form ∧
  decodeTableWord 4 0b1001 = some .gate ∧ decodeTableWord 32 0x00000001 = some .run ∧
  decodeTableWord 32 0x00000002 = some .clear ∧ decodeTableWord 32 0x00000003 = some .sreset ∧
  decode (.host 0x108000005#33 (some (.value (3 / 4)))) = .ok (.wr 0x08#8 5#24 (.value (3 / 4))) ∧
  decode (.host 0x000000003#33 none) = .ok (.rd 0x00#8 3#24) ∧
  decode (.host 0x001000000#33 none) = .ok (.rd 0x01#8 0#24)

/-- 30 R67: (a) a CMD word other than the three commands is refused in every stage and changes nothing;
(b) the reserved codes are never held and name no operation; (c) the unimplemented addresses of 20 R41
are refused with ERR for reads and writes; (d) there is no other space. The port's response is the
model's own field (log 4). -/
def Obligations.ReservedEncodingsAreRefused : Prop :=
  (∀ (w : Word) (s : State), w ≠ 1#32 → w ≠ 2#32 → w ≠ 3#32 →
    exec (.wr 0#8 0#24 (.word w)) s = .next { s with response := some .err }) ∧
  (∀ s : State, s.stage.code.toNat ∉ [11, 12, 13, 14] ∧ s.result.code.toNat ≠ 3 ∧
    s.errcode.code.toNat ≤ 5) ∧
  (∀ code : BitVec 4, code.toNat ∈ [11, 12, 13, 14] →
    decode (.stage code) = .error (.reservedStage code)) ∧
  (∀ (s : State) (bank : BankNo) (index : Index) (p : Payload Sample),
    Unimplemented Config.machine bank index → p.fits bank = true →
    exec (.wr bank index p) s = .next { s with response := some .err } ∧
    exec (.rd bank index) s = .next { s with response := some .err })

/-- The address map of 20 R41: an address names nothing exactly when 20 R41 leaves it unimplemented, and
two addresses never name the same location. -/
def Obligations.AddressesNameDistinctLocations : Prop :=
  (∀ (bank : BankNo) (index : Index),
    resolve Config.machine bank index = .unimplemented ↔ Unimplemented Config.machine bank index) ∧
  ∀ (bank bank' : BankNo) (index index' : Index),
    ¬ Unimplemented Config.machine bank index →
    resolve Config.machine bank index = resolve Config.machine bank' index' →
    bank = bank' ∧ index = index'

/-! ## Reset and the clearing events -/

/-- 70 R171: a hardware reset in any stage, and an accepted SRESET, each give every item of state the value
in column "reset" of 10 R35. That the coming events stay the environment's is the model's choice
(log 3). -/
def Obligations.EitherResetGivesTheResetColumn : Prop :=
  (∀ (s : State) (rest : List (Event Sample)), ∃ t,
    step { s with agenda := .hardwareReset :: rest } = .next t ∧ HasResetColumn t.toBlock ∧ t.agenda = rest) ∧
  (∀ s : State, s.stage.busy = false → ∃ t, exec .sreset s = .next t ∧ HasResetColumn t.toBlock)

/-- The state after reset has the values of column "reset" (10 R35), every read of memory gives `none`, and
nothing is to come. The empty agenda, the absent response and the count of draws are the model's choice
(log 3, log 4, log 5). -/
def Obligations.ResetStateHasTheResetColumn : Prop :=
  HasResetColumn State.reset.toBlock ∧ State.reset.agenda = [] ∧ State.reset.response = none ∧
    State.reset.draws = 0

/-- SRESET, 44 R134: outside BUSY every item of state takes its reset value and the answer is OK; while
BUSY the answer is ERR and nothing changes. The agenda and the count of draws are the model's own (log 3,
log 5), and so is the content of the delay lines and working registers after a reset (log 9). -/
def Obligations.SresetEndsTheSession : Prop :=
  ∀ s : State,
    (s.stage.busy = false → exec .sreset s = .next
      { State.reset with response := some .ok, agenda := s.agenda, draws := s.draws }) ∧
    (s.stage.busy = true → exec .sreset s = .next { s with response := some .err })

/-- CLEAR, 44 R133: outside BUSY the items of column "CLEAR" take their values, the banks X, YB_I, YB_Q hold
`none`, every other location and all session state is kept, and the answer is OK; while BUSY the answer is
ERR and nothing changes. That the delay lines and working registers are emptied is the model's choice
(log 9). -/
def Obligations.ClearEndsTheEvent : Prop :=
  ∀ s : State,
    (s.stage.busy = false → ∃ t, exec .clear s = .next t ∧
      t = { s with
        stage := .idle, result := .none, errcode := .none, outLen := 0#32, len := 0#32,
        peak := none, median := none, mem := t.mem,
        ybp := [], i := [], q := [], ib := [], qb := [], m := [],
        bpDelay := Delay.empty, lpiDelay := Delay.empty, lpqDelay := Delay.empty,
        mixN := 0, mixK := 0, statMax := none, statOrder := [], response := some .ok } ∧
      ∀ a, t.mem.read a =
        if a / 2 ^ 24 = 0x08 ∨ a / 2 ^ 24 = 0x09 ∨ a / 2 ^ 24 = 0x0A then none else s.mem.read a) ∧
    (s.stage.busy = true → exec .clear s = .next { s with response := some .err })

/-- RUN, 44 R131: in IDLE the stage becomes CHECK, nothing else is written and the answer is OK; in every
other stage the answer is ERR and nothing changes. -/
def Obligations.RunStartsTheCheck : Prop :=
  ∀ s : State,
    (s.stage = .idle → exec .run s = .next { s with stage := .check, response := some .ok }) ∧
    (s.stage ≠ .idle → exec .run s = .next { s with response := some .err })

/-- A command is the write of its word to CMD (30 R62, R66, R71; 44 R138). -/
def Obligations.CommandsAreWritesToCmd : Prop :=
  ∀ s : State,
    exec (.wr 0#8 0#24 (.word 1#32)) s = exec .run s ∧
    exec (.wr 0#8 0#24 (.word 2#32)) s = exec .clear s ∧
    exec (.wr 0#8 0#24 (.word 3#32)) s = exec .sreset s

/-! ## The port -/

/-- 60 R152: in each of the cases P1 to P9 the transaction is answered ERR and every item of state stays
as it was. -/
def Obligations.RefusedTransactionsChangeNothing : Prop :=
  ∀ (s : State) (bank : BankNo) (index : Index) (p : Payload Sample), p.fits bank = true →
    let errWr := exec (.wr bank index p) s = .next { s with response := some .err }
    let errRd := exec (.rd bank index) s = .next { s with response := some .err }
    -- P1: an unimplemented address
    (Unimplemented Config.machine bank index → errWr ∧ errRd) ∧
    -- P2: a write to STATUS, ERRCODE, OUT_LEN, PEAK, MEDIAN, YB_I or YB_Q
    ((bank.toNat = 0x00 ∧ (index.toNat = 1 ∨ index.toNat = 2 ∨ index.toNat = 8)) ∨
      (bank.toNat = 0x01 ∧ (index.toNat = 1 ∨ index.toNat = 2)) ∨
      bank.toNat = 0x09 ∨ bank.toNat = 0x0A → errWr) ∧
    -- P3: a read of CMD
    (bank.toNat = 0x00 ∧ index.toNat = 0 → errRd) ∧
    -- P4: a write to CMD of a word that is no legal command
    (bank.toNat = 0x00 ∧ index.toNat = 0 →
      p ≠ .word 1#32 → p ≠ .word 2#32 → p ≠ .word 3#32 → errWr) ∧
    -- P5: a legal command in a stage that does not accept it
    (bank.toNat = 0x00 ∧ index.toNat = 0 →
      (p = .word 1#32 ∧ s.stage ≠ .idle) ∨ s.stage.busy = true → errWr) ∧
    -- P6: a write to a read-write location outside IDLE
    ((bank.toNat = 0x00 ∧ 3 ≤ index.toNat ∧ index.toNat ≤ 7) ∨ (bank.toNat = 0x01 ∧ index.toNat = 0) ∨
      (0x02 ≤ bank.toNat ∧ bank.toNat ≤ 0x08) → s.stage ≠ .idle → errWr) ∧
    -- P7: a read outside bank 0x00 while BUSY
    (bank.toNat ≠ 0x00 → s.stage.busy = true → errRd) ∧
    -- P8: a read of PEAK or MEDIAN outside DONE
    (bank.toNat = 0x01 ∧ (index.toNat = 1 ∨ index.toNat = 2) → s.stage ≠ .done → errRd) ∧
    -- P9: a read of an output entry outside DONE, or at an index from OUT_LEN up
    (bank.toNat = 0x09 ∨ bank.toNat = 0x0A → s.stage ≠ .done ∨ s.outLen.toNat ≤ index.toNat → errRd)

/-- While BUSY no host operation changes anything but the port's response (20 R46, R50). -/
def Obligations.BusyHostChangesNothing : Prop :=
  ∀ (s : State) (i : Instr), s.stage.busy = true → isStageOp i = false → i.wellFormed = true →
    ∃ r, exec i s = .next { s with response := some r }

/-- STATUS, 10 R13: a read in every stage answers a word with STAGE in bits 3:0, RESULT in bits 9:8 and
zeros in bits 7:4 and 31:10, and has no side effect; a write is refused. -/
def Obligations.StatusReadsStageAndResult : Prop :=
  ∀ s : State, ∃ w : Word,
    exec (.rd 0#8 1#24) s = .next { s with response := some (.okWord w) } ∧
    w.extractLsb' 0 4 = s.stage.code ∧ w.extractLsb' 8 2 = s.result.code ∧
    w.extractLsb' 4 4 = 0#4 ∧ w.extractLsb' 10 22 = 0#22 ∧
    ∀ w', exec (.wr 0#8 1#24 (.word w')) s = .next { s with response := some .err }

/-- A read of another control register answers its word in every stage and has no side effect: ERRCODE has
the code in bits 7:0 and zeros above (10 R15), LEN, BP_ORD, LP_ORD, LO_PER, LO_STEP and OUT_LEN are read
as stored (10 R16 to R21; 20 R46). -/
def Obligations.ControlReadsAnswerTheRegister : Prop :=
  ∀ s : State,
    (∃ w : Word, exec (.rd 0#8 2#24) s = .next { s with response := some (.okWord w) } ∧
      w.extractLsb' 0 8 = s.errcode.code ∧ w.extractLsb' 8 24 = 0#24) ∧
    exec (.rd 0#8 3#24) s = .next { s with response := some (.okWord s.len) } ∧
    exec (.rd 0#8 4#24) s = .next { s with response := some (.okWord s.bpOrd) } ∧
    exec (.rd 0#8 5#24) s = .next { s with response := some (.okWord s.lpOrd) } ∧
    exec (.rd 0#8 6#24) s = .next { s with response := some (.okWord s.loPer) } ∧
    exec (.rd 0#8 7#24) s = .next { s with response := some (.okWord s.loStep) } ∧
    exec (.rd 0#8 8#24) s = .next { s with response := some (.okWord s.outLen) }

/-- In IDLE a write to LEN, BP_ORD, LP_ORD, LO_PER or LO_STEP stores all 32 bits with no range check and
changes nothing else (10 R16 to R20; 44 R138). -/
def Obligations.ControlWritesStoreAllBits : Prop :=
  ∀ (s : State) (w : Word), s.stage = .idle →
    exec (.wr 0#8 3#24 (.word w)) s = .next { s with len := w, response := some .ok } ∧
    exec (.wr 0#8 4#24 (.word w)) s = .next { s with bpOrd := w, response := some .ok } ∧
    exec (.wr 0#8 5#24 (.word w)) s = .next { s with lpOrd := w, response := some .ok } ∧
    exec (.wr 0#8 6#24 (.word w)) s = .next { s with loPer := w, response := some .ok } ∧
    exec (.wr 0#8 7#24 (.word w)) s = .next { s with loStep := w, response := some .ok }

/-- In IDLE a write to THR stores the value, whatever its sign or size (10 R22; 44 R138). -/
def Obligations.ThresholdWriteStoresTheValue : Prop :=
  ∀ (s : State) (v : Sample), s.stage = .idle →
    exec (.wr 1#8 0#24 (.value v)) s = .next { s with thr := some v, response := some .ok }

/-- In IDLE a write to an implemented entry of a coefficient bank, a table or the record stores the value,
well formed or not, at the flat address `bank * 2^24 + index`; every other address reads as before and
no other field changes (30 R60; 20 R41, R46; 44 R138). -/
def Obligations.NumericWriteStoresOneLocation : Prop :=
  ∀ (s : State) (bank : BankNo) (index : Index) (v : Sample),
    s.stage = .idle → 0x02 ≤ bank.toNat → bank.toNat ≤ 0x08 →
    ¬ Unimplemented Config.machine bank index →
    ∃ t, exec (.wr bank index (.value v)) s = .next t ∧
      t = { s with mem := t.mem, response := some .ok } ∧
      ∀ a, t.mem.read a = if a = bank.toNat * 2 ^ 24 + index.toNat then some v else s.mem.read a

/-- An accepted read of a numeric location that holds a value answers it and changes nothing: THR outside
BUSY, PEAK and MEDIAN in DONE, entries of banks 0x02 to 0x08 outside BUSY, entries of the output banks in
DONE below OUT_LEN (20 R46, R54; 44 R139). -/
def Obligations.NumericReadAnswersTheHeldValue : Prop :=
  ∀ (s : State) (v : Sample),
    (s.stage.busy = false → s.thr = some v →
      exec (.rd 1#8 0#24) s = .next { s with response := some (.okValue v) }) ∧
    (s.stage = .done → s.peak = some v →
      exec (.rd 1#8 1#24) s = .next { s with response := some (.okValue v) }) ∧
    (s.stage = .done → s.median = some v →
      exec (.rd 1#8 2#24) s = .next { s with response := some (.okValue v) }) ∧
    (∀ (bank : BankNo) (index : Index),
      (0x02 ≤ bank.toNat ∧ bank.toNat ≤ 0x08 ∧ s.stage.busy = false) ∨
        (0x09 ≤ bank.toNat ∧ bank.toNat ≤ 0x0A ∧ s.stage = .done ∧ index.toNat < s.outLen.toNat) →
      ¬ Unimplemented Config.machine bank index →
      s.mem.read (bank.toNat * 2 ^ 24 + index.toNat) = some v →
      exec (.rd bank index) s = .next { s with response := some (.okValue v) })

/-- An accepted read of a numeric location that holds `none` answers a draw (20 R47). That the draw is the
free value numbered by the count of draws, and that the count advances, is the model's choice (log 5). -/
def Obligations.UnwrittenReadAnswersADraw : Prop :=
  ∀ s : State,
    let drawn : State :=
      { s with response := some (.okValue (Config.draw s.draws)), draws := s.draws + 1 }
    (s.stage.busy = false → s.thr = none → exec (.rd 1#8 0#24) s = .next drawn) ∧
    (s.stage = .done → s.peak = none → exec (.rd 1#8 1#24) s = .next drawn) ∧
    (s.stage = .done → s.median = none → exec (.rd 1#8 2#24) s = .next drawn) ∧
    (∀ (bank : BankNo) (index : Index),
      (0x02 ≤ bank.toNat ∧ bank.toNat ≤ 0x08 ∧ s.stage.busy = false) ∨
        (0x09 ≤ bank.toNat ∧ bank.toNat ≤ 0x0A ∧ s.stage = .done ∧ index.toNat < s.outLen.toNat) →
      ¬ Unimplemented Config.machine bank index →
      s.mem.read (bank.toNat * 2 ^ 24 + index.toNat) = none →
      exec (.rd bank index) s = .next drawn)

/-- No draw is made twice: the count of draws stays, or a read at the port advances it by one and answers the
draw of the old count; a step without a host transaction draws nothing and leaves the response as it was or
clears it; and a value that a transaction answers with the count unchanged is one that a location held (the
model's choice, log 5; 20 R47). -/
def Obligations.DrawsAreFresh : Prop :=
  ∀ s t : State, step s = .next t →
    (t.draws = s.draws ∨
      ((∃ h rest, s.agenda = .host h none :: rest) ∧ t.draws = s.draws + 1 ∧
        t.response = some (.okValue (Config.draw s.draws)))) ∧
    ((∀ h p rest, s.agenda ≠ .host h p :: rest) →
      t.draws = s.draws ∧ (t.response = s.response ∨ t.response = none)) ∧
    ∀ h p rest v, s.agenda = .host h p :: rest → t.draws = s.draws →
      t.response = some (.okValue v) → HeldSomewhere s.toBlock v

/-! ## CHECK and the stage ERROR -/

/-- CHECK, 44 R132: the first failing test in the order LEN, BP_ORD, LP_ORD, LO_PER, LO_STEP puts its code
into ERRCODE and ERROR into the stage and writes nothing else (60 R153, R154); when every test passes the
stage becomes BPF, and the model refuses the run when the needed set of 20 R48 is not met. -/
def Obligations.CheckReportsTheFirstFailingTest : Prop :=
  ∀ s : State,
    let c := Config.machine
    let badLen := s.len.toNat = 0 ∨ c.maxLen < s.len.toNat
    let badBpOrd := c.maxOrd < s.bpOrd.toNat
    let badLpOrd := c.maxOrd < s.lpOrd.toNat
    let badLoPer := s.loPer.toNat = 0 ∨ c.maxPer < s.loPer.toNat
    let badLoStep := s.loPer.toNat ≤ s.loStep.toNat
    let raised := fun e => exec .check s = .next { s with errcode := e, stage := .error }
    (badLen → raised .badLen) ∧
    (¬badLen → badBpOrd → raised .badBpOrd) ∧
    (¬badLen → ¬badBpOrd → badLpOrd → raised .badLpOrd) ∧
    (¬badLen → ¬badBpOrd → ¬badLpOrd → badLoPer → raised .badLoPer) ∧
    (¬badLen → ¬badBpOrd → ¬badLpOrd → ¬badLoPer → badLoStep → raised .badLoStep) ∧
    (¬badLen → ¬badBpOrd → ¬badLpOrd → ¬badLoPer → ¬badLoStep →
      (Needed c s.toBlock → exec .check s = .next { s with stage := .bpf }) ∧
      (¬ Needed c s.toBlock → exec .check s = .refused .unspecifiedRun))

/-- The codes of the configuration errors in ERRCODE[7:0] and of the results in STATUS[9:8], with the worked
STATUS words of 30 R68 (60 R151; 30 R68). -/
def Obligations.CodedFieldsHaveTheSpecsCodes : Prop :=
  [ErrCode.none, .badLen, .badBpOrd, .badLpOrd, .badLoPer, .badLoStep].map (fun e => e.code.toNat)
    = [0, 1, 2, 3, 4, 5] ∧
  [Result.none, .signalPresent, .noSignal].map (fun r => r.code.toNat) = [0, 1, 2] ∧
  statusWord State.reset.toBlock = 0x00000000#32 ∧
  statusWord { State.reset.toBlock with stage := .bpf } = 0x00000002#32 ∧
  statusWord { State.reset.toBlock with stage := .done, result := .signalPresent } = 0x0000010A#32 ∧
  statusWord { State.reset.toBlock with stage := .done, result := .noSignal } = 0x0000020A#32 ∧
  statusWord { State.reset.toBlock with stage := .error } = 0x0000000F#32

/-- Leaving ERROR, 60 R155: only CLEAR, SRESET or a hardware reset leave ERROR, each leads to IDLE with
ERRCODE 0, and RUN and every write other than CLEAR and SRESET are refused with no change. -/
def Obligations.OnlyClearingEventsLeaveError : Prop :=
  ∀ s : State, s.stage = .error →
    (∀ t, step s = .next t → t.stage ≠ .error →
      t.stage = .idle ∧ t.errcode = .none ∧
      ((∃ rest, s.agenda = .hardwareReset :: rest) ∨
        ∃ h p rest, s.agenda = .host h p :: rest ∧
          (decode (.host h p) = .ok .clear ∨ decode (.host h p) = .ok .sreset))) ∧
    (∃ t, exec .clear s = .next t ∧ t.stage = .idle ∧ t.errcode = .none) ∧
    (∃ t, exec .sreset s = .next t ∧ t.stage = .idle ∧ t.errcode = .none) ∧
    exec .run s = .next { s with response := some .err } ∧
    ∀ bank index p, (Instr.wr bank index p).wellFormed = true →
      exec (.wr bank index p) s = .next { s with response := some .err }

/-! ## The filter operations -/

/-- BPF, 41 R101: with its operands held, `ybp` takes the filter's output, the stage becomes MIX, the
and nothing else changes, memory included, but the bandpass delay line; that it holds the last samples
afterwards is the model's choice (log 9). -/
def Obligations.BpfFiltersTheRecord : Prop :=
  ∀ (s : State) (b a u : List Sample),
    Holds Config.machine s.toBlock .bpB (List.range (s.bpOrd.toNat + 1)) b →
    Holds Config.machine s.toBlock .bpA (List.range' 1 s.bpOrd.toNat) a →
    Holds Config.machine s.toBlock .x (List.range s.len.toNat) u →
    let v := iir Config.machine.num b a s.bpOrd.toNat u s.len.toNat
    exec .bpf s = .next { s with
      ybp := v
      bpDelay :=
        { inputs := lastOf Config.machine.num u s.bpOrd.toNat s.len.toNat
          outputs := lastOf Config.machine.num v s.bpOrd.toNat s.len.toNat }
      stage := .mix }

/-- LPF_I, 41 R102: with its operands held, `ib` takes the filter's output on `i`, the stage becomes LPF_Q,
and nothing else changes, memory included, but the I delay line; that it holds the last samples afterwards
is the model's choice (log 9). -/
def Obligations.LpfIFiltersTheInPhaseStream : Prop :=
  ∀ (s : State) (b a : List Sample),
    Holds Config.machine s.toBlock .lpB (List.range (s.lpOrd.toNat + 1)) b →
    Holds Config.machine s.toBlock .lpA (List.range' 1 s.lpOrd.toNat) a →
    s.i.length = s.len.toNat →
    let v := iir Config.machine.num b a s.lpOrd.toNat s.i s.len.toNat
    exec .lpfI s = .next { s with
      ib := v
      lpiDelay :=
        { inputs := lastOf Config.machine.num s.i s.lpOrd.toNat s.len.toNat
          outputs := lastOf Config.machine.num v s.lpOrd.toNat s.len.toNat }
      stage := .lpfQ }

/-- LPF_Q, 41 R103: with its operands held, `qb` takes the filter's output on `q`, the stage becomes FORM,
and nothing else changes, memory included, but the Q delay line; that it holds the last samples afterwards
is the model's choice (log 9). -/
def Obligations.LpfQFiltersTheQuadratureStream : Prop :=
  ∀ (s : State) (b a : List Sample),
    Holds Config.machine s.toBlock .lpB (List.range (s.lpOrd.toNat + 1)) b →
    Holds Config.machine s.toBlock .lpA (List.range' 1 s.lpOrd.toNat) a →
    s.q.length = s.len.toNat →
    let v := iir Config.machine.num b a s.lpOrd.toNat s.q s.len.toNat
    exec .lpfQ s = .next { s with
      qb := v
      lpqDelay :=
        { inputs := lastOf Config.machine.num s.q s.lpOrd.toNat s.len.toNat
          outputs := lastOf Config.machine.num v s.lpOrd.toNat s.len.toNat }
      stage := .form }

/-- In the reference instance the filter computes `v[n] = sum b[k] u[n-k] - sum a[k] v[n-k]`, with samples
before the first taken as 0, for a record of any length (41 R100). -/
def Obligations.FilterComputesTheDifferenceEquation : Prop :=
  ∀ (b a u : List Sample) (M len n : Nat),
    b.length = M + 1 → a.length = M → len ≤ u.length → n < len →
    let v := iir Num.rational b a M u len
    v.length = len ∧
    v[n]? = some
      ((∑ k ∈ Finset.range (M + 1), if k ≤ n then b.getD k 0 * u.getD (n - k) 0 else 0)
        - ∑ k ∈ Finset.Icc 1 M, if k ≤ n then a.getD (k - 1) 0 * v.getD (n - k) 0 else 0)

/-- Zero in, zero out, for every numerics record that satisfies the laws (41 R105 a). -/
def Obligations.FilterZeroInZeroOut : Prop :=
  ∀ (S : Type) (N : Num S), N.Lawful → ∀ (b a u : List S) (M len : Nat),
    (∀ x ∈ b, N.wf x = true) → (∀ x ∈ a, N.wf x = true) → (∀ x ∈ u, x = N.zero) →
    iir N b a M u len = List.replicate len N.zero

/-- The first outputs for a long record are the outputs for its first samples alone (41 R105 b). -/
def Obligations.FilterPrefixes : Prop :=
  ∀ (S : Type) (N : Num S) (b a u : List S) (M len len' : Nat), len' ≤ len →
    (iir N b a M u len).take len' = iir N b a M (u.take len') len'

/-- A sample-at-a-time realisation that keeps the last `M` inputs and outputs in registers, started from
zero, computes the same outputs (41 R105 e; 90 C4) and leaves the last `M` inputs and outputs in its
registers, which is the delay line the model keeps (the model's choice, log 9). -/
def Obligations.StreamingFilterRefinesTheRecurrence : Prop :=
  ∀ (S : Type) (N : Num S) (b a u : List S) (M : Nat), b.length = M + 1 → a.length = M →
    filterTicks N b a M u (List.replicate M N.zero) (List.replicate M N.zero) =
      (iir N b a M u u.length,
        lastOf N u M u.length,
        lastOf N (iir N b a M u u.length) M u.length)

/-- The channels are independent: LPF_I and LPF_Q in either order leave the same state but for the stage,
and neither reads the other's stream (41 R104). -/
def Obligations.LowpassChannelsAreIndependent : Prop :=
  ∀ (s : State) (b a : List Sample),
    Holds Config.machine s.toBlock .lpB (List.range (s.lpOrd.toNat + 1)) b →
    Holds Config.machine s.toBlock .lpA (List.range' 1 s.lpOrd.toNat) a →
    s.i.length = s.len.toNat → s.q.length = s.len.toNat →
    (∃ t u, execAll [.lpfI, .lpfQ] s = .next t ∧ execAll [.lpfQ, .lpfI] s = .next u ∧
      t = { u with stage := t.stage }) ∧
    ∀ x : List Sample,
      (∃ t t', exec .lpfI s = .next t ∧ exec .lpfI { s with q := x } = .next t' ∧ t'.ib = t.ib) ∧
      (∃ t t', exec .lpfQ s = .next t ∧ exec .lpfQ { s with i := x } = .next t' ∧ t'.qb = t.qb)

/-! ## The downconverter -/

/-- The phase index starts at 0, steps by LO_STEP modulo LO_PER, and stays below LO_PER (42 R110). -/
def Obligations.PhaseIndexSteps : Prop :=
  ∀ (period step n : Nat), step < period →
    phase period step 0 = 0 ∧
    phase period step (n + 1) = (phase period step n + step) % period ∧
    phase period step n < period

/-- MIX, 42 R111: with its operands held, element `n` of `i` and `q` is `mul(mul(two, ybp[n]), tone)` with
the tone at phase index `(n * LO_STEP) mod LO_PER`, the stage becomes LPF_I, and nothing else changes, memory
included, but the working registers; that they hold the count and the next phase index afterwards is the
model's choice (log 9). -/
def Obligations.MixMultipliesByTheTones : Prop :=
  ∀ (s : State) (cosines sines : List Sample),
    let N := Config.machine.num
    let k := fun n => (n * s.loStep.toNat) % s.loPer.toNat
    1 ≤ s.loPer.toNat → s.ybp.length = s.len.toNat →
    cosines.length = s.len.toNat → sines.length = s.len.toNat →
    (∀ n, n < s.len.toNat → k n < Config.machine.maxPer ∧
      s.entry .loCos (k n) = cosines[n]? ∧ s.entry .loSin (k n) = sines[n]?) →
    ∃ t, exec .mix s = .next t ∧
      t = { s with i := t.i, q := t.q, mixN := s.len.toNat, mixK := k s.len.toNat, stage := .lpfI } ∧
      t.i.length = s.len.toNat ∧ t.q.length = s.len.toNat ∧
      ∀ (n : Nat) (y co si : Sample), s.ybp[n]? = some y → cosines[n]? = some co → sines[n]? = some si →
        t.i[n]? = some (N.mul (N.mul N.two y) co) ∧ t.q[n]? = some (N.mul (N.mul N.two y) si)

/-- FORM, 42 R114: with both streams present and the record within the banks, `YB_I[n]` and `YB_Q[n]` take
`ib[n]` and `qb[n]` for `n < LEN`, every other address reads as before, the stage becomes ENV, and nothing
else changes. -/
def Obligations.FormStoresTheComplexBaseband : Prop :=
  ∀ s : State, s.ib.length = s.len.toNat → s.qb.length = s.len.toNat →
    s.len.toNat ≤ Config.machine.maxLen →
    ∃ t, exec .form s = .next t ∧
      t = { s with mem := t.mem, stage := .env } ∧
      (∀ n, n < s.len.toNat →
        t.mem.read (0x09 * 2 ^ 24 + n) = s.ib[n]? ∧ t.mem.read (0x0A * 2 ^ 24 + n) = s.qb[n]?) ∧
      ∀ a, (∀ n, n < s.len.toNat → a ≠ 0x09 * 2 ^ 24 + n ∧ a ≠ 0x0A * 2 ^ 24 + n) →
        t.mem.read a = s.mem.read a

/-! ## The envelope and the gate -/

/-- ENV, 43 R120: with both streams present, `m[n] = mag(ib[n], qb[n])` for `n < LEN`, the stage becomes
STAT, and nothing else changes, memory included. -/
def Obligations.EnvTakesTheMagnitudes : Prop :=
  ∀ s : State, s.ib.length = s.len.toNat → s.qb.length = s.len.toNat →
    ∃ t, exec .env s = .next t ∧ t = { s with m := t.m, stage := .stat } ∧
      t.m.length = s.len.toNat ∧
      ∀ (n : Nat) (x y : Sample), s.ib[n]? = some x → s.qb[n]? = some y →
        t.m[n]? = some (Config.machine.num.mag x y)

/-- STAT, 43 R121: with LEN magnitudes, at least one, PEAK takes their peak and MEDIAN their median, the stage
becomes GATE, and nothing else changes, memory included, but the working storage; that it holds the maximum
and the ordered magnitudes afterwards is the model's choice (log 9). -/
def Obligations.StatTakesPeakAndMedian : Prop :=
  ∀ (s : State) (first : Sample) (rest : List Sample),
    s.m = first :: rest → s.m.length = s.len.toNat →
    exec .stat s = .next { s with
      peak := some (peakOf Config.machine.num first rest)
      median := some (med Config.machine.num s.m)
      statMax := some (peakOf Config.machine.num first rest)
      statOrder := ascending Config.machine.num s.m
      stage := .gate }

/-- The peak is the greatest element, and the only one: by law L1 it is a single value whichever scan order is
used (43 R121). -/
def Obligations.PeakIsTheGreatestMagnitude : Prop :=
  ∀ (S : Type) (N : Num S), N.Lawful → ∀ (first : S) (rest : List S),
    (∀ x ∈ first :: rest, N.wf x = true) →
    (peakOf N first rest ∈ first :: rest ∧
      ∀ x ∈ first :: rest, N.lt (peakOf N first rest) x = false) ∧
    ∀ p ∈ first :: rest, (∀ x ∈ first :: rest, N.lt p x = false) → p = peakOf N first rest

/-- The median, 43 R122: there is one ascending arrangement of the values, and the median is its middle
element when the count is odd and the mean of its two middle elements when it is even; with the rule's
examples in the reference instance. -/
def Obligations.MedianIsTheMiddleOfTheArrangement : Prop :=
  (∀ (S : Type) (N : Num S), N.Lawful → ∀ m : List S, m ≠ [] → (∀ x ∈ m, N.wf x = true) →
    let isArrangement := fun s : List S => s.Perm m ∧
      ∀ j x y, s[j]? = some x → s[j + 1]? = some y → N.lt y x = false
    (∃ s, isArrangement s) ∧
    (∀ s s', isArrangement s → isArrangement s' → s = s') ∧
    ∀ s, isArrangement s →
      (m.length % 2 = 1 → s[(m.length - 1) / 2]? = some (med N m)) ∧
      (m.length % 2 = 0 → ∃ x y, s[m.length / 2 - 1]? = some x ∧ s[m.length / 2]? = some y ∧
        med N m = N.half (N.add x y))) ∧
  med Num.rational [0, 1, 1, 1, 1, 0, 0, 0] = 1 / 2 ∧ med Num.rational [7] = 7 ∧
  med Num.rational [2, 9] = 11 / 2

/-- GATE, 43 R124: with PEAK and THR held, RESULT is NO_SIGNAL and OUT_LEN 0 exactly when `lt(PEAK, THR)`,
otherwise SIGNAL_PRESENT and LEN; both arms end in DONE and nothing else changes, memory included; with the
rule's examples in the reference instance. -/
def Obligations.GateComparesPeakWithThreshold : Prop :=
  (∀ (s : State) (peak thr : Sample), s.peak = some peak → s.thr = some thr →
    let below := Config.machine.num.lt peak thr = true
    exec .gate s = .next { s with
      result := if below then .noSignal else .signalPresent
      outLen := if below then 0#32 else s.len
      stage := .done }) ∧
  Num.rational.lt 5 5 = false ∧ Num.rational.lt 5 (5001 / 1000) = true ∧
  Num.rational.lt 0 (1 / 2) = true

/-- The median takes no part in the decision (43 R123). -/
def Obligations.MedianTakesNoPartInTheDecision : Prop :=
  ∀ (s : State) (peak thr : Sample) (x : Option Sample), s.peak = some peak → s.thr = some thr →
    ∃ t t', exec .gate s = .next t ∧ exec .gate { s with median := x } = .next t' ∧
      t'.result = t.result ∧ t'.outLen = t.outLen ∧ t'.stage = t.stage

/-- A zero threshold defeats the gate: no peak of magnitudes is below zero (43 R126; 00 R8 L4). -/
def Obligations.ZeroThresholdAlwaysSignalPresent : Prop :=
  ∀ (S : Type) (N : Num S), N.Lawful → ∀ (ib qb : List S) (first : S) (rest : List S),
    (∀ x ∈ ib, N.wf x = true) → (∀ x ∈ qb, N.wf x = true) →
    envelope N ib qb = first :: rest →
    gateResult (N.lt (peakOf N first rest) N.zero) = .signalPresent

/-! ## The whole machine -/

/-- A step runs the decoded operation: a host transaction at the head of the agenda, or the operation that the
stage code names when the sequencer has the turn or nothing is to come; the event is taken off first. In
IDLE, DONE and ERROR the sequencer's turn changes nothing else (44 R130, R141; 30 R63; 60 R165). -/
def Obligations.StepRunsTheDecodedOperation : Prop :=
  (∀ (s : State) h p rest i, s.agenda = .host h p :: rest → decode (.host h p) = .ok i →
    step s = exec i { s with agenda := rest }) ∧
  (∀ (s : State) rest i, s.agenda = .sequencer :: rest → decode (.stage s.stage.code) = .ok i →
    step s = exec i { s with agenda := rest }) ∧
  (∀ (s : State) i, s.agenda = [] → decode (.stage s.stage.code) = .ok i → step s = exec i s) ∧
  (∀ (s : State) rest, s.agenda = .sequencer :: rest → s.stage.busy = false →
    step s = .next { s with agenda := rest }) ∧
  (∀ s : State, s.agenda = [] → s.stage.busy = false → step s = .next s)

/-- With nothing to come, a step is the sequencer's operation (44 R141). -/
def Obligations.StepIsTheSequencersTurn : Prop :=
  ∀ s : State, s.agenda = [] → step s = outcomeOf (s.afterStage (stageOp Config.machine s.toBlock))

/-- `stage` changes only as the table of 44 R130 says: by a turn of the sequencer along the pipeline, where
CHECK leads to BPF exactly when every test passes and else to ERROR, by RUN from IDLE, by CLEAR or SRESET
outside BUSY, and by a hardware reset. That the sequencer has the turn when nothing is to come is the
model's choice (log 3; 44 R141). -/
def Obligations.StageChangesOnlyByTheTable : Prop :=
  ∀ s t : State, step s = .next t →
    (s.agenda = [] ∨ (∃ rest, s.agenda = .sequencer :: rest) →
      (if s.stage.busy then t.stage ∈ s.stage.successors else t.stage = s.stage) ∧
      (s.stage = .check → (t.stage = .bpf ↔ Configured Config.machine s.toBlock))) ∧
    (∀ h p rest i, s.agenda = .host h p :: rest → decode (.host h p) = .ok i →
      t.stage = if i = .run ∧ s.stage = .idle then .check
        else if (i = .clear ∨ i = .sreset) ∧ s.stage.busy = false then .idle
        else s.stage) ∧
    (∀ rest, s.agenda = .hardwareReset :: rest → t.stage = .idle)

/-- No stage operation writes a control register other than ERRCODE, OUT_LEN and STATUS, or a numeric location
other than PEAK, MEDIAN, YB_I and YB_Q (10 R36). -/
def Obligations.RunsKeepSessionAndEventState : Prop :=
  ∀ (i : Instr) (s t : State), isStageOp i = true → exec i s = .next t →
    t.len = s.len ∧ t.bpOrd = s.bpOrd ∧ t.lpOrd = s.lpOrd ∧ t.loPer = s.loPer ∧
    t.loStep = s.loStep ∧ t.thr = s.thr ∧
    ∀ a, a / 2 ^ 24 ≠ 0x09 → a / 2 ^ 24 ≠ 0x0A → t.mem.read a = s.mem.read a

/-- The invariant holds after reset. -/
def Obligations.InvariantHoldsAtReset : Prop := Inv Config.machine State.reset.toBlock

/-- Every step keeps the invariant: the memory's canonical form and map, RESULT only in DONE (10 R14), ERRCODE
only in ERROR (10 R15), OUT_LEN (10 R21), a legal configuration and needed set past CHECK (20 R50), and
each stream, statistic and output bank produced exactly by its stage, with well-formed values (44 R140). -/
def Obligations.EveryStepKeepsTheInvariant : Prop :=
  ∀ s t : State, Inv Config.machine s.toBlock → step s = .next t → Inv Config.machine t.toBlock

/-- Over any type of values, the operations BPF to GATE raise nothing and refuse nothing in a state that
meets the invariant; CHECK refuses a run only when the tests pass and the needed set is not met (44 R140; 60
R162). -/
def Obligations.StagesAfterCheckNeverStop : Prop :=
  ∀ (S : Type) (c : Config S) (s : Block S), Inv c s → s.stage.busy = true →
    (s.stage ≠ .check → ∃ t, stageOp c s = .ok t ∧ t.stage ∈ s.stage.successors ∧ t.stage ≠ .error) ∧
    (s.stage = .check → (∃ t, stageOp c s = .ok t) ∨
      (Configured c s ∧ ¬ Needed c s ∧ stageOp c s = .error (.refuse .unspecifiedRun)))

/-- Over any type of values, from CHECK a run takes exactly nine turns of the sequencer to reach DONE when
the configuration is legal and the needed set is met, through CHECK, BPF, MIX, LPF_I, LPF_Q, FORM, ENV,
STAT, GATE in that order, and exactly one to reach ERROR when the configuration is not legal (44 R130,
R141). -/
def Obligations.RunTakesNineTurns : Prop :=
  ∀ (S : Type) (c : Config S) (s : Block S), s.stage = .check →
    (Configured c s → Needed c s → ∀ n, n ≤ 9 → ∃ t, turns c n s = .ok t ∧
      [Stage.check, .bpf, .mix, .lpfI, .lpfQ, .form, .env, .stat, .gate, .done][n]? = some t.stage) ∧
    (¬ Configured c s → ∃ t, turns c 1 s = .ok t ∧ t.stage = .error ∧ t.errcode ≠ .none)

/-- Silence, 43 R127, over any type of values: a record of zeros with a legal configuration, well-formed
operands and a positive threshold ends in DONE with every stream zero, PEAK and MEDIAN zero, RESULT
NO_SIGNAL and OUT_LEN 0. -/
def Obligations.SilenceGivesNoSignal : Prop :=
  ∀ (S : Type) (c : Config S) (s : Block S) (thr : S), s.stage = .check → Configured c s → Needed c s →
    (∀ n, n < s.len.toNat → s.entry .x n = some c.num.zero) →
    s.thr = some thr → c.num.lt c.num.zero thr = true →
    let zeros := List.replicate s.len.toNat c.num.zero
    ∃ t, turns c 9 s = .ok t ∧ t.stage = .done ∧
      t.ybp = zeros ∧ t.i = zeros ∧ t.q = zeros ∧ t.ib = zeros ∧ t.qb = zeros ∧ t.m = zeros ∧
      t.peak = some c.num.zero ∧ t.median = some c.num.zero ∧
      t.result = .noSignal ∧ t.outLen = 0#32

/-- Determinism, 44 R137, over any type of values: the result state of a run is a function of the session
state, the event state and `NUM`: two states that meet the invariant and agree on these give the same
results. -/
def Obligations.ResultsDependOnInputsOnly : Prop :=
  ∀ (S : Type) (c : Config S) (s s' : Block S), Inv c s → Inv c s' → s.stage = .check → SameInputs s s' →
    ∀ t, turns c 9 s = .ok t → ∃ t', turns c 9 s' = .ok t' ∧ SameResults t t'

/-- In DONE the results are readable: PEAK and MEDIAN after either result, and after SIGNAL_PRESENT every
output entry below LEN; after NO_SIGNAL every read of an output entry is refused (43 R125; 20 R51). -/
def Obligations.ResultsAreForwardedOnlyOnSignal : Prop :=
  ∀ s : State, Inv Config.machine s.toBlock → s.stage = .done →
    (∃ v, s.peak = some v ∧ exec (.rd 1#8 1#24) s = .next { s with response := some (.okValue v) }) ∧
    (∃ v, s.median = some v ∧ exec (.rd 1#8 2#24) s = .next { s with response := some (.okValue v) }) ∧
    ∀ (bank : BankNo) (index : Index), bank = 0x09#8 ∨ bank = 0x0A#8 →
      (s.result = .signalPresent → index.toNat < s.len.toNat →
        ∃ v, s.mem.read (bank.toNat * 2 ^ 24 + index.toNat) = some v ∧
          exec (.rd bank index) s = .next { s with response := some (.okValue v) }) ∧
      (s.result = .noSignal →
        exec (.rd bank index) s = .next { s with response := some .err })

/-! ## The offline designer -/

/-- A FilterSpec whose edges are not strictly nested inside (0,1) fails with `InvalidSpecification` and
gives no coefficients (40 R82, R83; 90 C1). -/
def Obligations.InvalidSpecificationIsRejected : Prop :=
  (∀ (S : Type) (N : Num S) sl pl ph sh rp rs family, ¬(0 < sl ∧ sl < pl ∧ pl < ph ∧ ph < sh ∧ sh < 1) →
    design N { edges := .bandpass sl pl ph sh, rp := rp, rs := rs, family := family }
      = .invalidSpecification) ∧
  (∀ (S : Type) (N : Num S) p st rp rs family, ¬(0 < p ∧ p < st ∧ st < 1) →
    design N { edges := .lowpass p st, rp := rp, rs := rs, family := family } = .invalidSpecification)

/-- Over any type of values, a set can be loaded exactly when its order is at most `MAXORD` and its leading
feedback term is 1 or can be divided by, and loading it in IDLE writes the order `M`, `B[0 .. M]` and
`A[1 .. M]` of its pair of banks: the set's own terms when that term is 1, else the terms divided by it,
padded with zero, and no other location or register (40 R89; 70 R172). The host's division is any function,
and a set whose leading term is 0 or absent cannot be loaded: the model's choices (log 12). -/
def Obligations.LoadingASetFillsItsBanks : Prop :=
  ∀ (S : Type) [DecidableEq S] (c : Config S) (draw : Nat → S) (divide : S → S → S) (s : System S)
      (f : FilterCoefficients S),
    let M := max f.feedforward.length f.feedback.length - 1
    (f.feedback = [] → loadBandpass c divide f = none ∧ loadLowpass c divide f = none) ∧
    ∀ (a0 : S) (tail : List S), f.feedback = a0 :: tail →
    let loadable := M ≤ c.maxOrd ∧ (a0 = c.num.one ∨ a0 ≠ c.num.zero)
    let term := fun (l : List S) (k : Nat) =>
      (l[k]?.map (fun x => if a0 = c.num.one then x else divide x a0)).getD c.num.zero
    (¬ loadable → loadBandpass c divide f = none ∧ loadLowpass c divide f = none) ∧
    (loadable → s.stage = .idle →
      (∃ ws t, loadBandpass c divide f = some ws ∧ System.performAll c draw ws s = .ok t ∧
        t = { s with bpOrd := t.bpOrd, mem := t.mem, response := some .ok } ∧ t.bpOrd.toNat = M ∧
        (∀ k, k ≤ M → t.entry .bpB k = some (term f.feedforward k)) ∧
        (∀ k, 1 ≤ k → k ≤ M → t.entry .bpA k = some (term f.feedback k)) ∧
        ∀ x, (∀ k, k ≤ M → x ≠ 0x02 * 2 ^ 24 + k) → (∀ k, 1 ≤ k → k ≤ M → x ≠ 0x03 * 2 ^ 24 + k) →
          t.mem.read x = s.mem.read x) ∧
      (∃ ws t, loadLowpass c divide f = some ws ∧ System.performAll c draw ws s = .ok t ∧
        t = { s with lpOrd := t.lpOrd, mem := t.mem, response := some .ok } ∧ t.lpOrd.toNat = M ∧
        (∀ k, k ≤ M → t.entry .lpB k = some (term f.feedforward k)) ∧
        (∀ k, 1 ≤ k → k ≤ M → t.entry .lpA k = some (term f.feedback k)) ∧
        ∀ x, (∀ k, k ≤ M → x ≠ 0x04 * 2 ^ 24 + k) → (∀ k, 1 ≤ k → k ≤ M → x ≠ 0x05 * 2 ^ 24 + k) →
          t.mem.read x = s.mem.read x))

/-! ## The reference instance -/

/-- The rational instance of the test vectors is `REAL` on rationals: the constants, the sums, differences,
products, halves and comparisons of rationals are the same in both, and so is every magnitude that is
rational (00 R9). -/
def Obligations.RationalInstanceIsRealOnRationals : Prop :=
  ((Num.rational.zero : Rat) : ℝ) = Num.real.zero ∧ ((Num.rational.two : Rat) : ℝ) = Num.real.two ∧
  ∀ a b : Rat,
    ((Num.rational.add a b : Rat) : ℝ) = Num.real.add a b ∧
    ((Num.rational.sub a b : Rat) : ℝ) = Num.real.sub a b ∧
    ((Num.rational.mul a b : Rat) : ℝ) = Num.real.mul a b ∧
    ((Num.rational.half a : Rat) : ℝ) = Num.real.half a ∧
    Num.rational.lt a b = Num.real.lt a b ∧
    (IsSquare (a * a + b * b) → ((Num.rational.mag a b : Rat) : ℝ) = Num.real.mag a b)

/-! ## Any type of values -/

/-- The machine with the fixed names is the system over any type of values, taken at the fixed carrier: each of
its steps is the system's, for the opaque parameters and draws (00 R6; the carrier is the model's choice,
log 1). -/
def Obligations.StepIsTheSystemsStep : Prop :=
  ∀ s : State, step s = outcomeOf (System.step Config.machine Config.draw s.toSystem)
end

