-- ==== Sys2Proof/Laws/Decode.lean ====
section
/-!
SUPPORT. The small lemmas of the decoder and the encoder: the fields of a header, a header from its
fields, and the command words.
-/

namespace Sys2Proof

/-- The bits of a header: index below 24, bank from 24, `we` at 32 (30_encoding.md R72). -/
theorem header_getLsbD (w : BitVec 1) (b : BankNo) (i : Index) (k : Nat) :
    (header w b i).getLsbD k =
      if k < 24 then i.getLsbD k else if k - 24 < 8 then b.getLsbD (k - 24) else w.getLsbD (k - 24 - 8) := by
  unfold header
  rw [BitVec.getLsbD_cast, BitVec.getLsbD_append, BitVec.getLsbD_append]

@[simp] theorem headerWe_header (w : BitVec 1) (b : BankNo) (i : Index) :
    headerWe (header w b i) = w := by
  apply BitVec.eq_of_getLsbD_eq
  intro k hk
  obtain rfl : k = 0 := by omega
  rw [headerWe, BitVec.getLsbD_extractLsb', header_getLsbD]
  rfl

@[simp] theorem headerBank_header (w : BitVec 1) (b : BankNo) (i : Index) :
    headerBank (header w b i) = b := by
  apply BitVec.eq_of_getLsbD_eq
  intro k hk
  rw [headerBank, BitVec.getLsbD_extractLsb', header_getLsbD, if_neg (by omega), if_pos (by omega)]
  rw [show 24 + k - 24 = k by omega, decide_eq_true hk, Bool.true_and]

@[simp] theorem headerIndex_header (w : BitVec 1) (b : BankNo) (i : Index) :
    headerIndex (header w b i) = i := by
  apply BitVec.eq_of_getLsbD_eq
  intro k hk
  rw [headerIndex, BitVec.getLsbD_extractLsb', header_getLsbD, Nat.zero_add, if_pos hk,
    decide_eq_true hk, Bool.true_and]

/-- A header is made of its three fields. -/
theorem header_fields (h : BitVec 33) : header (headerWe h) (headerBank h) (headerIndex h) = h := by
  apply BitVec.eq_of_getLsbD_eq
  intro k hk
  rw [header_getLsbD]
  unfold headerWe headerBank headerIndex
  simp only [BitVec.getLsbD_extractLsb']
  by_cases h1 : k < 24
  · simp [h1]
  · by_cases h2 : k < 32
    · have e : 24 + (k - 24) = k := by omega
      simp [h1, show k - 24 < 8 by omega, e]
    · obtain rfl : k = 32 := by omega
      simp

/-- The two fields of a CMD word make the word (30_encoding.md R62). -/
theorem cmdWord_fields (w : Word) (h : cmdZero w = 0#24) : w = (cmdOp w).setWidth 32 := by
  apply BitVec.eq_of_getLsbD_eq
  intro k hk
  by_cases h1 : k < 8
  · simp [cmdOp, h1, hk]
  · have e := congrArg (fun x : BitVec 24 => x.getLsbD (k - 8)) h
    simp only [cmdZero, BitVec.getLsbD_extractLsb', BitVec.getLsbD_zero,
      show k - 8 < 24 by omega, show 8 + (k - 8) = k by omega, decide_true, Bool.true_and] at e
    simp [cmdOp, h1, e]

/-- The legal command words are 1, 2 and 3 (30_encoding.md R66, R67 a). -/
theorem decodeCommand_eq (w : Word) :
    decodeCommand w = if w = 1#32 then some .run else if w = 2#32 then some .clear
      else if w = 3#32 then some .sreset else none := by
  by_cases h : cmdZero w = 0#24
  · have e := cmdWord_fields w h
    unfold decodeCommand
    rw [if_pos h]
    generalize cmdOp w = o at e
    subst e
    clear h
    revert o
    decide
  · have h1 : w ≠ 1#32 := fun e => h (by rw [e]; rfl)
    have h2 : w ≠ 2#32 := fun e => h (by rw [e]; rfl)
    have h3 : w ≠ 3#32 := fun e => h (by rw [e]; rfl)
    unfold decodeCommand
    rw [if_neg h, if_neg h1, if_neg h2, if_neg h3]

end Sys2Proof
end

