-- ==== Sys2Proof/Laws/Design.lean ====
section
/-!
SUPPORT. The loading of a coefficient set: what normalising and padding answer, and a sequence of host
transactions in two parts.
-/

namespace Sys2Proof.Machine

variable {S : Type} {c : Config S}

/-! ## Normalising -/

/-- A set whose leading term is 1 or can be divided by is normalised term by term. -/
theorem normaliseCoefficients_eq_some [DecidableEq S] {N : Num S} {divide : S → S → S}
    {f : FilterCoefficients S} {a0 : S} {tail : List S} (h : f.feedback = a0 :: tail)
    (h0 : a0 = N.one ∨ a0 ≠ N.zero) :
    normaliseCoefficients N divide f = some (f.map (fun x => if a0 = N.one then x else divide x a0)) := by
  unfold normaliseCoefficients
  rw [h]
  dsimp only
  by_cases h1 : a0 = N.one
  · simp [h1, FilterCoefficients.map]
  · simp [h1, h0.resolve_left h1]

/-- No set is normalised without a leading term, or by a zero that is not 1. -/
theorem normaliseCoefficients_eq_none [DecidableEq S] {N : Num S} {divide : S → S → S}
    {f : FilterCoefficients S}
    (h : ∀ a0 tail, f.feedback = a0 :: tail → a0 ≠ N.one ∧ a0 = N.zero) :
    normaliseCoefficients N divide f = none := by
  unfold normaliseCoefficients
  split
  · rfl
  · next a0 tail hf => rw [if_neg (h a0 tail hf).1, if_pos (h a0 tail hf).2]

@[simp] theorem loadedOrder_map {T : Type} (g : S → T) (f : FilterCoefficients S) :
    loadedOrder (f.map g) = loadedOrder f := by simp [loadedOrder, FilterCoefficients.map]

/-! ## Padding -/

@[simp] theorem length_padTo (n : Nat) (l : List S) : (padTo c n l).length = max n l.length := by
  simp [padTo]; omega

/-- A padded sequence holds its own terms, then `zero`. -/
theorem getElem?_padTo {n k : Nat} (l : List S) (hk : k < n) :
    (padTo c n l)[k]? = some (l[k]?.getD c.num.zero) := by
  unfold padTo
  by_cases h : k < l.length
  · simp [List.getElem?_append_left h, h]
  · rw [List.getElem?_append_right (by omega)]
    simp [List.getElem?_replicate, h]; omega

/-! ## Transactions one after another -/

theorem performAll_append (draw : Nat → S) (xs ys : List (Transaction S)) (s : System S) :
    System.performAll c draw (xs ++ ys) s = (System.performAll c draw xs s).bind (System.performAll c draw ys) := by
  induction xs generalizing s with
  | nil => rfl
  | cons x t ih =>
    simp only [List.cons_append, System.performAll]
    cases s.perform c draw x with
    | error e => rfl
    | ok z => exact ih z

end Sys2Proof.Machine
end

