-- ==== Sys2Proof/Laws/State.lean ====
section
/-!
SUPPORT. One lemma per field for each named update of the block and of the system, so that no proof
unfolds a record update.
-/

namespace Sys2Proof.Machine

variable {S : Type} (b : Block S) (s : System S) (draw : Nat → S)

/-! ## `setEntry` changes the memory only -/

@[simp] theorem setEntry_stage (n : Bank) (k : Nat) (v : S) : (b.setEntry n k v).stage = b.stage := rfl
@[simp] theorem setEntry_result (n : Bank) (k : Nat) (v : S) : (b.setEntry n k v).result = b.result := rfl
@[simp] theorem setEntry_errcode (n : Bank) (k : Nat) (v : S) : (b.setEntry n k v).errcode = b.errcode := rfl
@[simp] theorem setEntry_len (n : Bank) (k : Nat) (v : S) : (b.setEntry n k v).len = b.len := rfl
@[simp] theorem setEntry_bpOrd (n : Bank) (k : Nat) (v : S) : (b.setEntry n k v).bpOrd = b.bpOrd := rfl
@[simp] theorem setEntry_lpOrd (n : Bank) (k : Nat) (v : S) : (b.setEntry n k v).lpOrd = b.lpOrd := rfl
@[simp] theorem setEntry_loPer (n : Bank) (k : Nat) (v : S) : (b.setEntry n k v).loPer = b.loPer := rfl
@[simp] theorem setEntry_loStep (n : Bank) (k : Nat) (v : S) : (b.setEntry n k v).loStep = b.loStep := rfl
@[simp] theorem setEntry_outLen (n : Bank) (k : Nat) (v : S) : (b.setEntry n k v).outLen = b.outLen := rfl
@[simp] theorem setEntry_thr (n : Bank) (k : Nat) (v : S) : (b.setEntry n k v).thr = b.thr := rfl
@[simp] theorem setEntry_peak (n : Bank) (k : Nat) (v : S) : (b.setEntry n k v).peak = b.peak := rfl
@[simp] theorem setEntry_median (n : Bank) (k : Nat) (v : S) : (b.setEntry n k v).median = b.median := rfl
@[simp] theorem setEntry_mem (n : Bank) (k : Nat) (v : S) :
    (b.setEntry n k v).mem = b.mem.write (n.address k) v := rfl
@[simp] theorem setEntry_ybp (n : Bank) (k : Nat) (v : S) : (b.setEntry n k v).ybp = b.ybp := rfl
@[simp] theorem setEntry_i (n : Bank) (k : Nat) (v : S) : (b.setEntry n k v).i = b.i := rfl
@[simp] theorem setEntry_q (n : Bank) (k : Nat) (v : S) : (b.setEntry n k v).q = b.q := rfl
@[simp] theorem setEntry_ib (n : Bank) (k : Nat) (v : S) : (b.setEntry n k v).ib = b.ib := rfl
@[simp] theorem setEntry_qb (n : Bank) (k : Nat) (v : S) : (b.setEntry n k v).qb = b.qb := rfl
@[simp] theorem setEntry_m (n : Bank) (k : Nat) (v : S) : (b.setEntry n k v).m = b.m := rfl
@[simp] theorem setEntry_bpDelay (n : Bank) (k : Nat) (v : S) : (b.setEntry n k v).bpDelay = b.bpDelay := rfl
@[simp] theorem setEntry_lpiDelay (n : Bank) (k : Nat) (v : S) :
    (b.setEntry n k v).lpiDelay = b.lpiDelay := rfl
@[simp] theorem setEntry_lpqDelay (n : Bank) (k : Nat) (v : S) :
    (b.setEntry n k v).lpqDelay = b.lpqDelay := rfl
@[simp] theorem setEntry_mixN (n : Bank) (k : Nat) (v : S) : (b.setEntry n k v).mixN = b.mixN := rfl
@[simp] theorem setEntry_mixK (n : Bank) (k : Nat) (v : S) : (b.setEntry n k v).mixK = b.mixK := rfl
@[simp] theorem setEntry_statMax (n : Bank) (k : Nat) (v : S) : (b.setEntry n k v).statMax = b.statMax := rfl
@[simp] theorem setEntry_statOrder (n : Bank) (k : Nat) (v : S) :
    (b.setEntry n k v).statOrder = b.statOrder := rfl

/-! ## `raiseError` changes ERRCODE and the stage only -/

@[simp] theorem raiseError_stage (e : ErrCode) : (raiseError e b).stage = .error := rfl
@[simp] theorem raiseError_result (e : ErrCode) : (raiseError e b).result = b.result := rfl
@[simp] theorem raiseError_errcode (e : ErrCode) : (raiseError e b).errcode = e := rfl
@[simp] theorem raiseError_len (e : ErrCode) : (raiseError e b).len = b.len := rfl
@[simp] theorem raiseError_bpOrd (e : ErrCode) : (raiseError e b).bpOrd = b.bpOrd := rfl
@[simp] theorem raiseError_lpOrd (e : ErrCode) : (raiseError e b).lpOrd = b.lpOrd := rfl
@[simp] theorem raiseError_loPer (e : ErrCode) : (raiseError e b).loPer = b.loPer := rfl
@[simp] theorem raiseError_loStep (e : ErrCode) : (raiseError e b).loStep = b.loStep := rfl
@[simp] theorem raiseError_outLen (e : ErrCode) : (raiseError e b).outLen = b.outLen := rfl
@[simp] theorem raiseError_thr (e : ErrCode) : (raiseError e b).thr = b.thr := rfl
@[simp] theorem raiseError_peak (e : ErrCode) : (raiseError e b).peak = b.peak := rfl
@[simp] theorem raiseError_median (e : ErrCode) : (raiseError e b).median = b.median := rfl
@[simp] theorem raiseError_mem (e : ErrCode) : (raiseError e b).mem = b.mem := rfl
@[simp] theorem raiseError_ybp (e : ErrCode) : (raiseError e b).ybp = b.ybp := rfl
@[simp] theorem raiseError_i (e : ErrCode) : (raiseError e b).i = b.i := rfl
@[simp] theorem raiseError_q (e : ErrCode) : (raiseError e b).q = b.q := rfl
@[simp] theorem raiseError_ib (e : ErrCode) : (raiseError e b).ib = b.ib := rfl
@[simp] theorem raiseError_qb (e : ErrCode) : (raiseError e b).qb = b.qb := rfl
@[simp] theorem raiseError_m (e : ErrCode) : (raiseError e b).m = b.m := rfl
@[simp] theorem raiseError_bpDelay (e : ErrCode) : (raiseError e b).bpDelay = b.bpDelay := rfl
@[simp] theorem raiseError_lpiDelay (e : ErrCode) : (raiseError e b).lpiDelay = b.lpiDelay := rfl
@[simp] theorem raiseError_lpqDelay (e : ErrCode) : (raiseError e b).lpqDelay = b.lpqDelay := rfl
@[simp] theorem raiseError_mixN (e : ErrCode) : (raiseError e b).mixN = b.mixN := rfl
@[simp] theorem raiseError_mixK (e : ErrCode) : (raiseError e b).mixK = b.mixK := rfl
@[simp] theorem raiseError_statMax (e : ErrCode) : (raiseError e b).statMax = b.statMax := rfl
@[simp] theorem raiseError_statOrder (e : ErrCode) : (raiseError e b).statOrder = b.statOrder := rfl

/-! ## `clearColumn` is column "CLEAR" of 10 R35 -/

@[simp] theorem clearColumn_stage : (clearColumn b).stage = .idle := rfl
@[simp] theorem clearColumn_result : (clearColumn b).result = .none := rfl
@[simp] theorem clearColumn_errcode : (clearColumn b).errcode = .none := rfl
@[simp] theorem clearColumn_len : (clearColumn b).len = 0#32 := rfl
@[simp] theorem clearColumn_bpOrd : (clearColumn b).bpOrd = b.bpOrd := rfl
@[simp] theorem clearColumn_lpOrd : (clearColumn b).lpOrd = b.lpOrd := rfl
@[simp] theorem clearColumn_loPer : (clearColumn b).loPer = b.loPer := rfl
@[simp] theorem clearColumn_loStep : (clearColumn b).loStep = b.loStep := rfl
@[simp] theorem clearColumn_outLen : (clearColumn b).outLen = 0#32 := rfl
@[simp] theorem clearColumn_thr : (clearColumn b).thr = b.thr := rfl
@[simp] theorem clearColumn_peak : (clearColumn b).peak = none := rfl
@[simp] theorem clearColumn_median : (clearColumn b).median = none := rfl
@[simp] theorem clearColumn_mem : (clearColumn b).mem = ((b.mem.discard .x).discard .ybI).discard .ybQ := rfl
@[simp] theorem clearColumn_ybp : (clearColumn b).ybp = [] := rfl
@[simp] theorem clearColumn_i : (clearColumn b).i = [] := rfl
@[simp] theorem clearColumn_q : (clearColumn b).q = [] := rfl
@[simp] theorem clearColumn_ib : (clearColumn b).ib = [] := rfl
@[simp] theorem clearColumn_qb : (clearColumn b).qb = [] := rfl
@[simp] theorem clearColumn_m : (clearColumn b).m = [] := rfl
@[simp] theorem clearColumn_bpDelay : (clearColumn b).bpDelay = Delay.empty := rfl
@[simp] theorem clearColumn_lpiDelay : (clearColumn b).lpiDelay = Delay.empty := rfl
@[simp] theorem clearColumn_lpqDelay : (clearColumn b).lpqDelay = Delay.empty := rfl
@[simp] theorem clearColumn_mixN : (clearColumn b).mixN = 0 := rfl
@[simp] theorem clearColumn_mixK : (clearColumn b).mixK = 0 := rfl
@[simp] theorem clearColumn_statMax : (clearColumn b).statMax = none := rfl
@[simp] theorem clearColumn_statOrder : (clearColumn b).statOrder = [] := rfl

/-! ## The model's own fields: the updates of the system -/

@[simp] theorem withBlock_toBlock (n : Block S) : (s.withBlock n).toBlock = n := rfl
@[simp] theorem withBlock_response (n : Block S) : (s.withBlock n).response = s.response := rfl
@[simp] theorem withBlock_agenda (n : Block S) : (s.withBlock n).agenda = s.agenda := rfl
@[simp] theorem withBlock_draws (n : Block S) : (s.withBlock n).draws = s.draws := rfl

@[simp] theorem transact_toBlock (r : Block S × Response S) : (s.transact r).toBlock = r.1 := rfl
@[simp] theorem transact_response (r : Block S × Response S) : (s.transact r).response = some r.2 := rfl
@[simp] theorem transact_agenda (r : Block S × Response S) : (s.transact r).agenda = s.agenda := rfl
@[simp] theorem transact_draws (r : Block S × Response S) : (s.transact r).draws = s.draws := rfl

@[simp] theorem respond_toBlock (r : Response S) : (respond r s).toBlock = s.toBlock := rfl
@[simp] theorem respond_response (r : Response S) : (respond r s).response = some r := rfl
@[simp] theorem respond_agenda (r : Response S) : (respond r s).agenda = s.agenda := rfl
@[simp] theorem respond_draws (r : Response S) : (respond r s).draws = s.draws := rfl

@[simp] theorem hardwareReset_toBlock : (hardwareReset s).toBlock = Block.reset := rfl
@[simp] theorem hardwareReset_response : (hardwareReset s).response = none := rfl
@[simp] theorem hardwareReset_agenda : (hardwareReset s).agenda = s.agenda := rfl
@[simp] theorem hardwareReset_draws : (hardwareReset s).draws = s.draws := rfl

/-- A host read changes nothing in the block (20 R54). -/
@[simp] theorem answerRead_toBlock (f : Found S) : (answerRead draw s f).toBlock = s.toBlock := by
  rcases f with _ | _ | (_ | _) <;> rfl

@[simp] theorem answerRead_agenda (f : Found S) : (answerRead draw s f).agenda = s.agenda := by
  rcases f with _ | _ | (_ | _) <;> rfl

end Sys2Proof.Machine
end

