-- ==== Sys2Proof/Laws/Memory.lean ====
section
/-!
SUPPORT. The memory: a read after a write or a discard, and that every memory operation keeps the
canonical form and the map.
-/

namespace Sys2Proof.Machine

variable {S : Type}

/-- A read after a write gives the value written there and the old content elsewhere. -/
theorem Memory.read_write (m : Memory S) (a a' : Nat) (v : S) :
    (m.write a v).read a' = if a' = a then some v else m.read a' := by
  induction m with
  | nil => simp [Memory.write, Memory.read]
  | cons e t ih =>
    obtain ⟨b, w⟩ := e
    simp only [Memory.write]
    split
    · simp [Memory.read]
    · split
      · next h => subst h; simp only [Memory.read]; split <;> rfl
      · next h =>
        simp only [Memory.read, ih]
        by_cases h1 : a' = b
        · subst h1; simp [Ne.symm h]
        · simp [h1]

@[simp] theorem Memory.read_write_same (m : Memory S) (a : Nat) (v : S) :
    (m.write a v).read a = some v := by simp [Memory.read_write]

theorem Memory.read_write_other (m : Memory S) {a a' : Nat} (v : S) (h : a' ≠ a) :
    (m.write a v).read a' = m.read a' := by simp [Memory.read_write, h]

/-- A read after a bank is discarded: `none` in the bank, the old content elsewhere. -/
theorem Memory.read_discard (m : Memory S) (b : Bank) (a : Nat) :
    (m.discard b).read a = if bankOf a = b.number then none else m.read a := by
  induction m with
  | nil => simp [Memory.discard, Memory.read]
  | cons e t ih =>
    obtain ⟨k, w⟩ := e
    unfold Memory.discard at ih ⊢
    by_cases hk : bankOf k = b.number
    · rw [List.filter_cons_of_neg (by simp [hk]), ih]
      by_cases ha : bankOf a = b.number
      · simp [ha]
      · have : a ≠ k := fun h => ha (h ▸ hk)
        simp [ha, Memory.read, this]
    · rw [List.filter_cons_of_pos (by simp [hk])]
      simp only [Memory.read, ih]
      by_cases ha : a = k
      · subst ha; simp [hk]
      · simp [ha]

/-- The canonical form is the strict order of the addresses. -/
theorem Memory.wf_iff (m : Memory S) : m.wf = true ↔ m.Pairwise (fun e f => e.1 < f.1) := by
  induction m with
  | nil => simp [Memory.wf]
  | cons e t ih =>
    cases t with
    | nil => simp [Memory.wf]
    | cons f t =>
      rw [Memory.wf, Bool.and_eq_true, ih, decide_eq_true_eq]
      constructor
      · rintro ⟨hlt, hp⟩
        refine List.pairwise_cons.2 ⟨?_, hp⟩
        intro g hg
        rcases List.mem_cons.1 hg with rfl | hg
        · exact hlt
        · exact hlt.trans ((List.pairwise_cons.1 hp).1 g hg)
      · intro hp
        exact ⟨(List.pairwise_cons.1 hp).1 f (by simp), (List.pairwise_cons.1 hp).2⟩

/-- The pairs after a write are the pair written and old pairs. -/
theorem Memory.mem_write (m : Memory S) (a : Nat) (v : S) (e : Nat × S) :
    e ∈ m.write a v → e = (a, v) ∨ e ∈ m := by
  induction m with
  | nil => simp [Memory.write]
  | cons f t ih =>
    obtain ⟨b, w⟩ := f
    simp only [Memory.write]
    split
    · simp
    · split
      · simp only [List.mem_cons]; tauto
      · simp only [List.mem_cons]; tauto

/-- A write keeps the canonical form. -/
theorem Memory.write_wf (m : Memory S) (a : Nat) (v : S) (h : m.wf = true) :
    (m.write a v).wf = true := by
  rw [Memory.wf_iff] at h ⊢
  induction m with
  | nil => simp [Memory.write]
  | cons f t ih =>
    obtain ⟨b, w⟩ := f
    obtain ⟨hb, ht⟩ := List.pairwise_cons.1 h
    simp only [Memory.write]
    split
    · next hab =>
      refine List.pairwise_cons.2 ⟨?_, h⟩
      intro g hg
      rcases List.mem_cons.1 hg with rfl | hg
      · exact hab
      · exact hab.trans (hb g hg)
    · split
      · next hab => subst hab; exact List.pairwise_cons.2 ⟨hb, ht⟩
      · next h1 h2 =>
        refine List.pairwise_cons.2 ⟨?_, ih ht⟩
        intro g hg
        rcases Memory.mem_write t a v g hg with rfl | hg
        · simp only; omega
        · exact hb g hg

/-- Discarding a bank keeps the canonical form. -/
theorem Memory.discard_wf (m : Memory S) (b : Bank) (h : m.wf = true) : (m.discard b).wf = true := by
  rw [Memory.wf_iff] at h ⊢
  exact h.filter _

/-- The memory at reset has the canonical form. -/
theorem reset_mem_wf : State.reset.mem.wf = true := rfl

/-- Discarding a bank keeps the map. -/
theorem Memory.discard_mapped (c : Config S) (m : Memory S) (b : Bank) (h : m.mapped c = true) :
    (m.discard b).mapped c = true := by
  unfold Memory.mapped Memory.discard at *
  rw [List.all_eq_true] at h ⊢
  exact fun e he => h e (List.mem_filter.1 he).1

/-! ## Flat addresses -/

/-- An index below `2^24` stays in its bank (30 R60). -/
theorem bankOf_address (b : Bank) (k : Nat) (h : k < 2 ^ 24) : bankOf (b.address k) = b.number := by
  unfold bankOf Bank.address; omega

theorem address_mod (b : Bank) (k : Nat) (h : k < 2 ^ 24) : b.address k % 2 ^ 24 = k := by
  unfold Bank.address; omega

/-- Two locations of the address space have different flat addresses. -/
theorem address_inj {b b' : Bank} {k k' : Nat} (h : k < 2 ^ 24) (h' : k' < 2 ^ 24)
    (e : b.address k = b'.address k') : b = b' ∧ k = k' := by
  have hn : b.number = b'.number := by
    rw [← bankOf_address b k h, ← bankOf_address b' k' h', e]
  have hk : k = k' := by rw [← address_mod b k h, ← address_mod b' k' h', e]
  refine ⟨?_, hk⟩
  cases b <;> cases b' <;> first | rfl | (simp [Bank.number] at hn)

/-- An implemented index fits the 24-bit index field (00 R6). -/
theorem implemented_lt (c : Config S) (b : Bank) (k : Nat) (h : b.implemented c k = true) :
    k < 2 ^ 24 := by
  have h1 := c.maxOrd_le
  have h2 := c.maxLen_le
  have h3 := c.maxPer_le
  cases b <;> simp [Bank.implemented] at h <;> omega

/-- A write to an implemented location keeps the map. -/
theorem Memory.write_mapped (c : Config S) (m : Memory S) (b : Bank) (k : Nat) (v : S)
    (hk : b.implemented c k = true) (h : m.mapped c = true) :
    (m.write (b.address k) v).mapped c = true := by
  unfold Memory.mapped at *
  rw [List.all_eq_true] at h ⊢
  intro e he
  rcases Memory.mem_write m _ v e he with rfl | he
  · have hlt := implemented_lt c b k hk
    simp only [bankOf_address b k hlt, address_mod b k hlt, List.any_eq_true]
    exact ⟨b, by cases b <;> simp, by simp [hk]⟩
  · exact h e he

/-- The content of an entry after a write to an entry. -/
theorem entry_setEntry (s : Block S) (b b' : Bank) (k k' : Nat) (v : S) (h : k < 2 ^ 24)
    (h' : k' < 2 ^ 24) :
    (s.setEntry b k v).entry b' k' = if b' = b ∧ k' = k then some v else s.entry b' k' := by
  unfold Block.entry
  rw [setEntry_mem, Memory.read_write]
  by_cases e : b'.address k' = b.address k
  · obtain ⟨rfl, rfl⟩ := address_inj h' h e
    simp
  · rw [if_neg e, if_neg]
    rintro ⟨rfl, rfl⟩
    exact e rfl

end Sys2Proof.Machine
end

