-- ==== Sys2Proof/Laws/Ops.lean ====
section
/-!
SUPPORT. One lemma for each shared operation that says everything it can do; proofs cite these and do
not unfold the operations.
-/

namespace Sys2Proof.Machine

variable {S : Type} {c : Config S} {s t : Block S} {b : Bank} {k : Nat}

/-! ## Outcomes -/

@[simp] theorem outcomeOf_ok {y : System Sample} : outcomeOf (.ok y) = .next { toSystem := y } := rfl

/-- A next state comes from a meaning that answered. -/
theorem outcomeOf_eq_next {x : Except Stop (System Sample)} {t : State} :
    outcomeOf x = .next t ↔ x = .ok t.toSystem := by
  cases t
  rcases x with (f | r) | u <;> simp [outcomeOf]

@[simp] theorem afterStage_ok {y : System S} {b : Block S} : y.afterStage (.ok b) = .ok (y.withBlock b) := rfl

/-- What follows a stage operation is the old system with the block that the operation answered. -/
theorem afterStage_eq_ok {y z : System S} {x : Except Stop (Block S)} :
    y.afterStage x = .ok z ↔ ∃ b, x = .ok b ∧ z = y.withBlock b := by
  rcases x with e | b <;> simp [System.afterStage, Except.map, eq_comm]

/-! ## The sequencer's accesses -/

theorem memRead_eq_ok {v : S} :
    memRead c s b k = .ok v ↔ b.implemented c k = true ∧ s.entry b k = some v := by
  unfold memRead
  split
  · next h => cases s.entry b k <;> simp [h]
  · next h => simp [h]

/-- Reading several entries answers exactly the values they hold. -/
theorem memReads_eq_ok {ks : List Nat} {vs : List S} :
    memReads c s b ks = .ok vs ↔ Holds c s b ks vs := by
  induction ks generalizing vs with
  | nil => cases vs <;> simp [memReads, Holds]
  | cons k ks ih =>
    simp only [memReads, Holds]
    cases h : memRead c s b k with
    | error e =>
      simp only [reduceCtorEq, false_iff]
      rintro ⟨hi, hm⟩
      cases vs with
      | nil => simp at hm
      | cons v vs =>
        simp only [List.map_cons, List.cons.injEq] at hm
        have := memRead_eq_ok.2 ⟨hi k (by simp), hm.1⟩
        simp [h] at this
    | ok v =>
      obtain ⟨hi, he⟩ := memRead_eq_ok.1 h
      cases h' : memReads c s b ks with
      | error e =>
        simp only [reduceCtorEq, false_iff]
        rintro ⟨hj, hm⟩
        cases vs with
        | nil => simp at hm
        | cons w ws =>
          simp only [List.map_cons, List.cons.injEq] at hm
          have := ih.2 ⟨fun j hj' => hj j (List.mem_cons_of_mem _ hj'), hm.2⟩
          simp [h'] at this
      | ok ws =>
        obtain ⟨hj, hm⟩ := ih.1 h'
        simp only [Except.ok.injEq]
        constructor
        · rintro rfl
          refine ⟨?_, by simp [he, hm]⟩
          intro j hj'
          rcases List.mem_cons.1 hj' with rfl | hj'
          · exact hi
          · exact hj j hj'
        · rintro ⟨-, hm'⟩
          cases vs with
          | nil => simp at hm'
          | cons x xs =>
            simp only [List.map_cons, List.cons.injEq, he, Option.some.injEq] at hm'
            have hx : ws.map some = xs.map some := hm.symm.trans hm'.2
            rw [hm'.1, (List.map_injective_iff.2 (Option.some_injective _)) hx]

/-- The values read are as many as the entries. -/
theorem Holds.length {ks : List Nat} {vs : List S} (h : Holds c s b ks vs) :
    vs.length = ks.length := by simpa using (congrArg List.length h.2).symm

theorem memWrite_eq_ok {v : S} :
    memWrite c s b k v = .ok t ↔ b.implemented c k = true ∧ t = s.setEntry b k v := by
  unfold memWrite
  split
  · next h => simp [h, eq_comm]
  · next h => simp [h]

/-- Writing a stream to a bank changes the memory only, and of the memory only the entries it stores
to. -/
theorem memWrites_eq_ok {vs : List S} (h : memWrites c b s k vs = .ok t) :
    t = { s with mem := t.mem } ∧
    (∀ j, j < vs.length → b.implemented c (k + j) = true) ∧
    ∀ a, t.mem.read a =
      if b.address k ≤ a ∧ a < b.address k + vs.length then vs[a - b.address k]? else s.mem.read a := by
  induction vs generalizing s k with
  | nil =>
    simp only [memWrites, Except.ok.injEq] at h
    subst h
    refine ⟨rfl, by simp, fun a => ?_⟩
    rw [if_neg (by simp)]
  | cons v vs ih =>
    simp only [memWrites] at h
    cases h' : memWrite c s b k v with
    | error e => simp [h'] at h
    | ok s' =>
      simp only [h'] at h
      obtain ⟨hi, rfl⟩ := memWrite_eq_ok.1 h'
      obtain ⟨h1, h2, h3⟩ := ih h
      refine ⟨by rw [h1]; rfl, ?_, fun a => ?_⟩
      · intro j hj
        cases j with
        | zero => exact hi
        | succ j =>
          have := h2 j (by simpa using hj)
          rwa [show k + (j + 1) = k + 1 + j by omega]
      · have hs : b.address (k + 1) = b.address k + 1 := by unfold Bank.address; omega
        rw [h3, hs, setEntry_mem, List.length_cons]
        generalize b.address k = A
        by_cases ha : a = A
        · subst ha
          rw [if_neg (by omega), if_pos (by omega)]
          simp
        · rw [Memory.read_write_other _ _ ha]
          by_cases hr : A + 1 ≤ a ∧ a < A + 1 + vs.length
          · rw [if_pos hr, if_pos (by omega)]
            rw [show a - A = (a - (A + 1)) + 1 by omega]
            simp
          · rw [if_neg hr, if_neg (by omega)]

/-- Writing a stream to implemented entries answers. -/
theorem memWrites_total {vs : List S}
    (h : ∀ j, j < vs.length → b.implemented c (k + j) = true) :
    ∃ t, memWrites c b s k vs = .ok t := by
  induction vs generalizing s k with
  | nil => exact ⟨s, rfl⟩
  | cons v vs ih =>
    have h0 : b.implemented c k = true := by simpa using h 0 (by simp)
    obtain ⟨t, ht⟩ := ih (s := s.setEntry b k v) (k := k + 1) (fun j hj => by
      have := h (j + 1) (by simpa using hj)
      rwa [show k + (j + 1) = k + 1 + j by omega] at this)
    exact ⟨t, by simp [memWrites, memWrite_eq_ok.2 ⟨h0, rfl⟩, ht]⟩

theorem regRead_eq_ok {r : Option S} {n : Nat} {v : S} :
    regRead r n = .ok v ↔ r = some v := by
  cases r <;> simp [regRead]

theorem streamRead_eq_ok {l vs : List S} {n : Nat} :
    streamRead l n = .ok vs ↔ n ≤ l.length ∧ vs = l.take n := by
  unfold streamRead
  split
  · next h => simp [h, eq_comm]
  · next h => simp [h]

/-- A stream of exactly `n` elements is read whole. -/
theorem streamRead_whole {l : List S} {n : Nat} (h : l.length = n) : streamRead l n = .ok l :=
  streamRead_eq_ok.2 ⟨by omega, by rw [List.take_of_length_le (by omega)]⟩

/-! ## The configuration test and the needed set -/

theorem toNat_ne_zero_iff {w : Word} : w ≠ 0#32 ↔ 1 ≤ w.toNat := by
  rw [Ne, ← BitVec.toNat_inj]; simp; omega

/-- The tests all pass exactly when the configuration is legal. -/
theorem configTest_eq_none : configTest c s = .none ↔ Configured c s := by
  have h1 := toNat_ne_zero_iff (w := s.len)
  have h2 := toNat_ne_zero_iff (w := s.loPer)
  unfold configTest Configured
  rw [← h1, ← h2]
  split_ifs with g1 g2 g3 g4 g5 <;> simp only [false_iff, true_iff]
  · rcases g1 with g | g
    · simp [g]
    · intro h; omega
  · intro h; omega
  · intro h; omega
  · rcases g4 with g | g
    · simp [g]
    · intro h; omega
  · intro h; omega
  · rw [not_or] at g1 g4
    exact ⟨⟨g1.1, by omega⟩, by omega, by omega, ⟨g4.1, by omega⟩, by omega⟩

theorem holdsWf_iff {o : Option S} :
    holdsWf c o = true ↔ ∃ v, o = some v ∧ c.num.wf v = true := by
  cases o <;> simp [holdsWf]

theorem entriesWf_iff {ks : List Nat} :
    entriesWf c s b ks = true ↔ ∀ k ∈ ks, EntryWf c s b k := by
  simp [entriesWf, EntryWf, holdsWf_iff, List.all_eq_true]

/-- The Boolean that CHECK computes is the needed-set condition of 20 R48. -/
theorem neededWf_iff : neededWf c s = true ↔ Needed c s := by
  unfold neededWf Needed
  simp only [Bool.and_eq_true, entriesWf_iff, holdsWf_iff, List.mem_range, List.mem_range'_1, and_assoc]
  have e : ∀ (n : Nat) (P : Nat → Prop), (∀ k, 1 ≤ k ∧ k < 1 + n → P k) ↔ ∀ k, 1 ≤ k → k ≤ n → P k :=
    fun n P => ⟨fun h k h1 h2 => h k ⟨h1, by omega⟩, fun h k hk => h k hk.1 (by omega)⟩
  have e' : ∀ (n : Nat) (P : Nat → Prop), (∀ k, k < n + 1 → P k) ↔ ∀ k, k ≤ n → P k :=
    fun n P => ⟨fun h k h1 => h k (by omega), fun h k hk => h k (by omega)⟩
  rw [e, e, e', e']

/-- Entries that hold well-formed values can be read. -/
theorem holds_of_entryWf {ks : List Nat} (hi : ∀ k ∈ ks, b.implemented c k = true)
    (h : ∀ k ∈ ks, EntryWf c s b k) :
    ∃ vs, Holds c s b ks vs ∧ ∀ v ∈ vs, c.num.wf v = true := by
  induction ks with
  | nil => exact ⟨[], ⟨by simp, rfl⟩, by simp⟩
  | cons k ks ih =>
    obtain ⟨vs, hv, hw⟩ := ih (fun j hj => hi j (by simp [hj])) (fun j hj => h j (by simp [hj]))
    obtain ⟨v, he, hwv⟩ := h k (by simp)
    refine ⟨v :: vs, ⟨hi, by simp [he, hv.2]⟩, ?_⟩
    intro w hm
    rcases List.mem_cons.1 hm with rfl | hm
    · exact hwv
    · exact hw w hm

/-! ## What each stage operation answers -/

theorem check_eq_ok : check c s = .ok t ↔
    (configTest c s ≠ .none ∧ t = raiseError (configTest c s) s) ∨
    (configTest c s = .none ∧ neededWf c s = true ∧ t = { s with stage := .bpf }) := by
  unfold check
  by_cases h : configTest c s = .none <;> by_cases h' : neededWf c s = true <;>
    simp [h, h', eq_comm]

theorem readCoefficients_eq_ok {bB bA : Bank} {M : Nat} {bs as : List S} :
    readCoefficients c s bB bA M = .ok (bs, as) ↔
      Holds c s bB (List.range (M + 1)) bs ∧ Holds c s bA (List.range' 1 M) as := by
  rw [← memReads_eq_ok, ← memReads_eq_ok]
  unfold readCoefficients
  cases memReads c s bB (List.range (M + 1)) <;> cases memReads c s bA (List.range' 1 M) <;> simp

theorem bpf_eq_ok : bpf c s = .ok t ↔ ∃ bs as u,
    Holds c s .bpB (List.range (s.bpOrd.toNat + 1)) bs ∧
    Holds c s .bpA (List.range' 1 s.bpOrd.toNat) as ∧
    Holds c s .x (List.range s.len.toNat) u ∧
    t = { s with
      ybp := iir c.num bs as s.bpOrd.toNat u s.len.toNat
      bpDelay := delayAfter c.num s.bpOrd.toNat u (iir c.num bs as s.bpOrd.toNat u s.len.toNat) s.len.toNat
      stage := .mix } := by
  constructor
  · intro h
    unfold bpf at h
    split at h
    · cases h
    next bs as hc =>
      split at h
      · cases h
      next u hu =>
        obtain ⟨hb, ha⟩ := readCoefficients_eq_ok.1 hc
        exact ⟨bs, as, u, hb, ha, memReads_eq_ok.1 hu, (Except.ok.inj h).symm⟩
  · rintro ⟨bs, as, u, hb, ha, hu, rfl⟩
    simp only [bpf, readCoefficients_eq_ok.2 ⟨hb, ha⟩, memReads_eq_ok.2 hu]

theorem lpfI_eq_ok : lpfI c s = .ok t ↔ ∃ bs as,
    Holds c s .lpB (List.range (s.lpOrd.toNat + 1)) bs ∧
    Holds c s .lpA (List.range' 1 s.lpOrd.toNat) as ∧
    s.len.toNat ≤ s.i.length ∧
    t = { s with
      ib := iir c.num bs as s.lpOrd.toNat (s.i.take s.len.toNat) s.len.toNat
      lpiDelay := delayAfter c.num s.lpOrd.toNat (s.i.take s.len.toNat)
        (iir c.num bs as s.lpOrd.toNat (s.i.take s.len.toNat) s.len.toNat) s.len.toNat
      stage := .lpfQ } := by
  constructor
  · intro h
    unfold lpfI at h
    split at h
    · cases h
    next bs as hc =>
      split at h
      · cases h
      next u hu =>
        obtain ⟨hb, ha⟩ := readCoefficients_eq_ok.1 hc
        obtain ⟨hl, rfl⟩ := streamRead_eq_ok.1 hu
        exact ⟨bs, as, hb, ha, hl, (Except.ok.inj h).symm⟩
  · rintro ⟨bs, as, hb, ha, hl, rfl⟩
    simp only [lpfI, readCoefficients_eq_ok.2 ⟨hb, ha⟩, streamRead_eq_ok.2 ⟨hl, rfl⟩]

theorem lpfQ_eq_ok : lpfQ c s = .ok t ↔ ∃ bs as,
    Holds c s .lpB (List.range (s.lpOrd.toNat + 1)) bs ∧
    Holds c s .lpA (List.range' 1 s.lpOrd.toNat) as ∧
    s.len.toNat ≤ s.q.length ∧
    t = { s with
      qb := iir c.num bs as s.lpOrd.toNat (s.q.take s.len.toNat) s.len.toNat
      lpqDelay := delayAfter c.num s.lpOrd.toNat (s.q.take s.len.toNat)
        (iir c.num bs as s.lpOrd.toNat (s.q.take s.len.toNat) s.len.toNat) s.len.toNat
      stage := .form } := by
  constructor
  · intro h
    unfold lpfQ at h
    split at h
    · cases h
    next bs as hc =>
      split at h
      · cases h
      next u hu =>
        obtain ⟨hb, ha⟩ := readCoefficients_eq_ok.1 hc
        obtain ⟨hl, rfl⟩ := streamRead_eq_ok.1 hu
        exact ⟨bs, as, hb, ha, hl, (Except.ok.inj h).symm⟩
  · rintro ⟨bs, as, hb, ha, hl, rfl⟩
    simp only [lpfQ, readCoefficients_eq_ok.2 ⟨hb, ha⟩, streamRead_eq_ok.2 ⟨hl, rfl⟩]

theorem mix_eq_ok : mix c s = .ok t ↔ ∃ cosines sines,
    (s.loPer.toNat ≠ 0 ∨ s.len.toNat = 0) ∧ s.len.toNat ≤ s.ybp.length ∧
    Holds c s .loCos (phases s.loPer.toNat s.loStep.toNat s.len.toNat) cosines ∧
    Holds c s .loSin (phases s.loPer.toNat s.loStep.toNat s.len.toNat) sines ∧
    t = { s with
      i := mixStream c.num (s.ybp.take s.len.toNat) cosines
      q := mixStream c.num (s.ybp.take s.len.toNat) sines
      mixN := s.len.toNat
      mixK := phase s.loPer.toNat s.loStep.toNat s.len.toNat
      stage := .lpfI } := by
  constructor
  · intro h
    unfold mix at h
    dsimp only at h
    split at h
    · cases h
    next hp =>
      split at h
      · cases h
      next y hy =>
        split at h
        · cases h
        next cs hc =>
          split at h
          · cases h
          next ss hs =>
            obtain ⟨hl, rfl⟩ := streamRead_eq_ok.1 hy
            exact ⟨cs, ss, by tauto, hl, memReads_eq_ok.1 hc, memReads_eq_ok.1 hs,
              (Except.ok.inj h).symm⟩
  · rintro ⟨cs, ss, hp, hl, hc, hs, rfl⟩
    have hp' : ¬(s.loPer.toNat = 0 ∧ s.len.toNat ≠ 0) := by tauto
    simp only [mix, if_neg hp', memReads_eq_ok.2 hc, memReads_eq_ok.2 hs,
      streamRead_eq_ok.2 ⟨hl, rfl⟩]

/-- FORM stores the two streams in the output banks; of the state it changes nothing but the stage and
these entries. -/
theorem form_eq_ok (h : form c s = .ok t) :
    s.len.toNat ≤ s.ib.length ∧ s.len.toNat ≤ s.qb.length ∧
    (∀ n, n < s.len.toNat → n < c.maxLen) ∧
    t = { s with mem := t.mem, stage := .env } ∧
    ∀ a, t.mem.read a =
      if Bank.address .ybQ 0 ≤ a ∧ a < Bank.address .ybQ 0 + s.len.toNat then
        s.qb[a - Bank.address .ybQ 0]?
      else if Bank.address .ybI 0 ≤ a ∧ a < Bank.address .ybI 0 + s.len.toNat then
        s.ib[a - Bank.address .ybI 0]?
      else s.mem.read a := by
  unfold form at h
  split at h
  · cases h
  next re hre =>
    split at h
    · cases h
    next im him =>
      split at h
      · cases h
      next s₁ h₁ =>
        split at h
        · cases h
        next s₂ h₂ =>
          obtain ⟨hl1, rfl⟩ := streamRead_eq_ok.1 hre
          obtain ⟨hl2, rfl⟩ := streamRead_eq_ok.1 him
          obtain rfl := Except.ok.inj h
          obtain ⟨e₁, i₁, r₁⟩ := memWrites_eq_ok h₁
          obtain ⟨e₂, -, r₂⟩ := memWrites_eq_ok h₂
          refine ⟨hl1, hl2, ?_, ?_, ?_⟩
          · intro n hn
            have := i₁ n (by simp; omega)
            simpa [Bank.implemented] using this
          · rw [e₂, e₁]
          · intro a
            rw [show ({ s₂ with stage := Stage.env } : Block S).mem = s₂.mem from rfl, r₂, r₁]
            rw [List.length_take, List.length_take, Nat.min_eq_left hl1, Nat.min_eq_left hl2]
            generalize Bank.address .ybI 0 = A
            generalize Bank.address .ybQ 0 = B
            split
            · rw [List.getElem?_take_of_lt (by omega)]
            · split
              · rw [List.getElem?_take_of_lt (by omega)]
              · rfl

/-- FORM answers when both streams have LEN elements and the record fits the banks. -/
theorem form_total (h1 : s.len.toNat ≤ s.ib.length) (h2 : s.len.toNat ≤ s.qb.length)
    (h3 : s.len.toNat ≤ c.maxLen) : ∃ t, form c s = .ok t := by
  obtain ⟨s₁, hs₁⟩ := memWrites_total (c := c) (s := s) (b := .ybI) (k := 0)
    (vs := s.ib.take s.len.toNat) (by
      intro j hj; rw [List.length_take] at hj; simp [Bank.implemented]; omega)
  obtain ⟨s₂, hs₂⟩ := memWrites_total (c := c) (s := s₁) (b := .ybQ) (k := 0)
    (vs := s.qb.take s.len.toNat) (by
      intro j hj; rw [List.length_take] at hj; simp [Bank.implemented]; omega)
  refine ⟨{ s₂ with stage := .env }, ?_⟩
  simp only [form, streamRead_eq_ok.2 ⟨h1, rfl⟩, streamRead_eq_ok.2 ⟨h2, rfl⟩, hs₁, hs₂]

theorem env_eq_ok : env c s = .ok t ↔
    s.len.toNat ≤ s.ib.length ∧ s.len.toNat ≤ s.qb.length ∧
    t = { s with
      m := envelope c.num (s.ib.take s.len.toNat) (s.qb.take s.len.toNat), stage := .stat } := by
  constructor
  · intro h
    unfold env at h
    split at h
    · cases h
    next re hre =>
      split at h
      · cases h
      next im him =>
        obtain ⟨hl1, rfl⟩ := streamRead_eq_ok.1 hre
        obtain ⟨hl2, rfl⟩ := streamRead_eq_ok.1 him
        exact ⟨hl1, hl2, (Except.ok.inj h).symm⟩
  · rintro ⟨h1, h2, rfl⟩
    simp only [env, streamRead_eq_ok.2 ⟨h1, rfl⟩, streamRead_eq_ok.2 ⟨h2, rfl⟩]

theorem stat_eq_ok : stat c s = .ok t ↔ ∃ first rest,
    s.len.toNat ≤ s.m.length ∧ s.m.take s.len.toNat = first :: rest ∧
    t = { s with
      peak := some (peakOf c.num first rest)
      median := some (med c.num (first :: rest))
      statMax := some (peakOf c.num first rest)
      statOrder := ascending c.num (first :: rest)
      stage := .gate } := by
  constructor
  · intro h
    unfold stat at h
    split at h
    · cases h
    · cases h
    next first rest hm =>
      obtain ⟨hl, e⟩ := streamRead_eq_ok.1 hm
      exact ⟨first, rest, hl, e.symm, (Except.ok.inj h).symm⟩
  · rintro ⟨first, rest, hl, e, rfl⟩
    simp only [stat, streamRead_eq_ok.2 ⟨hl, e.symm⟩]

theorem gate_eq_ok : gate c s = .ok t ↔ ∃ peak thr,
    s.peak = some peak ∧ s.thr = some thr ∧
    t = { s with
      result := gateResult (c.num.lt peak thr)
      outLen := gateOutLen (c.num.lt peak thr) s.len
      stage := .done } := by
  constructor
  · intro h
    unfold gate at h
    split at h
    · cases h
    next p hp =>
      split at h
      · cases h
      next r hr => exact ⟨p, r, regRead_eq_ok.1 hp, regRead_eq_ok.1 hr, (Except.ok.inj h).symm⟩
  · rintro ⟨p, r, hp, hr, rfl⟩
    simp only [gate, regRead_eq_ok.2 hp, regRead_eq_ok.2 hr]

/-! ## What the port answers -/

/-- A write of a fitting payload answers: the location's effect where 20 R46 accepts it, ERR and no
change elsewhere. -/
theorem hostWrite_eq {bank : BankNo} {index : Index} {p : Payload S} (hp : p.fits bank = true) :
    hostWrite c bank index p s = .ok
      (if writable s.stage (resolve c bank index) = true then writeLoc p s (resolve c bank index)
      else (s, .err)) := by
  simp only [hostWrite, hp, if_true]
  split <;> rfl

/-- What a name resolves to an entry of a numeric bank. -/
theorem entryLoc_eq_entry {b b' : Bank} {n k : Nat} :
    entryLoc c b n = .entry b' k ↔ b = b' ∧ n = k ∧ b.implemented c n = true := by
  unfold entryLoc
  split
  · next h => simp [h]
  · next h => simp [h]

end Sys2Proof.Machine
end

