-- ==== Sys2Proof/Laws/PerInstr.lean ====
section
/-!
SUPPORT. Per-instruction laws: the format each operation is encoded in (30_encoding.md R62, R63, R72).
-/

namespace Sys2Proof.Laws

/-- A stage operation is encoded as one of the stage codes 1 to 9 (30 R65), every other operation as a
transaction, whose payload is present exactly when its bit `we` is 1 (30 R72). -/
def EncodingFormat.Statement (i : Instr) : Prop :=
  match encode i with
  | .stage code => Machine.isStageOp i = true ∧ 1 ≤ code.toNat ∧ code.toNat ≤ 9
  | .host h payload =>
    Machine.isStageOp i = false ∧ (headerWe h = 1#1 ↔ payload.isSome = true)

theorem EncodingFormat.run : EncodingFormat.Statement .run := by
  simp [EncodingFormat.Statement, encode, encodeCommand, Machine.isStageOp]

theorem EncodingFormat.clear : EncodingFormat.Statement .clear := by
  simp [EncodingFormat.Statement, encode, encodeCommand, Machine.isStageOp]

theorem EncodingFormat.sreset : EncodingFormat.Statement .sreset := by
  simp [EncodingFormat.Statement, encode, encodeCommand, Machine.isStageOp]

theorem EncodingFormat.check : EncodingFormat.Statement .check := by
  simp [EncodingFormat.Statement, encode, Machine.isStageOp]

theorem EncodingFormat.bpf : EncodingFormat.Statement .bpf := by
  simp [EncodingFormat.Statement, encode, Machine.isStageOp]

theorem EncodingFormat.mix : EncodingFormat.Statement .mix := by
  simp [EncodingFormat.Statement, encode, Machine.isStageOp]

theorem EncodingFormat.lpfI : EncodingFormat.Statement .lpfI := by
  simp [EncodingFormat.Statement, encode, Machine.isStageOp]

theorem EncodingFormat.lpfQ : EncodingFormat.Statement .lpfQ := by
  simp [EncodingFormat.Statement, encode, Machine.isStageOp]

theorem EncodingFormat.form : EncodingFormat.Statement .form := by
  simp [EncodingFormat.Statement, encode, Machine.isStageOp]

theorem EncodingFormat.env : EncodingFormat.Statement .env := by
  simp [EncodingFormat.Statement, encode, Machine.isStageOp]

theorem EncodingFormat.stat : EncodingFormat.Statement .stat := by
  simp [EncodingFormat.Statement, encode, Machine.isStageOp]

theorem EncodingFormat.gate : EncodingFormat.Statement .gate := by
  simp [EncodingFormat.Statement, encode, Machine.isStageOp]

theorem EncodingFormat.wr (bank : BankNo) (index : Index) (payload : Payload Sample) :
    EncodingFormat.Statement (.wr bank index payload) := by
  simp [EncodingFormat.Statement, encode, Machine.isStageOp]

theorem EncodingFormat.rd (bank : BankNo) (index : Index) :
    EncodingFormat.Statement (.rd bank index) := by
  simp [EncodingFormat.Statement, encode, Machine.isStageOp]

end Sys2Proof.Laws
end

