-- ==== Sys2Proof/Laws/Port.lean ====
section
/-!
SUPPORT. The address map and the port: what an address resolves to, and what a host transaction answers.
Proofs about WR and RD cite these and unfold neither the map nor the access rights.
-/

namespace Sys2Proof.Machine

variable {S : Type} {c : Config S} {s : State} {bank : BankNo} {index : Index}

/-! ## The address map -/

theorem ctrlLoc_eq_unimplemented {n : Nat} : ctrlLoc n = .unimplemented ↔ 9 ≤ n := by
  by_cases h : 9 ≤ n
  · refine ⟨fun _ => h, fun _ => ?_⟩
    unfold ctrlLoc
    split <;> first | omega | rfl
  · interval_cases n <;> simp [ctrlLoc]

theorem nregLoc_eq_unimplemented {n : Nat} : nregLoc n = .unimplemented ↔ 3 ≤ n := by
  by_cases h : 3 ≤ n
  · refine ⟨fun _ => h, fun _ => ?_⟩
    unfold nregLoc
    split <;> first | omega | rfl
  · interval_cases n <;> simp [nregLoc]

theorem entryLoc_eq_unimplemented {b : Bank} {n : Nat} :
    entryLoc c b n = .unimplemented ↔ b.implemented c n = false := by
  unfold entryLoc
  split <;> simp_all

theorem resolve_ctrl (h : bank.toNat = 0x00) : resolve c bank index = ctrlLoc index.toNat := by
  simp [resolve, h]

theorem resolve_nreg (h : bank.toNat = 0x01) : resolve c bank index = nregLoc index.toNat := by
  simp [resolve, h]

/-- A bank number of a numeric bank resolves by that bank's implemented indexes. -/
theorem resolve_bank (b : Bank) (h : bank.toNat = b.number) :
    resolve c bank index = entryLoc c b index.toNat := by
  cases b <;> simp only [Bank.number] at h <;> simp [resolve, h]

theorem resolve_high (h : 0x0B ≤ bank.toNat) : resolve c bank index = .unimplemented := by
  unfold resolve
  split <;> first | omega | rfl

/-- The numeric banks are the bank numbers 0x02 to 0x0A. -/
theorem exists_bank (h : 2 ≤ bank.toNat) (h' : bank.toNat ≤ 0x0A) :
    ∃ b : Bank, bank.toNat = b.number ∧ b.isOutput = decide (9 ≤ bank.toNat) := by
  generalize bank.toNat = n at *
  interval_cases n
  · exact ⟨.bpB, rfl, rfl⟩
  · exact ⟨.bpA, rfl, rfl⟩
  · exact ⟨.lpB, rfl, rfl⟩
  · exact ⟨.lpA, rfl, rfl⟩
  · exact ⟨.loCos, rfl, rfl⟩
  · exact ⟨.loSin, rfl, rfl⟩
  · exact ⟨.x, rfl, rfl⟩
  · exact ⟨.ybI, rfl, rfl⟩
  · exact ⟨.ybQ, rfl, rfl⟩

theorem number_injective {b b' : Bank} (h : b.number = b'.number) : b = b' := by
  cases b <;> cases b' <;> first | rfl | simp [Bank.number] at h

/-- An address names nothing exactly when 20 R41 leaves it unimplemented. -/
theorem resolve_eq_unimplemented :
    resolve c bank index = .unimplemented ↔ Unimplemented c bank index := by
  by_cases h0 : bank.toNat = 0
  · rw [resolve_ctrl h0, ctrlLoc_eq_unimplemented]; unfold Unimplemented; omega
  by_cases h1 : bank.toNat = 1
  · rw [resolve_nreg h1, nregLoc_eq_unimplemented]; unfold Unimplemented; omega
  by_cases h11 : 0x0B ≤ bank.toNat
  · simp [resolve_high h11, Unimplemented, h11]
  · obtain ⟨b, h, -⟩ := exists_bank (bank := bank) (by omega) (by omega)
    rw [resolve_bank b h, entryLoc_eq_unimplemented]
    unfold Unimplemented
    cases b <;> simp [Bank.number] at h <;> simp [h, Bank.implemented] <;> omega

/-- An implemented address of a numeric bank resolves to that bank's entry. -/
theorem resolve_entry (h2 : 2 ≤ bank.toNat) (hA : bank.toNat ≤ 0x0A)
    (hu : ¬ Unimplemented c bank index) :
    ∃ b : Bank, resolve c bank index = .entry b index.toNat ∧ bank.toNat = b.number ∧
      b.implemented c index.toNat = true ∧ b.isOutput = decide (9 ≤ bank.toNat) := by
  obtain ⟨b, h, ho⟩ := exists_bank h2 hA
  rw [← resolve_eq_unimplemented, resolve_bank b h, entryLoc_eq_unimplemented] at hu
  exact ⟨b, by rw [resolve_bank b h, entryLoc, if_pos (by simpa using hu)], h, by simpa using hu, ho⟩

/-- The flat address of an entry, its bank number times `2^24` plus its index (30 R60). -/
theorem address_eq (b : Bank) (k : Nat) : b.address k = b.number * 2 ^ 24 + k := by
  unfold Bank.address; omega

/-- The flat address of an entry, as 30 R60 writes it. -/
theorem address_of_bank {b : Bank} (k : Nat) (h : bank.toNat = b.number) :
    b.address k = bank.toNat * 2 ^ 24 + k := by
  rw [address_eq, h]

/-! ## What the transactions answer -/

/-- WR of a fitting payload: the location's effect where 20 R46 accepts it, ERR and no change elsewhere. -/
theorem exec_wr {p : Payload Sample} (hp : p.fits bank = true) :
    exec (.wr bank index p) s = .next (.mk (s.transact
      (if writable s.stage (resolve Config.machine bank index) = true then
        writeLoc p s.toBlock (resolve Config.machine bank index)
      else (s.toBlock, .err)))) := by
  show outcomeOf ((hostWrite _ _ _ _ _).map _) = _
  rw [hostWrite_eq hp]
  rfl

/-- RD: the location's answer where 20 R46 accepts it, ERR and no change elsewhere. -/
theorem exec_rd :
    exec (.rd bank index) s = .next (.mk (answerRead Config.draw s.toSystem
      (if readable s.stage s.outLen (resolve Config.machine bank index) = true then
        readLoc s.toBlock (resolve Config.machine bank index)
      else .err))) := rfl

theorem exec_wr_err {p : Payload Sample} (hp : p.fits bank = true)
    (h : writable s.stage (resolve Config.machine bank index) = false) :
    exec (.wr bank index p) s = .next { s with response := some .err } := by
  rw [exec_wr hp, h]; rfl

theorem exec_rd_err (h : readable s.stage s.outLen (resolve Config.machine bank index) = false) :
    exec (.rd bank index) s = .next { s with response := some .err } := by
  rw [exec_rd, h]; rfl

/-- A payload for bank 0x00 is a control word. -/
theorem fits_ctrl {p : Payload S} (hp : p.fits bank = true) (h : bank.toNat = 0) :
    ∃ w, p = .word w := by
  cases p with
  | word w => exact ⟨w, rfl⟩
  | value v =>
    simp [Payload.fits] at hp
    exact absurd (BitVec.eq_of_toNat_eq (by simpa using h)) hp

/-- A write to CMD is ERR while BUSY and the command, or ERR, of its word elsewhere. -/
theorem exec_wr_cmd (w : Word) :
    exec (.wr 0#8 0#24 (.word w)) s = .next (.mk (s.transact
      (if s.stage.busy then (s.toBlock, .err) else commandWrite w s.toBlock))) := by
  rw [exec_wr rfl, resolve_ctrl rfl]
  show Host.Outcome.next (State.mk (s.transact (if (!s.stage.busy) = true then _ else _))) = _
  cases s.stage.busy <;> rfl

/-- The write of a fitting payload, over any type of values. -/
theorem perform_write {p : Payload S} {draw : Nat → S} {y : System S} (hp : p.fits bank = true) :
    y.perform c draw (.write bank index p) = .ok (y.transact
      (if writable y.stage (resolve c bank index) = true then
        writeLoc p y.toBlock (resolve c bank index)
      else (y.toBlock, .err))) := by
  show (hostWrite _ _ _ _ _).map _ = _
  rw [hostWrite_eq hp]
  rfl

/-- The operation that a transaction is has the effect of the transaction. -/
theorem exec_instr (t : Transaction Sample) :
    exec t.instr s = outcomeOf (s.perform Config.machine Config.draw t) := by
  rcases t with ⟨b, i, w | v⟩ | ⟨b, i⟩
  · by_cases hc : b = 0#8 ∧ i = 0#24
    · obtain ⟨rfl, rfl⟩ := hc
      refine Eq.trans ?_ (exec_wr_cmd w).symm
      show exec ((decodeCommand w).getD _) s = _
      rcases s with ⟨⟨⟨st⟩⟩⟩
      by_cases h1 : w = 1#32
      · subst h1; cases st <;> rfl
      by_cases h2 : w = 2#32
      · subst h2; cases st <;> rfl
      by_cases h3 : w = 3#32
      · subst h3; cases st <;> rfl
      rw [decodeCommand_eq, if_neg h1, if_neg h2, if_neg h3]
      exact exec_wr_cmd w
    · simp only [Transaction.instr, hc, if_false]; rfl
  · rfl
  · rfl

/-- A numeric read answers the held value, or a draw, and changes nothing else. -/
theorem answerRead_numeric (draw : Nat → S) (y : System S) (o : Option S) :
    answerRead draw y (.numeric o) = match o with
      | some v => { y with response := some (.okValue v) }
      | none => { y with response := some (.okValue (draw y.draws)), draws := y.draws + 1 } := by
  cases o <;> rfl

/-- A BUSY stage is neither IDLE nor DONE nor ERROR. -/
theorem busy_ne {st : Stage} (h : st.busy = true) : st ≠ .idle ∧ st ≠ .done ∧ st ≠ .error := by
  refine ⟨?_, ?_, ?_⟩ <;> rintro rfl <;> cases h

end Sys2Proof.Machine
end

