-- ==== Sys2Proof/Laws/Reference.lean ====
section
/-!
SUPPORT. The integer square root of the rational instance: what it answers, for every number.
-/

namespace Sys2Proof

/-- With the root known to `2 ^ b`, the remaining bits pin it down. -/
theorem sqrtBits_spec (n b r : Nat) (h1 : r * r ≤ n) (h2 : n < (r + 2 ^ b) * (r + 2 ^ b)) :
    sqrtBits n b r * sqrtBits n b r ≤ n ∧ n < (sqrtBits n b r + 1) * (sqrtBits n b r + 1) := by
  induction b generalizing r with
  | zero => exact ⟨h1, by simpa [sqrtBits] using h2⟩
  | succ b ih =>
    rw [sqrtBits]
    have e : r + 2 ^ (b + 1) = r + 2 ^ b + 2 ^ b := by rw [pow_succ]; omega
    split
    · next h => exact ih _ h (by rwa [e] at h2)
    · next h => exact ih _ h1 (by omega)

/-- `natSqrt n` is the greatest number whose square is at most `n`. -/
theorem natSqrt_spec (n : Nat) :
    natSqrt n * natSqrt n ≤ n ∧ n < (natSqrt n + 1) * (natSqrt n + 1) := by
  refine sqrtBits_spec n _ 0 (by simp) ?_
  have h : n < 2 ^ (n.log2 + 1) := Nat.lt_log2_self
  have h' : 2 ^ (n.log2 + 1) ≤ 2 ^ (n.log2 / 2 + 1 + (n.log2 / 2 + 1)) :=
    Nat.pow_le_pow_right (by omega) (by omega)
  rw [Nat.zero_add, ← pow_add]
  omega

/-- The root of a square. -/
@[simp] theorem natSqrt_square (m : Nat) : natSqrt (m * m) = m := by
  obtain ⟨h1, h2⟩ := natSqrt_spec (m * m)
  have := Nat.mul_self_le_mul_self_iff.1 h1
  have := Nat.mul_self_lt_mul_self_iff.1 h2
  omega

end Sys2Proof
end

