-- ==== Sys2Proof/Tests/Slice0.lean ====
section
/-!
SUPPORT. The model's own tests: words written out from the encodings of 30_encoding.md, the vectors of
95_test_vectors.md on the reference instance, and for every statement with hypotheses a state and
operands that meet them.
-/

namespace Sys2Proof.Tests

open Sys2Proof.Machine

/-! ## Well-formedness: an ill-formed term for each check -/

/-- 20 R45: a value in a write to bank 0x00. -/
theorem test_value_to_control_bank_is_ill_formed :
    (Instr.wr 0x00#8 3#24 (.value 1)).wellFormed = false := by decide

/-- 20 R45: a control word in a write to a numeric bank. -/
theorem test_word_to_numeric_bank_is_ill_formed :
    (Instr.wr 0x08#8 3#24 (.word 1#32)).wellFormed = false := by decide

/-- 30 R71: RUN spelled as a plain write. -/
theorem test_command_as_plain_write_is_ill_formed :
    (Instr.wr 0x00#8 0#24 (.word 1#32)).wellFormed = false := by decide

/-! ## Decoding: words written out from the spec -/

/-- 30 R66: CMD words. -/
theorem test_decode_commands :
    decode (.host 0x100000000#33 (some (.word 0x00000001#32))) = .ok .run ∧
    decode (.host 0x100000000#33 (some (.word 0x00000002#32))) = .ok .clear ∧
    decode (.host 0x100000000#33 (some (.word 0x00000003#32))) = .ok .sreset := ⟨rfl, rfl, rfl⟩

/-- 30 R65: stage codes. -/
theorem test_decode_stages :
    decode (.stage 0b0001#4) = .ok .check ∧ decode (.stage 0b0010#4) = .ok .bpf ∧
    decode (.stage 0b0011#4) = .ok .mix ∧ decode (.stage 0b0100#4) = .ok .lpfI ∧
    decode (.stage 0b0101#4) = .ok .lpfQ ∧ decode (.stage 0b0110#4) = .ok .form ∧
    decode (.stage 0b0111#4) = .ok .env ∧ decode (.stage 0b1000#4) = .ok .stat ∧
    decode (.stage 0b1001#4) = .ok .gate := ⟨rfl, rfl, rfl, rfl, rfl, rfl, rfl, rfl, rfl⟩

/-- 44 R138: `WR X[5], 3/4` is (1, 0x08000005, 3/4). -/
theorem test_decode_wr :
    decode (.host 0b100001000000000000000000000000101#33 (some (.value (3 / 4))))
      = .ok (.wr 0x08#8 5#24 (.value (3 / 4))) := rfl

/-- 95 Program 1 line 49: `RD YB_Q[8]` is (0, 0x0A000008). -/
theorem test_decode_rd :
    decode (.host 0b000001010000000000000000000001000#33 none) = .ok (.rd 0x0A#8 8#24) := rfl

/-- 30 R67 b: a reserved stage code; 30 R65: a resting one. -/
theorem test_decode_rejects_stage_codes :
    decode (.stage 11#4) = .error (.reservedStage 11#4) ∧
    decode (.stage 10#4) = .error (.restingStage 10#4) := ⟨rfl, rfl⟩

/-- 30 R72: forms the port has no transaction for. -/
theorem test_decode_rejects_transactions :
    decode (.host 0x108000005#33 none) = .error .writeWithoutPayload ∧
    decode (.host 0x008000005#33 (some (.value 1))) = .error .readWithPayload ∧
    decode (.host 0x108000005#33 (some (.word 1#32))) = .error .payloadKind ∧
    decode (.host 0x100000003#33 (some (.value 1))) = .error .payloadKind := ⟨rfl, rfl, rfl, rfl⟩

/-- CMD-7 and CMD-8 of 95 B5: illegal CMD words. -/
theorem test_illegal_command_words :
    decodeTableWord 32 0x00000101 = none ∧ decodeTableWord 32 0x00000004 = none ∧
    decodeTableWord 32 0x00000000 = none := ⟨rfl, rfl, rfl⟩

/-! ## The datapath on the reference instance (95 part B) -/

/-- IIR-1: impulse response, feedback sign. -/
theorem test_iir_1 :
    iir Num.rational [1/2, 1/2] [-1/2] 1 [1, 0, 0, 0, 0] 5 = [1/2, 3/4, 3/8, 3/16, 3/32] := by
  decide +kernel

/-- IIR-3: order 2. -/
theorem test_iir_3 :
    iir Num.rational [1, 2, 1] [-1, 1/4] 2 [1, 0, 0, 0, 0, 0] 6 = [1, 3, 15/4, 3, 33/16, 21/16] := by
  decide +kernel

/-- IIR-4: order 0. -/
theorem test_iir_4 : iir Num.rational [3] [] 0 [1, -2, 1/2] 3 = [3, -6, 3/2] := by decide +kernel

/-- IIR-8: resonator. -/
theorem test_iir_8 :
    iir Num.rational [1, 0, -1] [0, 1/4] 2 [1, 0, -1, 0, 1, 0, -1, 0] 8
      = [1, 0, -9/4, 0, 41/16, 0, -169/64, 0] := by decide +kernel

/-- MIX-3: phase indexes with step 3. -/
theorem test_mix_3 :
    phases 4 3 5 = [0, 3, 2, 1, 0] ∧
    mixStream Num.rational [1, 1, 1, 1, 1] [1, 0, -1, 0, 1] = [2, 0, -2, 0, 2] ∧
    mixStream Num.rational [1, 1, 1, 1, 1] [0, -1, 0, 1, 0] = [0, -2, 0, 2, 0] := by decide +kernel

/-- ENV of 95 B3. -/
theorem test_env :
    envelope Num.rational [3, -3, 0, 5, -8, 3/2, 7] [4, 4, 0, -12, -15, 2, 0]
      = [5, 5, 0, 13, 17, 5/2, 7] := by decide +kernel

/-- 00 R9 off the rational squares: 1/4 + 1/4 is 1/2, whose root is rounded down to a half. -/
theorem test_mag_rounds_down : ratMag (1/2) (1/2) = 1/2 := by decide +kernel

/-- STAT-6: unsorted input, peak in the middle. -/
theorem test_stat_6 :
    peakOf Num.rational 0 [1/2, 3/4, 7/8, 15/16, 15/32, 15/64, 15/128] = 15/16 ∧
    med Num.rational [0, 1/2, 3/4, 7/8, 15/16, 15/32, 15/64, 15/128] = 31/64 := by decide +kernel

/-- STAT-1: odd count. -/
theorem test_stat_1 : med Num.rational [3, 5, 4] = 4 := by decide +kernel

/-! ## CHECK on the test parameters (95 B4) -/

/-- A state with the five configuration registers set. -/
def configuration (len bpOrd lpOrd loPer loStep : Word) : Block Sample :=
  { Block.reset with
    stage := .check, len := len, bpOrd := bpOrd, lpOrd := lpOrd, loPer := loPer, loStep := loStep }

/-- CHK-1 to CHK-9. -/
theorem test_check_codes :
    configTest Config.reference (configuration 8 0 1 4 1) = .none ∧
    configTest Config.reference (configuration 0 0 1 4 1) = .badLen ∧
    configTest Config.reference (configuration 17 0 1 4 1) = .badLen ∧
    configTest Config.reference (configuration 16 4 4 8 7) = .none ∧
    configTest Config.reference (configuration 8 5 1 4 1) = .badBpOrd ∧
    configTest Config.reference (configuration 8 0 5 4 1) = .badLpOrd ∧
    configTest Config.reference (configuration 8 0 1 0 0) = .badLoPer ∧
    configTest Config.reference (configuration 8 0 1 9 1) = .badLoPer ∧
    configTest Config.reference (configuration 8 0 1 4 4) = .badLoStep := by decide

/-- CHK-10, CHK-11, CHK-13: the first failing test wins; registers hold any 32-bit value. -/
theorem test_check_priority :
    configTest Config.reference (configuration 0 9 9 0 7) = .badLen ∧
    configTest Config.reference (configuration 8 9 9 0 7) = .badBpOrd ∧
    configTest Config.reference (configuration 0xFFFFFFFF 0 0 1 0) = .badLen := by decide

/-! ## The port on the test parameters (95 B5) -/

/-- The response a host meaning leaves. -/
def responseOf (x : Except Stop (Block Sample × Response Sample)) : Option (Response Sample) :=
  x.toOption.map (·.2)

/-- ACC-1: `WR X[15], 1/3` in IDLE. -/
theorem test_acc_1 :
    (hostWrite Config.reference 0x08#8 15#24 (.value (1/3)) Block.reset).toOption.bind
      (fun t => t.1.entry .x 15) = some (1/3) := by decide +kernel

/-- ACC-2, ACC-3, ACC-5, ACC-6: unimplemented indexes. -/
theorem test_acc_unimplemented :
    responseOf (hostWrite Config.reference 0x08#8 16#24 (.value (1/3)) Block.reset) = some .err ∧
    responseOf (hostWrite Config.reference 0x03#8 0#24 (.value 1) Block.reset) = some .err ∧
    responseOf (hostWrite Config.reference 0x02#8 5#24 (.value (1/8)) Block.reset) = some .err ∧
    responseOf (hostWrite Config.reference 0x06#8 8#24 (.value 1) Block.reset) = some .err := by
  decide +kernel

/-- ACC-12, ACC-13: reads in MIX. -/
theorem test_acc_busy_reads :
    (hostRead Config.reference 0x01#8 0#24 { Block.reset with stage := .mix }) = .err ∧
    (hostRead Config.reference 0x00#8 1#24 { Block.reset with stage := .mix })
      = .word 0x00000003#32 := by decide +kernel

/-- ACC-14, ACC-15: an output entry below and at OUT_LEN. -/
theorem test_acc_output_entries :
    (hostRead Config.reference 0x0A#8 7#24
      { Block.reset with stage := .done, outLen := 8, mem := [(0x0A000007, 15/128)] })
      = .numeric (some (15/128)) ∧
    (hostRead Config.reference 0x0A#8 8#24
      { Block.reset with stage := .done, outLen := 8, mem := [(0x0A000007, 15/128)] })
      = .err := by decide +kernel

/-- ACC-20: no range check at the write. -/
theorem test_acc_20 :
    (hostWrite Config.reference 0x00#8 3#24 (.word 0xFFFFFFFF#32) Block.reset).toOption.map (·.1.len)
      = some 0xFFFFFFFF#32 := by decide +kernel

/-! ## One step of the machine -/

/-- The stage after a step that answers. -/
def stageAfter (o : Host.Outcome State Fault Refusal) : Option Stage :=
  match o with
  | .next t => some t.stage
  | .fault _ => none
  | .refused _ => none

/-- CMD-1: RUN from reset. -/
theorem test_step_run : stageAfter (step (State.reset.withFetchWord 32 0x00000001)) = some .check := by
  decide +kernel

/-- 44 R132: CHECK right after reset finds LEN = 0. -/
theorem test_step_check : stageAfter (step (State.reset.withFetchWord 4 1)) = some .error := by
  decide +kernel

/-- 60 R165: with nothing to come the sequencer does nothing in IDLE. -/
theorem test_step_idle : step State.reset = .next State.reset := rfl

/-- 42 R114: `ib` = [3, 3, 0] and `qb` = [0, 4, 4] give 3+0j, 3+4j, 0+4j. -/
theorem test_form :
    (form Config.reference { Block.reset with len := 3, ib := [3, 3, 0], qb := [0, 4, 4] }).toOption.map
        (fun t => ([0, 1, 2, 3].map (t.entry .ybI), [0, 1, 2, 3].map (t.entry .ybQ)))
      = some ([some 3, some 3, some 0, none], [some 0, some 4, some 4, none]) := by decide +kernel

/-- 43 R124: PEAK = 5 with THR = 5, and with THR = 5001/1000. -/
theorem test_gate :
    (gate Config.reference { Block.reset with len := 7, peak := some 5, thr := some 5 }).toOption.map
        (fun t => (t.result, t.outLen, t.stage)) = some (.signalPresent, 7#32, .done) ∧
    (gate Config.reference { Block.reset with len := 7, peak := some 5, thr := some (5001/1000) }).toOption.map
        (fun t => (t.result, t.outLen, t.stage)) = some (.noSignal, 0#32, .done) := by decide +kernel

/-- 43 R121: `m` = [3, 5, 4] gives PEAK = 5, MEDIAN = 4. -/
theorem test_stat :
    (stat Config.reference { Block.reset with len := 3, m := [3, 5, 4] }).toOption.map
        (fun t => (t.peak, t.median)) = some (some 5, some 4) := by decide +kernel

/-- 44 R133: in DONE, CLEAR, then STATUS reads 0, LEN reads 0 and BP_ORD its old value, and the record is
gone. -/
theorem test_clear :
    let t := clearCommand { Block.reset with
      stage := .done, result := .noSignal, len := 8, bpOrd := 3, mem := [(0x08000000, 1)] }
    t.2 = .ok ∧ statusWord t.1 = 0#32 ∧ t.1.len = 0#32 ∧ t.1.bpOrd = 3#32 ∧ t.1.entry .x 0 = none := by
  decide +kernel

/-! ## The designer (95 B6) -/

/-- DES-1 to DES-6. -/
theorem test_design_bandpass :
    edgesValid (.bandpass (11/120) (23/240) (5/48) (13/120)) = true ∧
    edgesValid (.bandpass (23/240) (11/120) (5/48) (13/120)) = false ∧
    edgesValid (.bandpass (11/120) (11/120) (5/48) (13/120)) = false ∧
    edgesValid (.bandpass (11/120) (5/48) (23/240) (13/120)) = false ∧
    edgesValid (.bandpass 0 (23/240) (5/48) (13/120)) = false ∧
    edgesValid (.bandpass (11/120) (23/240) (5/48) 1) = false := by decide +kernel

/-- DES-7 to DES-10. -/
theorem test_design_lowpass :
    edgesValid (.lowpass (1/120) (1/5)) = true ∧ edgesValid (.lowpass (1/5) (1/120)) = false ∧
    edgesValid (.lowpass (1/5) (1/5)) = false ∧ edgesValid (.lowpass (1/120) (6/5)) = false := by
  decide +kernel

/-- A6: 1725 Hz at 36000 Hz is 23/240 of Nyquist. -/
theorem test_normalised_edge : normalisedEdge 1725 36000 = 23/240 := by decide +kernel

/-- 40 R88: the filter that answers 0 to everything has no gain in decibels in a passband. -/
theorem test_zero_filter_meets_nothing (rp rs : Rat) (family : FilterFamily) :
    ¬ MeetsSpec ⟨.lowpass (1/120) (1/5), rp, rs, family⟩ ⟨[], [1]⟩ := by
  intro h
  obtain ⟨g, hg, num, den, hn, -, hd, e⟩ := h.1 0 ⟨le_refl _, by norm_num⟩
  have : num = 0 := by simpa [PolynomialHasValue] using hn
  rw [this, norm_zero, zero_eq_mul] at e
  rcases e with e | e
  · exact hg.ne' e
  · exact hd (norm_eq_zero.1 e)

/-- 40 R85: a set of order 0 with three feed-forward terms is not of the form. -/
theorem test_form_of_a_set : ¬ HasForm ⟨[1, 2, 1], [1]⟩ ∧ HasForm ⟨[1, 2, 1], [1, -1, 1/4]⟩ := by
  simp [HasForm, filterOrder]

/-- What the banks of a pair hold, entries 0 to 2, after a set is loaded on the reference parameters. -/
def loaded (ws : Option (List (Transaction Sample))) (bankB bankA : Bank) :
    Option (List (Option Sample) × List (Option Sample)) :=
  ws.bind (fun l => ((System.performAll Config.reference (fun _ => 0) l System.reset).toOption.map
    (fun t => ([0, 1, 2].map (t.entry bankB), [0, 1, 2].map (t.entry bankA)))))

/-- 40 R89: the bank gets the set's own terms when its leading term is 1 (the set of IIR-3), and `a[0]` is
written nowhere. -/
theorem test_load_a_set_as_it_stands :
    loaded (loadBandpass Config.reference (· / ·) ⟨[1, 2, 1], [1, -1, 1/4]⟩) .bpB .bpA
      = some ([some 1, some 2, some 1], [none, some (-1), some (1/4)]) := by decide +kernel

/-- 40 R89: the set of IIR-1 times 2, divided and padded; 90 C8: the longer sequence gives the order. -/
theorem test_load_divides_and_pads :
    loaded (loadLowpass Config.reference (· / ·) ⟨[1, 1], [2, -1]⟩) .lpB .lpA
      = some ([some (1/2), some (1/2), none], [none, some (-1/2), none]) ∧
    loaded (loadLowpass Config.reference (· / ·) ⟨[1, 2, 1], [1]⟩) .lpB .lpA
      = some ([some 1, some 2, some 1], [none, some 0, some 0]) := by decide +kernel

/-! ## Another type of values: `REAL` (00 R6, R9) -/

/-- Parameters over the real numbers. -/
noncomputable def realConfig : Config ℝ where
  num := Num.real
  lawful := Num.real_lawful
  maxOrd := 4
  maxOrd_le := by decide
  maxLen := 16
  maxLen_pos := by decide
  maxLen_le := by decide
  maxPer := 8
  maxPer_pos := by decide
  maxPer_le := by decide

/-- 44 R138: a step over `REAL` takes `WR X[5]` with an irrational value and stores it. -/
theorem test_step_over_real (draw : Nat → ℝ) :
    (System.step realConfig draw { System.reset with
        agenda := [.host 0b100001000000000000000000000000101#33 (some (.value (Real.sqrt 2)))] }).map
      (fun t => (t.entry .x 5, t.response)) = .ok (some (Real.sqrt 2), some .ok) := rfl

/-- 20 R47: a step over `REAL` answers `RD THR` right after reset with a draw. -/
theorem test_draw_over_real (draw : Nat → ℝ) :
    (System.step realConfig draw { System.reset with agenda := [.host 0x001000000#33 none] }).map
      (fun t => (t.response, t.draws)) = .ok (some (.okValue (draw 0)), 1) := rfl

/-! ## Witnesses: states and operands that meet the hypotheses of each statement -/

variable {S : Type}

/-- A run of one zero sample, order 0 and period 1, at a given stage, as CHECK and the stages before it leave
it; `r` is the result once the run is DONE. -/
def runBlock (c : Config S) (st : Stage) (r : Result) : Block S :=
  let z := c.num.zero
  let produced := fun n => if n ≤ st.progress then [z] else ([] : List S)
  { Block.reset with
    stage := st
    result := if st = .done then r else .none
    errcode := if st = .error then .badLen else .none
    len := 1#32
    loPer := 1#32
    outLen := if st = .done ∧ r = .signalPresent then 1#32 else 0#32
    thr := some z
    peak := if 9 ≤ st.progress then some z else none
    median := if 9 ≤ st.progress then some z else none
    mem := [(Bank.address .bpB 0, z), (Bank.address .lpB 0, z), (Bank.address .loCos 0, z),
        (Bank.address .loSin 0, z), (Bank.address .x 0, z)] ++
      (if 7 ≤ st.progress then [(Bank.address .ybI 0, z), (Bank.address .ybQ 0, z)] else [])
    ybp := produced 3
    i := produced 4
    q := produced 4
    ib := produced 5
    qb := produced 6
    m := produced 8 }

/-- What the banks of `runBlock` hold. -/
theorem runBlock_entry (c : Config S) (st : Stage) (r : Result) :
    (runBlock c st r).entry .bpB 0 = some c.num.zero ∧ (runBlock c st r).entry .lpB 0 = some c.num.zero ∧
    (runBlock c st r).entry .loCos 0 = some c.num.zero ∧
    (runBlock c st r).entry .loSin 0 = some c.num.zero ∧
    (runBlock c st r).entry .x 0 = some c.num.zero := by
  simp [runBlock, Block.entry, Memory.read, Bank.address, Bank.number]

theorem runBlock_configured (c : Config S) (st : Stage) (r : Result) : Configured c (runBlock c st r) := by
  have h1 := c.maxLen_pos
  have h2 := c.maxPer_pos
  simp [Configured, runBlock, Block.reset]; omega

theorem runBlock_needed (c : Config S) (st : Stage) (r : Result) : Needed c (runBlock c st r) := by
  obtain ⟨e1, e2, e3, e4, e5⟩ := runBlock_entry c st r
  have z := c.lawful.wf_zero
  have w : ∀ {b}, (runBlock c st r).entry b 0 = some c.num.zero → EntryWf c (runBlock c st r) b 0 :=
    fun h => ⟨_, h, z⟩
  have hb : (runBlock c st r).bpOrd.toNat = 0 := rfl
  have hl : (runBlock c st r).lpOrd.toNat = 0 := rfl
  have hp : (runBlock c st r).loPer.toNat = 1 := rfl
  have hn : (runBlock c st r).len.toNat = 1 := rfl
  rw [Needed, hb, hl, hp, hn]
  refine ⟨⟨_, rfl, z⟩, ?_, ?_, ?_, ?_, ?_, ?_, ?_⟩ <;> intro k
  · intro h; obtain rfl : k = 0 := by omega
    exact w e1
  · intro h h'; omega
  · intro h; obtain rfl : k = 0 := by omega
    exact w e2
  · intro h h'; omega
  · intro h; obtain rfl : k = 0 := by omega
    exact w e3
  · intro h; obtain rfl : k = 0 := by omega
    exact w e4
  · intro h; obtain rfl : k = 0 := by omega
    exact w e5

/-- What the output banks of `runBlock` hold: entry 0 once FORM has run. -/
theorem runBlock_output (c : Config S) (st : Stage) (r : Result) (b : Bank) (hb : b = .ybI ∨ b = .ybQ)
    (n : Nat) (hn : n < 2 ^ 24) :
    (runBlock c st r).entry b n = if 7 ≤ st.progress ∧ n = 0 then some c.num.zero else none := by
  rcases hb with rfl | rfl <;> by_cases h : 7 ≤ st.progress <;> by_cases h0 : n = 0 <;>
    simp [runBlock, Block.entry, Memory.read, Bank.address, Bank.number, h, h0] <;>
    (repeat rw [if_neg (by omega)])

/-- `runBlock` meets the invariant at every stage. -/
theorem runBlock_inv (c : Config S) (st : Stage) (r : Result) (hr : r ≠ .none) :
    Inv c (runBlock c st r) := by
  have z := c.lawful.wf_zero
  have o1 := c.maxPer_pos
  have o2 := c.maxLen_pos
  have out : ∀ b, b = .ybI ∨ b = .ybQ → OutputBank (runBlock c st r) b := by
    intro b hb n hn
    rw [runBlock_output c st r b hb n hn]
    have hs : (runBlock c st r).stage = st := rfl
    have hl : (runBlock c st r).len.toNat = 1 := rfl
    rw [hs, hl]
    split
    · next h => simp [h]
    · next h => simp; omega
  have outwf : ∀ b, b = .ybI ∨ b = .ybQ → ∀ n v, n < 2 ^ 24 → (runBlock c st r).entry b n = some v →
      c.num.wf v = true := by
    intro b hb n v hn h
    rw [runBlock_output c st r b hb n hn] at h
    split at h
    · obtain rfl := Option.some.inj h; exact z
    · cases h
  refine
    { mem_wf := ?_, mem_mapped := ?_, result_iff := ?_, errcode_iff := ?_, outLen_eq := ?_,
      configured := fun _ => ⟨runBlock_configured c st r, runBlock_needed c st r⟩,
      ybp_length := ?_, i_length := ?_, q_length := ?_, ib_length := ?_, qb_length := ?_, m_length := ?_,
      peak_iff := ?_, median_iff := ?_, ybI_bank := out _ (.inl rfl), ybQ_bank := out _ (.inr rfl),
      produced_wf := ⟨?_, ?_, ?_, outwf _ (.inl rfl), outwf _ (.inr rfl)⟩ }
  · cases st <;> rfl
  · cases st <;> simp [runBlock, Memory.mapped, bankOf, Bank.address, Bank.number, Bank.implemented,
      Stage.progress, Nat.pos_of_ne_zero, Nat.ne_of_gt o1, Nat.ne_of_gt o2]
  · cases st <;> simp [runBlock, hr]
  · cases st <;> simp [runBlock]
  · cases st <;> cases r <;> simp [runBlock] at hr ⊢
  all_goals first
    | (cases st <;> simp [StreamLength, runBlock, Stage.progress]; done)
    | (cases st <;> simp [runBlock, Stage.progress]; done)
    | (cases st <;> simp [runBlock, Stage.progress, z])

/-- The machine around `runBlock`. -/
def runState (st : Stage) (r : Result) : State :=
  { State.reset with toBlock := runBlock Config.machine st r }

@[simp] theorem runState_toBlock (st : Stage) (r : Result) :
    (runState st r).toBlock = runBlock Config.machine st r := rfl

@[simp] theorem runBlock_stage (c : Config S) (st : Stage) (r : Result) :
    (runBlock c st r).stage = st := rfl

/-- The block can be run over the reals: `REAL` is the numerics record of some configuration (00 R9). -/
theorem real_configuration : ∃ c : Config ℝ, c.num = Num.real :=
  ⟨{ num := Num.real, lawful := Num.real_lawful, maxOrd := 4, maxOrd_le := by decide, maxLen := 16,
     maxLen_pos := by decide, maxLen_le := by decide, maxPer := 8, maxPer_pos := by decide,
     maxPer_le := by decide }, rfl⟩

/-- RationalInstanceIsRealOnRationals: a sum of squares that is the square of a rational. -/
theorem witness_rational_square : IsSquare ((3 : Rat) * 3 + 4 * 4) := ⟨5, by norm_num⟩

/-! ### Encoding and the address map -/

/-- DecodeEncodeRoundTrip: a write to CMD of an illegal word, and a record write. -/
theorem witness_round_trip :
    (Instr.wr 0x00#8 0#24 (.word 4#32)).wellFormed = true ∧
    (Instr.wr 0x08#8 0xFFFFFF#24 (.value 1)).wellFormed = true := by decide

/-- EncodeDecodeRoundTrip: a form that decodes. -/
theorem witness_decodes : decode (.stage 9#4) = .ok .gate := rfl

/-- ReservedEncodingsAreRefused: words next to the commands, the reserved codes, an unimplemented address
with a fitting payload. -/
theorem witness_reserved :
    (0#32 ≠ 1#32 ∧ 0#32 ≠ 2#32 ∧ 0#32 ≠ 3#32) ∧ (4#32 ≠ 1#32 ∧ 4#32 ≠ 2#32 ∧ 4#32 ≠ 3#32) ∧
    (11#4).toNat ∈ [11, 12, 13, 14] ∧ (14#4).toNat ∈ [11, 12, 13, 14] ∧
    Unimplemented Config.machine 0x0B#8 0#24 ∧ (Payload.value 1).fits 0x0B#8 = true ∧
    Unimplemented Config.machine 0x00#8 9#24 ∧ (Payload.word (S := Sample) 1).fits 0x00#8 = true := by
  refine ⟨by decide, by decide, by decide, by decide, ?_, rfl, ?_, rfl⟩
  · simp [Unimplemented]
  · simp [Unimplemented]

/-- The first entries of the record, of the outputs and of a coefficient bank are implemented on every
configuration. -/
theorem implemented_first_entries :
    ¬ Unimplemented Config.machine 0x08#8 0#24 ∧ ¬ Unimplemented Config.machine 0x09#8 0#24 ∧
    ¬ Unimplemented Config.machine 0x0A#8 0#24 ∧ ¬ Unimplemented Config.machine 0x02#8 0#24 := by
  have := Config.machine.maxLen_pos
  simp [Unimplemented]
  omega

/-- AddressesNameDistinctLocations: one address, twice. -/
theorem witness_same_location : ∃ (bank bank' : BankNo) (index index' : Index),
    ¬ Unimplemented Config.machine bank index ∧
    resolve Config.machine bank index = resolve Config.machine bank' index' :=
  ⟨0x08#8, 0x08#8, 0#24, 0#24, implemented_first_entries.1, rfl⟩

/-! ### Stages: the clearing events, the commands and the port -/

/-- One state in each class of stage: IDLE, DONE, ERROR outside BUSY and the first and last BUSY stage. -/
theorem witness_stages :
    State.reset.stage = .idle ∧ State.reset.stage.busy = false ∧
    (runState .done .noSignal).stage.busy = false ∧
    (runState .error .noSignal).stage = .error ∧
    (runState .error .noSignal).stage.busy = false ∧
    (runState .check .noSignal).stage.busy = true ∧
    (runState .gate .noSignal).stage.busy = true ∧
    (runState .gate .noSignal).stage ≠ .idle := by
  simp [State.reset, System.reset, Block.reset, Stage.busy]

/-- RefusedTransactionsChangeNothing, P1 to P5. -/
theorem witness_refused_p1_to_p5 :
    (Unimplemented Config.machine 0x03#8 0#24 ∧ (Payload.value 1).fits 0x03#8 = true) ∧
    ((0x00#8).toNat = 0x00 ∧ (8#24).toNat = 8 ∧ (Payload.word (S := Sample) 0).fits 0x00#8 = true) ∧
    ((0x01#8).toNat = 0x01 ∧ (2#24).toNat = 2 ∧ (Payload.value 0).fits 0x01#8 = true) ∧
    ((0x0A#8).toNat = 0x0A ∧ (Payload.value 0).fits 0x0A#8 = true) ∧
    ((0x00#8).toNat = 0x00 ∧ (0#24).toNat = 0 ∧ Payload.word (S := Sample) 4#32 ≠ .word 1#32 ∧
      Payload.word (S := Sample) 4#32 ≠ .word 2#32 ∧ Payload.word (S := Sample) 4#32 ≠ .word 3#32) ∧
    (Payload.word (S := Sample) 1#32 = .word 1#32 ∧ (runState .done .noSignal).stage ≠ .idle) ∧
    (runState .check .noSignal).stage.busy = true := by
  refine ⟨⟨by simp [Unimplemented], rfl⟩, by decide, by decide, by decide, by decide, ?_, rfl⟩
  simp [runState]

/-- RefusedTransactionsChangeNothing, P6 to P9: the ends of each range. -/
theorem witness_refused_p6_to_p9 :
    ((0x00#8).toNat = 0x00 ∧ 3 ≤ (3#24).toNat ∧ (7#24).toNat ≤ 7 ∧ (0x01#8).toNat = 0x01 ∧
      (0#24).toNat = 0 ∧ 0x02 ≤ (0x02#8).toNat ∧ (0x08#8).toNat ≤ 0x08 ∧
      (runState .error .noSignal).stage ≠ .idle) ∧
    ((0x01#8).toNat ≠ 0x00 ∧ (runState .gate .noSignal).stage.busy = true) ∧
    ((1#24).toNat = 1 ∧ State.reset.stage ≠ .done) ∧
    ((0x09#8).toNat = 0x09 ∧ (runState .done .noSignal).stage = .done ∧
      (runState .done .noSignal).outLen.toNat ≤ (0#24).toNat) := by
  refine ⟨⟨by decide, by decide, by decide, by decide, by decide, by decide, by decide, ?_⟩, ⟨by decide, rfl⟩,
    by decide, by decide, rfl, ?_⟩
  · simp [runState]
  · simp [runBlock]

/-- BusyHostChangesNothing. -/
theorem witness_busy_host :
    (runState .mix .noSignal).stage.busy = true ∧
    isStageOp (.wr 0x08#8 0#24 (.value 1)) = false ∧
    (Instr.wr 0x08#8 0#24 (.value 1)).wellFormed = true := ⟨rfl, rfl, rfl⟩

/-- NumericWriteStoresOneLocation: the first and the last writable bank. -/
theorem witness_numeric_write :
    State.reset.stage = .idle ∧ 0x02 ≤ (0x02#8).toNat ∧ (0x08#8).toNat ≤ 0x08 ∧
    ¬ Unimplemented Config.machine 0x02#8 0#24 ∧ ¬ Unimplemented Config.machine 0x08#8 0#24 :=
  ⟨rfl, by decide, by decide, implemented_first_entries.2.2.2, implemented_first_entries.1⟩

/-- NumericReadAnswersTheHeldValue: a run that is DONE with a signal holds a value at every location named. -/
theorem witness_held_values :
    let s := runState .done .signalPresent
    (s.stage.busy = false ∧ s.stage = .done ∧ 0 < s.outLen.toNat) ∧
    s.thr = some Config.machine.num.zero ∧ s.peak = some Config.machine.num.zero ∧
    s.median = some Config.machine.num.zero ∧
    s.mem.read (0x08 * 2 ^ 24 + 0) = some Config.machine.num.zero ∧
    s.mem.read (0x0A * 2 ^ 24 + 0) = some Config.machine.num.zero := by
  refine ⟨⟨rfl, rfl, by decide⟩, rfl, rfl, rfl, ?_, ?_⟩ <;>
    simp [runBlock, Memory.read, Bank.address, Bank.number, Stage.progress]

/-- UnwrittenReadAnswersADraw: no location holds a value; the output entries of the last clause are
below an OUT_LEN of 1. -/
theorem witness_unwritten :
    let s : State := { State.reset with stage := .done, outLen := 1#32 }
    s.stage.busy = false ∧ s.stage = .done ∧ s.thr = none ∧ s.peak = none ∧ s.median = none ∧
    (0#24).toNat < s.outLen.toNat ∧ s.mem.read (0x08 * 2 ^ 24 + 0) = none ∧
    s.mem.read (0x0A * 2 ^ 24 + 0) = none ∧
    ¬ Unimplemented Config.machine 0x08#8 0#24 ∧ ¬ Unimplemented Config.machine 0x0A#8 0#24 :=
  ⟨rfl, rfl, rfl, rfl, rfl, by decide, rfl, rfl, implemented_first_entries.1, implemented_first_entries.2.2.1⟩

/-- DrawsAreFresh: a read that draws, `RD THR` right after reset; one that answers a held value and draws
nothing; a step without a transaction. -/
theorem witness_draws :
    step { State.reset with agenda := [.host 0x001000000#33 none] } = .next { State.reset with
      response := some (.okValue (Config.draw 0)), draws := 1 } ∧
    step { State.reset with thr := some 3, agenda := [.host 0x001000000#33 none] } = .next { State.reset with
      thr := some 3, response := some (.okValue 3) } ∧
    step State.reset = .next State.reset := ⟨rfl, rfl, rfl⟩

/-! ### CHECK and ERROR -/

/-- CheckReportsTheFirstFailingTest, its hypotheses clause by clause at the least failing value. -/
theorem witness_check :
    let c := Config.machine
    (configuration 0 0 0 1 0).len.toNat = 0 ∧
    (∀ s : Block Sample, s = configuration 1 (BitVec.ofNat 32 (c.maxOrd + 1)) 0 1 0 →
      ¬(s.len.toNat = 0 ∨ c.maxLen < s.len.toNat) ∧ c.maxOrd < s.bpOrd.toNat) ∧
    (∀ s : Block Sample, s = configuration 1 0 (BitVec.ofNat 32 (c.maxOrd + 1)) 1 0 →
      ¬(s.len.toNat = 0 ∨ c.maxLen < s.len.toNat) ∧ ¬ c.maxOrd < s.bpOrd.toNat ∧
      c.maxOrd < s.lpOrd.toNat) ∧
    (∀ s : Block Sample, s = configuration 1 0 0 0 0 →
      ¬(s.len.toNat = 0 ∨ c.maxLen < s.len.toNat) ∧ ¬ c.maxOrd < s.bpOrd.toNat ∧
      ¬ c.maxOrd < s.lpOrd.toNat ∧ s.loPer.toNat = 0) ∧
    (∀ s : Block Sample, s = configuration 1 0 0 1 1 →
      ¬(s.len.toNat = 0 ∨ c.maxLen < s.len.toNat) ∧ ¬ c.maxOrd < s.bpOrd.toNat ∧
      ¬ c.maxOrd < s.lpOrd.toNat ∧ ¬(s.loPer.toNat = 0 ∨ c.maxPer < s.loPer.toNat) ∧
      s.loPer.toNat ≤ s.loStep.toNat) := by
  have h1 := Config.machine.maxLen_pos
  have h2 := Config.machine.maxPer_pos
  have h3 := Config.machine.maxOrd_le
  refine ⟨rfl, ?_, ?_, ?_, ?_⟩ <;> rintro s rfl <;> simp [configuration] <;> omega

/-- CheckReportsTheFirstFailingTest, its last clause: the tests pass, and the needed set is met or, with
nothing written, is not. -/
theorem witness_check_needed :
    (Configured Config.machine (runBlock Config.machine .check .noSignal) ∧
      Needed Config.machine (runBlock Config.machine .check .noSignal)) ∧
    (Configured Config.machine (configuration 1 0 0 1 0) ∧
      ¬ Needed Config.machine (configuration 1 0 0 1 0)) := by
  have h1 := Config.machine.maxLen_pos
  have h2 := Config.machine.maxPer_pos
  refine ⟨⟨runBlock_configured _ _ _, runBlock_needed _ _ _⟩, ?_, ?_⟩
  · simp [Configured, configuration]; omega
  · rintro ⟨⟨v, h, -⟩, -⟩
    cases h

/-- OnlyClearingEventsLeaveError: a step that leaves ERROR, by a reset and by CLEAR. -/
theorem witness_leaving_error :
    (∃ t, step { runState .error .noSignal with agenda := [.hardwareReset] } = .next t ∧
      t.stage ≠ .error) ∧
    (∃ t, step { runState .error .noSignal with
        agenda := [.host 0x100000000#33 (some (.word 2#32))] } = .next t ∧ t.stage ≠ .error) ∧
    (Instr.wr 0x01#8 0#24 (.value 1)).wellFormed = true := by
  refine ⟨⟨_, rfl, ?_⟩, ⟨_, rfl, ?_⟩, rfl⟩
  · rintro ⟨⟩
  · rintro ⟨⟩

/-! ### The stage operations: order 0, period 1, one sample, the boundary of every range -/

/-- The coefficients, tones and record of `runBlock` are held. -/
theorem runBlock_holds (c : Config S) (st : Stage) (r : Result) :
    Holds c (runBlock c st r) .bpB (List.range ((runBlock c st r).bpOrd.toNat + 1)) [c.num.zero] ∧
    Holds c (runBlock c st r) .bpA (List.range' 1 (runBlock c st r).bpOrd.toNat) [] ∧
    Holds c (runBlock c st r) .lpB (List.range ((runBlock c st r).lpOrd.toNat + 1)) [c.num.zero] ∧
    Holds c (runBlock c st r) .lpA (List.range' 1 (runBlock c st r).lpOrd.toNat) [] ∧
    Holds c (runBlock c st r) .x (List.range (runBlock c st r).len.toNat) [c.num.zero] := by
  obtain ⟨e1, e2, -, -, e5⟩ := runBlock_entry c st r
  have hn := c.maxLen_pos
  have hb : (runBlock c st r).bpOrd.toNat = 0 := rfl
  have hl : (runBlock c st r).lpOrd.toNat = 0 := rfl
  have hs : (runBlock c st r).len.toNat = 1 := rfl
  rw [hb, hl, hs]
  simp [Holds, List.range_succ, Bank.implemented, e1, e2, e5]
  omega

/-- BpfFiltersTheRecord. -/
theorem witness_bpf : ∃ (s : State) (b a u : List Sample),
    Holds Config.machine s.toBlock .bpB (List.range (s.bpOrd.toNat + 1)) b ∧
    Holds Config.machine s.toBlock .bpA (List.range' 1 s.bpOrd.toNat) a ∧
    Holds Config.machine s.toBlock .x (List.range s.len.toNat) u :=
  ⟨runState .bpf .noSignal, _, _, _, (runBlock_holds _ _ _).1, (runBlock_holds _ _ _).2.1,
    (runBlock_holds _ _ _).2.2.2.2⟩

/-- LpfIFiltersTheInPhaseStream, LpfQFiltersTheQuadratureStream, LowpassChannelsAreIndependent. -/
theorem witness_lpf : ∃ (s : State) (b a : List Sample),
    Holds Config.machine s.toBlock .lpB (List.range (s.lpOrd.toNat + 1)) b ∧
    Holds Config.machine s.toBlock .lpA (List.range' 1 s.lpOrd.toNat) a ∧
    s.i.length = s.len.toNat ∧ s.q.length = s.len.toNat :=
  ⟨runState .lpfI .noSignal, _, _, (runBlock_holds _ _ _).2.2.1, (runBlock_holds _ _ _).2.2.2.1,
    rfl, rfl⟩

/-- FilterComputesTheDifferenceEquation: order 0, and the last sample at order 1. -/
theorem witness_filter :
    ([3] : List Sample).length = 0 + 1 ∧ ([] : List Sample).length = 0 ∧ 1 ≤ ([1] : List Sample).length ∧ 0 < 1 ∧
    ([3, 1] : List Sample).length = 1 + 1 ∧ ([2] : List Sample).length = 1 ∧
    2 ≤ ([1, 5] : List Sample).length ∧ 1 < 2 := by decide

/-- FilterZeroInZeroOut, FilterPrefixes, StreamingFilterRefinesTheRecurrence. -/
theorem witness_filter_laws :
    Num.rational.Lawful ∧ (∀ x ∈ ([3, 1] : List Rat), Num.rational.wf x = true) ∧
    (∀ x ∈ ([0, 0] : List Rat), x = Num.rational.zero) ∧ 0 ≤ 2 ∧ 2 ≤ 2 ∧
    ([3, 1] : List Rat).length = 1 + 1 ∧ ([2] : List Rat).length = 1 :=
  ⟨Num.rational_lawful, fun _ _ => rfl, by simp [Num.rational], by omega, by omega, rfl, rfl⟩

/-- PhaseIndexSteps: the least period and the greatest step of a period. -/
theorem witness_phase : 0 < 1 ∧ 7 < 8 := by decide

/-- MixMultipliesByTheTones. -/
theorem witness_mix : ∃ (s : State) (cosines sines : List Sample),
    1 ≤ s.loPer.toNat ∧ s.ybp.length = s.len.toNat ∧
    cosines.length = s.len.toNat ∧ sines.length = s.len.toNat ∧
    ∀ n, n < s.len.toNat → (n * s.loStep.toNat) % s.loPer.toNat < Config.machine.maxPer ∧
      s.entry .loCos ((n * s.loStep.toNat) % s.loPer.toNat) = cosines[n]? ∧
      s.entry .loSin ((n * s.loStep.toNat) % s.loPer.toNat) = sines[n]? := by
  obtain ⟨-, -, e3, e4, -⟩ := runBlock_entry Config.machine .mix .noSignal
  have hp := Config.machine.maxPer_pos
  refine ⟨runState .mix .noSignal, [Config.machine.num.zero], [Config.machine.num.zero],
    by decide, rfl, rfl, rfl, fun n hn => ?_⟩
  have hl : (runState .mix .noSignal).len.toNat = 1 := rfl
  obtain rfl : n = 0 := by omega
  simp [e3, e4]; omega

/-- FormStoresTheComplexBaseband. -/
theorem witness_form : ∃ s : State, s.ib.length = s.len.toNat ∧ s.qb.length = s.len.toNat ∧
    s.len.toNat ≤ Config.machine.maxLen :=
  ⟨runState .form .noSignal, rfl, rfl, Config.machine.maxLen_pos⟩

/-- EnvTakesTheMagnitudes and StatTakesPeakAndMedian. -/
theorem witness_env_stat :
    (runState .env .noSignal).ib.length = (runState .env .noSignal).len.toNat ∧
    (runState .env .noSignal).qb.length = (runState .env .noSignal).len.toNat ∧
    (runState .stat .noSignal).m = Config.machine.num.zero :: [] ∧
    (runState .stat .noSignal).m.length
      = (runState .stat .noSignal).len.toNat := ⟨rfl, rfl, rfl, rfl⟩

/-- PeakIsTheGreatestMagnitude, MedianIsTheMiddleOfTheArrangement, ZeroThresholdAlwaysSignalPresent: an odd
and an even count, a tie, an arrangement. -/
theorem witness_statistics :
    Num.rational.Lawful ∧ (∀ x ∈ ([2, 9, 9] : List Rat), Num.rational.wf x = true) ∧
    (9 ∈ ([2, 9, 9] : List Rat) ∧ ∀ x ∈ ([2, 9, 9] : List Rat), Num.rational.lt 9 x = false) ∧
    (([2, 9] : List Rat).Perm [9, 2] ∧
      ∀ (j : Nat) (x y : Rat), ([2, 9] : List Rat)[j]? = some x → ([2, 9] : List Rat)[j + 1]? = some y →
        Num.rational.lt y x = false) ∧
    ([9, 2] : List Rat).length % 2 = 0 ∧ ([7] : List Rat).length % 2 = 1 ∧
    envelope Num.rational [3] [4] = [5] := by
  refine ⟨Num.rational_lawful, fun _ _ => rfl, by decide +kernel, ⟨List.Perm.swap _ _ _, ?_⟩, rfl, rfl,
    by decide +kernel⟩
  intro j x y h h'
  match j with
  | 0 =>
    obtain rfl := Option.some.inj h
    obtain rfl := Option.some.inj h'
    decide +kernel
  | j + 1 => cases h'

/-- GateComparesPeakWithThreshold and MedianTakesNoPartInTheDecision. -/
theorem witness_gate : ∃ (s : State) (peak thr : Sample), s.peak = some peak ∧ s.thr = some thr :=
  ⟨runState .gate .noSignal, _, _, rfl, rfl⟩

/-! ### The whole machine -/

/-- StepRunsTheDecodedOperation, StepIsTheSequencersTurn: a transaction, a stage operation, an empty agenda. -/
theorem witness_step :
    decode (.host 0x100000000#33 (some (.word 1#32))) = .ok .run ∧
    decode (.stage (runState .gate .noSignal).stage.code) = .ok .gate ∧
    (runState .gate .noSignal).agenda = [] ∧ State.reset.stage.busy = false ∧
    State.reset.agenda = [] := ⟨rfl, rfl, rfl, rfl, rfl⟩

/-- StageChangesOnlyByTheTable: a turn of the sequencer while BUSY and in IDLE, RUN, a reset. -/
theorem witness_stage_table :
    (∃ t, step { State.reset with stage := .check } = .next t) ∧
    step State.reset = .next State.reset ∧
    (∃ t, step { State.reset with agenda := [.host 0x100000000#33 (some (.word 1#32))] } = .next t) ∧
    (∃ t, step { State.reset with stage := .mix, agenda := [.hardwareReset] } = .next t) :=
  ⟨⟨_, rfl⟩, rfl, ⟨_, rfl⟩, ⟨_, rfl⟩⟩

/-- RunsKeepSessionAndEventState: GATE on a state it completes in. -/
theorem witness_stage_op :
    isStageOp .gate = true ∧ ∃ t, exec .gate (runState .gate .noSignal) = .next t := by
  have h := (gate_eq_ok (c := Config.machine) (s := runBlock Config.machine .gate .noSignal)).2
    ⟨_, _, rfl, rfl, rfl⟩
  exact ⟨rfl, _, congrArg (fun x => outcomeOf ((runState .gate .noSignal).afterStage x)) h⟩

/-- EveryStepKeepsTheInvariant: a stage operation from a state that meets the invariant. -/
theorem witness_invariant :
    Inv Config.machine (runBlock Config.machine .gate .noSignal) ∧
    ∃ t, step (runState .gate .noSignal) = .next t :=
  ⟨runBlock_inv _ _ _ (by decide), witness_stage_op.2⟩

/-- StagesAfterCheckNeverStop: a stage after CHECK, and CHECK. -/
theorem witness_never_stop :
    Inv Config.machine (runBlock Config.machine .bpf .noSignal) ∧
    (runState .bpf .noSignal).stage.busy = true ∧
    (runState .bpf .noSignal).stage ≠ .check ∧
    Inv Config.machine (runBlock Config.machine .check .noSignal) ∧
    (runState .check .noSignal).stage = .check :=
  ⟨runBlock_inv _ _ _ (by decide), rfl, by simp [runState], runBlock_inv _ _ _ (by decide), rfl⟩

/-- RunTakesNineTurns: a legal configuration and an illegal one. -/
theorem witness_run :
    (runState .check .noSignal).stage = .check ∧
    Configured Config.machine (runBlock Config.machine .check .noSignal) ∧
    Needed Config.machine (runBlock Config.machine .check .noSignal) ∧
    ¬ Configured Config.machine (configuration 0 0 0 1 0) := by
  refine ⟨rfl, runBlock_configured _ _ _, runBlock_needed _ _ _, ?_⟩
  simp [Configured, configuration]

/-- SilenceGivesNoSignal: a record of one zero with threshold 1/2 on the reference parameters. -/
theorem witness_silence : ∃ (c : Config Sample) (s : Block Sample) (thr : Sample),
    s.stage = .check ∧ Configured c s ∧ Needed c s ∧
    (∀ n, n < s.len.toNat → s.entry .x n = some c.num.zero) ∧
    s.thr = some thr ∧ c.num.lt c.num.zero thr = true := by
  refine ⟨Config.reference, { runBlock Config.reference .check .noSignal with thr := some (1/2) }, 1/2, rfl,
    runBlock_configured _ .check .noSignal, ⟨⟨_, rfl, rfl⟩, (runBlock_needed _ .check .noSignal).2⟩, ?_,
    rfl, by decide +kernel⟩
  intro n hn
  obtain rfl : n = 0 := by have hn' : n < 1 := hn; omega
  exact (runBlock_entry Config.reference .check .noSignal).2.2.2.2

/-- ResultsDependOnInputsOnly: two states that differ in working registers. -/
theorem witness_determinism : ∃ (c : Config Sample) (s s' : Block Sample),
    Inv c s ∧ Inv c s' ∧ s.stage = .check ∧ SameInputs s s' ∧ s ≠ s' := by
  refine ⟨Config.reference, runBlock Config.reference .check .noSignal,
    { runBlock Config.reference .check .noSignal with mixN := 7, statMax := some 3 },
    runBlock_inv _ _ _ (by decide), ?_, rfl, ⟨rfl, rfl, rfl, rfl, rfl, rfl, rfl, fun _ _ _ _ => rfl⟩, ?_⟩
  · obtain ⟨h1, h2, h3, h4, h5, h6, h7, h8, h9, h10, h11, h12, h13, h14, h15, h16, h17⟩ :=
      runBlock_inv Config.reference .check .noSignal (by decide)
    exact ⟨h1, h2, h3, h4, h5, h6, h7, h8, h9, h10, h11, h12, h13, h14, h15, h16, h17⟩
  · intro h
    exact absurd (congrArg Block.mixN h) (by decide)

/-- ResultsDependOnInputsOnly: nine turns of the first of these states answer. -/
theorem witness_nine_turns :
    (turns Config.reference 9 (runBlock Config.reference .check .noSignal)).toOption.map (·.stage) = some .done := by
  decide +kernel

/-- ResultsAreForwardedOnlyOnSignal: DONE with either result. -/
theorem witness_done :
    (Inv Config.machine (runBlock Config.machine .done .signalPresent) ∧
      (runState .done .signalPresent).stage = .done ∧
      (runState .done .signalPresent).result = .signalPresent ∧
      (0#24).toNat < (runState .done .signalPresent).len.toNat) ∧
    (Inv Config.machine (runBlock Config.machine .done .noSignal) ∧
      (runState .done .noSignal).result = .noSignal) :=
  ⟨⟨runBlock_inv _ _ _ (by decide), rfl, rfl, by decide⟩, runBlock_inv _ _ _ (by decide), rfl⟩

/-! ### The designer -/

/-- InvalidSpecificationIsRejected: edges that meet, and an edge at Nyquist. -/
theorem witness_invalid_edges :
    ¬((0 : Rat) < 1/8 ∧ (1/8 : Rat) < 1/8 ∧ (1/8 : Rat) < 1/4 ∧ (1/4 : Rat) < 1/2 ∧ (1/2 : Rat) < 1) ∧
    ¬((0 : Rat) < 1/2 ∧ (1/2 : Rat) < 1 ∧ (1 : Rat) < 1) := by norm_num

/-- LoadingASetFillsItsBanks: a loadable set of order 0 with the leading term 1 on every configuration. -/
theorem witness_load (c : Config S) : ∃ (f : FilterCoefficients S) (a0 : S) (tail : List S),
    f.feedback = a0 :: tail ∧ max f.feedforward.length f.feedback.length - 1 ≤ c.maxOrd ∧
    (a0 = c.num.one ∨ a0 ≠ c.num.zero) ∧ (System.reset : System S).stage = .idle :=
  ⟨⟨[c.num.one], [c.num.one]⟩, _, [], rfl, Nat.zero_le _, .inl rfl, rfl⟩

/-- 40 R89, `MAXORD` being 4: a set of order 4 that is divided can be loaded, one of order 5 cannot, whichever
sequence is the longer; nor can a set whose leading feedback term is 0 or absent. -/
theorem test_loadable_sets :
    (loadBandpass Config.reference (· / ·) ⟨[1, 1, 1, 1, 1], [2, 1]⟩).isSome = true ∧
    (loadLowpass Config.reference (· / ·) ⟨[1], [2, 1, 0, 0, 4]⟩).isSome = true ∧
    loadBandpass Config.reference (· / ·) ⟨[1, 1, 1, 1, 1, 1], [1]⟩ = none ∧
    loadLowpass Config.reference (· / ·) ⟨[1], [1, 1, 1, 1, 1, 1]⟩ = none ∧
    loadBandpass Config.reference (· / ·) ⟨[1], [0, 1]⟩ = none ∧
    loadLowpass Config.reference (· / ·) ⟨[1], []⟩ = none := by decide +kernel

end Sys2Proof.Tests
end

section
/-!
The fixed machine and the system over any type of values take the same step.
-/

namespace Sys2Proof.Machine

/-- What a fetched move comes to. -/
def Fetched.outcome : Fetched → Host.Outcome State Fault Refusal
  | .run i s => exec i s
  | .pass s => .next s
  | .bad r => .refused r

/-- A step is the outcome of the move that is fetched. -/
theorem step_eq_outcome_fetch (s : State) : step s = (fetch s).outcome := rfl

/-- A turn of the sequencer, by the stage: BUSY runs the operation that the stage code decodes to, and a
resting stage passes (30 R65). -/
theorem sequencerTurn_outcome (s : State) :
    (sequencerTurn s).outcome = outcomeOf (System.sequencerTurn Config.machine s.toSystem) := by
  obtain ⟨⟨⟨stage⟩⟩⟩ := s
  cases stage <;> rfl

/-- A host transaction runs the operation it decodes to, and what decodes to none is refused for the same
reason by both (30 R72). -/
theorem hostTurn_outcome (h : BitVec 33) (payload : Option (Payload Sample)) (s : State) :
    (hostTurn h payload s).outcome =
      outcomeOf (System.hostTurn Config.machine Config.draw h payload s.toSystem) := by
  simp only [hostTurn, System.hostTurn, decode, decodeHost]
  cases decodeTransaction h payload with
  | error e => rfl
  | ok t => exact exec_instr t

/-- Settles O57, by the next event of the agenda. -/
theorem stepIsTheSystemsStep : Obligations.StepIsTheSystemsStep := by
  intro s
  rw [step_eq_outcome_fetch]
  obtain ⟨⟨block, response, agenda, draws⟩⟩ := s
  cases agenda with
  | nil => exact sequencerTurn_outcome _
  | cons event rest =>
    cases event with
    | host h payload => exact hostTurn_outcome h payload _
    | sequencer => exact sequencerTurn_outcome _
    | hardwareReset => rfl

end Sys2Proof.Machine
end

section
/-!
The rational instance and `REAL` agree on rationals (00 R9).
-/

namespace Sys2Proof

/-- `ratMag` of a pair whose sum of squares is the square of `q` is exact: numerator and denominator of
`q * q` are squares, so the integer root of their product is `|q.num| * q.den`. -/
theorem ratMag_of_sum_eq_square {a b q : Rat} (h : a * a + b * b = q * q) : ratMag a b = |q| := by
  have hd : (q.den : Rat) ≠ 0 := Nat.cast_ne_zero.2 q.den_ne_zero
  have hroot : (q * q).num.toNat * (q * q).den = q.num.natAbs * q.den * (q.num.natAbs * q.den) := by
    rw [Rat.mul_self_num, Rat.mul_self_den, ← Int.natAbs_mul_self, Int.toNat_natCast]
    ring
  rw [ratMag, h, hroot, natSqrt_square, Rat.mul_self_den, Nat.cast_mul, Nat.cast_mul,
    mul_div_mul_right _ _ hd, Rat.abs_def, Rat.divInt_eq_div]
  rfl

/-- On a pair whose sum of squares is a rational square, the magnitudes are equal. -/
theorem cast_ratMag_of_isSquare {a b : Rat} (h : IsSquare (a * a + b * b)) :
    (ratMag a b : ℝ) = Real.sqrt (a * a + b * b) := by
  obtain ⟨q, hq⟩ := h
  have hq' : (a * a + b * b : ℝ) = q * q := by exact_mod_cast hq
  rw [ratMag_of_sum_eq_square hq, hq', Real.sqrt_mul_self_eq_abs, Rat.cast_abs]

/-- Settles O56: the field operations are cast term by term, and a rational magnitude by
`cast_ratMag_of_isSquare`. -/
theorem rationalInstanceIsRealOnRationals : Obligations.RationalInstanceIsRealOnRationals :=
  ⟨Rat.cast_zero, Rat.cast_ofNat 2, fun a b =>
    ⟨Rat.cast_add a b, Rat.cast_sub a b, Rat.cast_mul a b,
      (Rat.cast_div a 2).trans (congrArg (a / · : ℝ → ℝ) (Rat.cast_ofNat 2)),
      decide_eq_decide.2 Rat.cast_lt.symm, cast_ratMag_of_isSquare⟩⟩

end Sys2Proof
end

section
/-!
The numeric functions keep values well formed (44 R140; law L3 of 00 R8), and a stream has one element for
each sample.
-/

namespace Sys2Proof.Machine

variable {S : Type} {N : Num S} {b a u v l : List S} {M n k : Nat}

/-- Every value of a list is well formed. -/
def AllWf (N : Num S) (l : List S) : Prop := ∀ x ∈ l, N.wf x = true

theorem AllWf.take (h : AllWf N l) (n : Nat) : AllWf N (l.take n) :=
  fun x hx => h x (List.mem_of_mem_take hx)

theorem AllWf.zipWith {f : S → S → S} (hf : ∀ x y, N.wf x = true → N.wf y = true → N.wf (f x y) = true)
    (hu : AllWf N u) (hv : AllWf N v) : AllWf N (List.zipWith f u v) := by
  intro z hz
  obtain ⟨j, hj, rfl⟩ := List.mem_iff_getElem.1 hz
  rw [List.getElem_zipWith]
  exact hf _ _ (hu _ (List.getElem_mem _)) (hv _ (List.getElem_mem _))

section Filter

variable (hN : N.Lawful)
include hN

theorem wf_item (hl : AllWf N l) (k : Nat) : N.wf (item N l k) = true := by
  unfold item
  rw [List.getD_eq_getElem?_getD]
  cases h : l[k]? with
  | none => exact hN.wf_zero
  | some x => exact hl x (List.mem_of_getElem? h)

theorem wf_delayed (hl : AllWf N l) (n k : Nat) : N.wf (delayed N l n k) = true := by
  unfold delayed
  split
  · exact wf_item hN hl _
  · exact hN.wf_zero

theorem wf_feedForward (hb : AllWf N b) (hu : AllWf N u) (M n : Nat) :
    N.wf (feedForward N b M u n) = true :=
  List.foldlRecOn (motive := fun acc => N.wf acc = true) _ _
    (hN.wf_mul _ _ (wf_item hN hb 0) (wf_item hN hu n))
    (fun _ hacc k _ => hN.wf_add _ _ hacc (hN.wf_mul _ _ (wf_item hN hb k) (wf_delayed hN hu n k)))

theorem wf_iirOutput (hb : AllWf N b) (ha : AllWf N a) (hu : AllWf N u) (hv : AllWf N v) (M n : Nat) :
    N.wf (iirOutput N b a M u v n) = true :=
  List.foldlRecOn (motive := fun acc => N.wf acc = true) _ _ (wf_feedForward hN hb hu M n)
    (fun _ hacc k _ => hN.wf_sub _ _ hacc (hN.wf_mul _ _ (wf_item hN ha (k - 1)) (wf_delayed hN hv n k)))

end Filter

/-- One more output is appended to the outputs before it (41 R100). -/
theorem iir_succ (N : Num S) (b a u : List S) (M n : Nat) :
    iir N b a M u (n + 1) = iir N b a M u n ++ [iirOutput N b a M u (iir N b a M u n) n] := by
  simp [iir, List.range_succ]

@[simp] theorem length_iir (N : Num S) (b a u : List S) (M n : Nat) : (iir N b a M u n).length = n := by
  induction n with
  | zero => rfl
  | succ n ih => rw [iir_succ, List.length_append, ih, List.length_singleton]

theorem allWf_iir (hN : N.Lawful) (hb : AllWf N b) (ha : AllWf N a) (hu : AllWf N u) (M n : Nat) :
    AllWf N (iir N b a M u n) := by
  induction n with
  | zero => exact fun _ hx => nomatch hx
  | succ n ih =>
    rw [iir_succ]
    intro x hx
    rcases List.mem_append.1 hx with hx | hx
    · exact ih x hx
    · rw [List.mem_singleton.1 hx]
      exact wf_iirOutput hN hb ha hu ih M n

/-! ## The mixer and the envelope -/

@[simp] theorem length_phases (P step len : Nat) : (phases P step len).length = len := by simp [phases]

/-- A phase index lies in the table (42 R110). -/
theorem lt_of_mem_phases {P step len : Nat} (hP : 0 < P) (h : k ∈ phases P step len) : k < P := by
  obtain ⟨n, -, rfl⟩ := List.mem_map.1 h
  exact Nat.mod_lt _ hP

theorem allWf_mixStream (hN : N.Lawful) (hu : AllWf N u) (hv : AllWf N v) :
    AllWf N (mixStream N u v) :=
  AllWf.zipWith (fun _ _ hy ht => hN.wf_mul _ _ (hN.wf_mul _ _ hN.wf_two hy) ht) hu hv

theorem allWf_envelope (hN : N.Lawful) (hu : AllWf N u) (hv : AllWf N v) : AllWf N (envelope N u v) :=
  AllWf.zipWith hN.wf_mag hu hv

/-! ## Peak and median -/

theorem wf_peakOf {first : S} {rest : List S} (h : AllWf N (first :: rest)) :
    N.wf (peakOf N first rest) = true := by
  refine List.foldlRecOn (motive := fun p => N.wf p = true) _ _ (h first (by simp)) ?_
  intro p hp x hx
  unfold maxStep
  split
  · exact h x (List.mem_cons_of_mem _ hx)
  · exact hp

/-- An insertion rearranges the list with the new element. -/
theorem insertAscending_perm (N : Num S) (x : S) (l : List S) : (insertAscending N x l).Perm (x :: l) := by
  induction l with
  | nil => exact List.Perm.refl _
  | cons y t ih =>
    unfold insertAscending
    split
    · exact (ih.cons y).trans (List.Perm.swap x y t)
    · exact List.Perm.refl _

/-- The ascending arrangement is a rearrangement (43 R122). -/
theorem ascending_perm (N : Num S) (l : List S) : (ascending N l).Perm l := by
  induction l with
  | nil => exact List.Perm.refl _
  | cons x t ih => exact (insertAscending_perm N x _).trans (ih.cons x)

theorem wf_med (hN : N.Lawful) (h : AllWf N l) : N.wf (med N l) = true := by
  have hs : AllWf N (ascending N l) := fun x hx => h x ((ascending_perm N l).mem_iff.1 hx)
  unfold med
  split
  · exact wf_item hN hs _
  · exact hN.wf_half _ (hN.wf_add _ _ (wf_item hN hs _) (wf_item hN hs _))

end Sys2Proof.Machine
end

section
/-!
What a run leaves unchanged (10 R36), and what FORM does to the memory.
-/

namespace Sys2Proof.Machine

variable {S : Type} {c : Config S} {s t : Block S} {b : Bank} {k : Nat}

/-! ## The banks -/

/-- The number of a bank that is no output bank lies below those of the output banks (20 R41). -/
theorem number_lt_of_not_output (h : b.isOutput = false) : b.number < 0x09 := by
  cases b <;> first | decide | cases h

/-- A property of the memory that the write of any implemented entry keeps is kept by a stream of writes. -/
theorem memWrites_mem_induction {P : Memory S → Prop} {vs : List S}
    (hP : ∀ (m : Memory S) k v, b.implemented c k = true → P m → P (m.write (b.address k) v))
    (h : memWrites c b s k vs = .ok t) (hs : P s.mem) : P t.mem := by
  induction vs generalizing s k with
  | nil =>
    obtain rfl := Except.ok.inj h
    exact hs
  | cons v vs ih =>
    unfold memWrites at h
    split at h
    · cases h
    next s' h' =>
      obtain ⟨hi, rfl⟩ := memWrite_eq_ok.1 h'
      exact ih h (hP _ k v hi hs)

/-- FORM changes the memory by writes of implemented entries alone. -/
theorem form_mem_induction {P : Memory S → Prop}
    (hP : ∀ (m : Memory S) (b : Bank) k v, b.implemented c k = true → P m → P (m.write (b.address k) v))
    (h : form c s = .ok t) (hs : P s.mem) : P t.mem := by
  unfold form at h
  split at h
  · cases h
  split at h
  · cases h
  split at h
  · cases h
  next s₁ h₁ =>
    split at h
    · cases h
    next s₂ h₂ =>
      obtain rfl := Except.ok.inj h
      have hI : P s₁.mem := memWrites_mem_induction (fun m => hP m .ybI) h₁ hs
      have hQ : P s₂.mem := memWrites_mem_induction (fun m => hP m .ybQ) h₂ hI
      exact hQ

theorem form_mem_wf (h : form c s = .ok t) (hs : s.mem.wf = true) : t.mem.wf = true :=
  form_mem_induction (P := fun m => m.wf = true) (fun m b k v _ => m.write_wf (b.address k) v) h hs

theorem form_mem_mapped (h : form c s = .ok t) (hs : s.mem.mapped c = true) : t.mem.mapped c = true :=
  form_mem_induction (P := fun m => m.mapped c = true) (fun m b k v => m.write_mapped c b k v) h hs

/-- A record that FORM stores fits the index space of a bank. -/
theorem len_le_of_form (h : form c s = .ok t) : s.len.toNat ≤ 2 ^ 24 := by
  obtain ⟨-, -, hfit, -, -⟩ := form_eq_ok h
  have hmax := c.maxLen_le
  by_contra hlt
  have := hfit (2 ^ 24) (by omega)
  omega

/-- FORM leaves every address outside the output banks as it was. -/
theorem form_read_frame (h : form c s = .ok t) {a : Nat} (hI : a / 2 ^ 24 ≠ 0x09)
    (hQ : a / 2 ^ 24 ≠ 0x0A) : t.mem.read a = s.mem.read a := by
  have hlen := len_le_of_form h
  obtain ⟨-, -, -, -, hread⟩ := form_eq_ok h
  rw [hread, if_neg, if_neg]
  · simp only [Bank.address, Bank.number]; omega
  · simp only [Bank.address, Bank.number]; omega

/-- After FORM, `YB_I` holds the in-phase stream up to LEN, and beyond what it held (42 R114). -/
theorem form_entry_ybI (h : form c s = .ok t) {n : Nat} (hn : n < 2 ^ 24) :
    t.entry .ybI n = if n < s.len.toNat then s.ib[n]? else s.entry .ybI n := by
  obtain ⟨-, -, -, -, hread⟩ := form_eq_ok h
  unfold Block.entry
  rw [hread, if_neg (by simp only [Bank.address, Bank.number]; omega)]
  simp [Bank.address]

/-- After FORM, `YB_Q` holds the quadrature stream up to LEN, and beyond what it held (42 R114). -/
theorem form_entry_ybQ (h : form c s = .ok t) {n : Nat} (hn : n < 2 ^ 24) :
    t.entry .ybQ n = if n < s.len.toNat then s.qb[n]? else s.entry .ybQ n := by
  have hlen := len_le_of_form h
  obtain ⟨-, -, -, -, hread⟩ := form_eq_ok h
  have hI : ¬ (Bank.address .ybI 0 ≤ Bank.address .ybQ n ∧
      Bank.address .ybQ n < Bank.address .ybI 0 + s.len.toNat) := by
    simp only [Bank.address, Bank.number]; omega
  unfold Block.entry
  rw [hread, if_neg hI]
  simp [Bank.address]

/-! ## What every stage operation keeps -/

/-- Two blocks agree on the configuration registers, on THR and on the memory outside the output banks: on all
that 10 R36 forbids a run to write. -/
def KeepsInputs (s t : Block S) : Prop :=
  t.len = s.len ∧ t.bpOrd = s.bpOrd ∧ t.lpOrd = s.lpOrd ∧ t.loPer = s.loPer ∧ t.loStep = s.loStep ∧
  t.thr = s.thr ∧ ∀ a, a / 2 ^ 24 ≠ 0x09 → a / 2 ^ 24 ≠ 0x0A → t.mem.read a = s.mem.read a

theorem KeepsInputs.refl (s : Block S) : KeepsInputs s s :=
  ⟨rfl, rfl, rfl, rfl, rfl, rfl, fun _ _ _ => rfl⟩

/-- An entry outside the output banks is kept. -/
theorem KeepsInputs.entry (h : KeepsInputs s t) (hb : b.isOutput = false) (hk : k < 2 ^ 24) :
    t.entry b k = s.entry b k := by
  obtain ⟨-, -, -, -, -, -, hread⟩ := h
  have hn := number_lt_of_not_output hb
  have ha : b.address k / 2 ^ 24 = b.number := bankOf_address b k hk
  exact hread _ (by omega) (by omega)

theorem check_keepsInputs (h : check c s = .ok t) : KeepsInputs s t := by
  rcases check_eq_ok.1 h with ⟨-, rfl⟩ | ⟨-, -, rfl⟩
  · exact KeepsInputs.refl s
  · exact KeepsInputs.refl s

theorem bpf_keepsInputs (h : bpf c s = .ok t) : KeepsInputs s t := by
  obtain ⟨_, _, _, -, -, -, rfl⟩ := bpf_eq_ok.1 h
  exact KeepsInputs.refl s

theorem mix_keepsInputs (h : mix c s = .ok t) : KeepsInputs s t := by
  obtain ⟨_, _, -, -, -, -, rfl⟩ := mix_eq_ok.1 h
  exact KeepsInputs.refl s

theorem lpfI_keepsInputs (h : lpfI c s = .ok t) : KeepsInputs s t := by
  obtain ⟨_, _, -, -, -, rfl⟩ := lpfI_eq_ok.1 h
  exact KeepsInputs.refl s

theorem lpfQ_keepsInputs (h : lpfQ c s = .ok t) : KeepsInputs s t := by
  obtain ⟨_, _, -, -, -, rfl⟩ := lpfQ_eq_ok.1 h
  exact KeepsInputs.refl s

theorem form_keepsInputs (h : form c s = .ok t) : KeepsInputs s t := by
  obtain ⟨-, -, -, ht, -⟩ := form_eq_ok h
  have hframe := fun a => form_read_frame h (a := a)
  rw [ht] at hframe ⊢
  exact ⟨rfl, rfl, rfl, rfl, rfl, rfl, hframe⟩

theorem env_keepsInputs (h : env c s = .ok t) : KeepsInputs s t := by
  obtain ⟨-, -, rfl⟩ := env_eq_ok.1 h
  exact KeepsInputs.refl s

theorem stat_keepsInputs (h : stat c s = .ok t) : KeepsInputs s t := by
  obtain ⟨_, _, -, -, rfl⟩ := stat_eq_ok.1 h
  exact KeepsInputs.refl s

theorem gate_keepsInputs (h : gate c s = .ok t) : KeepsInputs s t := by
  obtain ⟨_, _, -, -, rfl⟩ := gate_eq_ok.1 h
  exact KeepsInputs.refl s

/-- The block after a stage operation is the one that the operation answers. -/
theorem stageOp_of_exec {x : Except Stop (Block Sample)} {y z : State}
    (h : outcomeOf (y.afterStage x) = .next z) : x = .ok z.toBlock := by
  obtain ⟨b, hb, hz⟩ := afterStage_eq_ok.1 (outcomeOf_eq_next.1 h)
  rw [hb, hz, withBlock_toBlock]

/-- Settles O46, operation by operation; only FORM writes the memory. -/
theorem runsKeepSessionAndEventState : Obligations.RunsKeepSessionAndEventState := by
  intro i s t hi h
  cases i with
  | check => exact check_keepsInputs (stageOp_of_exec h)
  | bpf => exact bpf_keepsInputs (stageOp_of_exec h)
  | mix => exact mix_keepsInputs (stageOp_of_exec h)
  | lpfI => exact lpfI_keepsInputs (stageOp_of_exec h)
  | lpfQ => exact lpfQ_keepsInputs (stageOp_of_exec h)
  | form => exact form_keepsInputs (stageOp_of_exec h)
  | env => exact env_keepsInputs (stageOp_of_exec h)
  | stat => exact stat_keepsInputs (stageOp_of_exec h)
  | gate => exact gate_keepsInputs (stageOp_of_exec h)
  | run => cases hi
  | clear => cases hi
  | sreset => cases hi
  | wr => cases hi
  | rd => cases hi

end Sys2Proof.Machine
end

section
/-!
The invariant by stage: what the memory, the operands and the products of a run hold at a stage, apart from
the stage itself and the flags.
-/

namespace Sys2Proof.Machine

variable {S : Type} {c : Config S} {s t : Block S} {st : Stage}

/-- How many elements the product of the operation that ends at `progress` has at a stage: LEN once that
operation has run, none before (10 R28). -/
def made (st : Stage) (progress : Nat) (len : Word) : Nat :=
  if progress ≤ st.progress then len.toNat else 0

theorem lt_made_iff {progress n : Nat} {len : Word} :
    n < made st progress len ↔ progress ≤ st.progress ∧ n < len.toNat := by
  unfold made
  split <;> simp [*]

/-- A stream of `n` well-formed values. -/
def WfStream (c : Config S) (n : Nat) (l : List S) : Prop := l.length = n ∧ AllWf c.num l

/-- A location that holds a well-formed value when `p`, and `none` otherwise. -/
def HoldsIf (c : Config S) (p : Prop) [Decidable p] (o : Option S) : Prop :=
  if p then holdsWf c o = true else o = none

theorem holdsIf_iff {p : Prop} [Decidable p] {o : Option S} :
    HoldsIf c p o ↔ (o.isSome = true ↔ p) ∧ ∀ v, o = some v → c.num.wf v = true := by
  unfold HoldsIf
  by_cases hp : p <;> cases o <;> simp [hp, holdsWf]

/-- A bank that holds well-formed values at the indexes below `count`, and `none` from there up. -/
def FilledTo (c : Config S) (count : Nat) (s : Block S) (b : Bank) : Prop :=
  ∀ n, n < 2 ^ 24 → HoldsIf c (n < count) (s.entry b n)

/-- The invariant but for the stage and the flags. The stage `st` decides, by its progress, which products exist;
all of it is stated by a function of `st`, so that for two given stages that agree on a product the two
statements about it are the same by computation. -/
structure Held (c : Config S) (st : Stage) (s : Block S) : Prop where
  mem_wf : s.mem.wf = true
  mem_mapped : s.mem.mapped c = true
  inputs : if 2 ≤ st.progress then Configured c s ∧ Needed c s else True
  ybp : WfStream c (made st 3 s.len) s.ybp
  i : WfStream c (made st 4 s.len) s.i
  q : WfStream c (made st 4 s.len) s.q
  ib : WfStream c (made st 5 s.len) s.ib
  qb : WfStream c (made st 6 s.len) s.qb
  m : WfStream c (made st 8 s.len) s.m
  peak : HoldsIf c (9 ≤ st.progress) s.peak
  median : HoldsIf c (9 ≤ st.progress) s.median
  ybI : FilledTo c (made st 7 s.len) s .ybI
  ybQ : FilledTo c (made st 7 s.len) s .ybQ

/-- An output bank in the invariant's terms. -/
theorem filledTo_iff {b : Bank} :
    FilledTo c (made s.stage 7 s.len) s b ↔
      OutputBank s b ∧ ∀ n v, n < 2 ^ 24 → s.entry b n = some v → c.num.wf v = true := by
  unfold FilledTo OutputBank
  simp only [holdsIf_iff, lt_made_iff]
  exact ⟨fun h => ⟨fun n hn => (h n hn).1, fun n v hn => (h n hn).2 v⟩,
    fun ⟨h, hw⟩ n hn => ⟨h n hn, fun v => hw n v hn⟩⟩

theorem Inv.held (h : Inv c s) : Held c s.stage s := by
  obtain ⟨hstreams, hpeak, hmedian, hI, hQ⟩ := h.produced_wf
  simp only [List.mem_append, or_imp, forall_and] at hstreams
  obtain ⟨⟨⟨⟨⟨hybp, hi⟩, hq⟩, hib⟩, hqb⟩, hm⟩ := hstreams
  exact {
    mem_wf := h.mem_wf
    mem_mapped := h.mem_mapped
    inputs := by
      split
      · next hp => exact h.configured hp
      · trivial
    ybp := ⟨h.ybp_length, hybp⟩
    i := ⟨h.i_length, hi⟩
    q := ⟨h.q_length, hq⟩
    ib := ⟨h.ib_length, hib⟩
    qb := ⟨h.qb_length, hqb⟩
    m := ⟨h.m_length, hm⟩
    peak := holdsIf_iff.2 ⟨h.peak_iff, hpeak⟩
    median := holdsIf_iff.2 ⟨h.median_iff, hmedian⟩
    ybI := filledTo_iff.2 ⟨h.ybI_bank, hI⟩
    ybQ := filledTo_iff.2 ⟨h.ybQ_bank, hQ⟩ }

/-- The invariant from its part by stage and the flags. -/
theorem Held.inv (h : Held c st s) (hst : s.stage = st) (hresult : s.result ≠ .none ↔ st = .done)
    (herrcode : s.errcode ≠ .none ↔ st = .error)
    (houtLen : s.outLen = if s.result = .signalPresent then s.len else 0#32) : Inv c s := by
  subst hst
  obtain ⟨hpeak, hpeakWf⟩ := holdsIf_iff.1 h.peak
  obtain ⟨hmedian, hmedianWf⟩ := holdsIf_iff.1 h.median
  obtain ⟨hI, hIWf⟩ := filledTo_iff.1 h.ybI
  obtain ⟨hQ, hQWf⟩ := filledTo_iff.1 h.ybQ
  exact {
    mem_wf := h.mem_wf
    mem_mapped := h.mem_mapped
    result_iff := hresult
    errcode_iff := herrcode
    outLen_eq := houtLen
    configured := fun hp => by simpa [hp] using h.inputs
    ybp_length := h.ybp.1
    i_length := h.i.1
    q_length := h.q.1
    ib_length := h.ib.1
    qb_length := h.qb.1
    m_length := h.m.1
    peak_iff := hpeak
    median_iff := hmedian
    ybI_bank := hI
    ybQ_bank := hQ
    produced_wf := by
      refine ⟨?_, hpeakWf, hmedianWf, hIWf, hQWf⟩
      simp only [List.mem_append, or_imp, forall_and]
      exact ⟨⟨⟨⟨⟨h.ybp.2, h.i.2⟩, h.q.2⟩, h.ib.2⟩, h.qb.2⟩, h.m.2⟩ }

/-- The invariant in a stage other than DONE and ERROR, where the flags are clear (10 R14, R15, R21). -/
structure Running (c : Config S) (st : Stage) (s : Block S) : Prop extends Held c st s where
  stage : s.stage = st
  result : s.result = .none
  errcode : s.errcode = .none
  outLen : s.outLen = 0#32

theorem Inv.running (h : Inv c s) (hst : s.stage = st) (hd : st ≠ .done := by decide)
    (he : st ≠ .error := by decide) : Running c st s := by
  subst hst
  have hresult : s.result = .none := not_not.1 (mt h.result_iff.1 hd)
  exact {
    h.held with
    stage := rfl
    result := hresult
    errcode := not_not.1 (mt h.errcode_iff.1 he)
    outLen := by simpa [hresult] using h.outLen_eq }

theorem Running.inv (h : Running c st s) (hd : st ≠ .done := by decide)
    (he : st ≠ .error := by decide) : Inv c s :=
  h.toHeld.inv h.stage (by simp [h.result, hd]) (by simp [h.errcode, he]) (by simp [h.result, h.outLen])

/-! ## The operations of the sequencer, one stage each -/

/-- The values read from entries that hold well-formed values are well formed. -/
theorem Holds.allWf {b : Bank} {ks : List Nat} {vs : List S} (h : Holds c s b ks vs)
    (hw : ∀ k ∈ ks, EntryWf c s b k) : AllWf c.num vs := by
  obtain ⟨-, hmap⟩ := h
  intro v hv
  obtain ⟨k, hk, hkv⟩ := List.mem_map.1 (hmap ▸ List.mem_map_of_mem (f := some) hv)
  obtain ⟨w, hw, hwf⟩ := hw k hk
  rw [hkv, Option.some.injEq] at hw
  exact hw ▸ hwf

/-- The coefficients that a filter reads are well formed (20 R48). -/
theorem coefficients_allWf {bB bA : Bank} {M : Nat} {bs as : List S}
    (hB : ∀ k, k ≤ M → EntryWf c s bB k) (hA : ∀ k, 1 ≤ k → k ≤ M → EntryWf c s bA k)
    (hb : Holds c s bB (List.range (M + 1)) bs) (ha : Holds c s bA (List.range' 1 M) as) :
    AllWf c.num bs ∧ AllWf c.num as := by
  refine ⟨hb.allWf fun k hk => hB k ?_, ha.allWf fun k hk => hA k ?_ ?_⟩
  · rw [List.mem_range] at hk; omega
  · rw [List.mem_range'_1] at hk; omega
  · rw [List.mem_range'_1] at hk; omega

/-- The tones that MIX reads are one for each sample and well formed (20 R48). -/
theorem tones_wfStream {b : Bank} {P step n : Nat} {vs : List S} (hP : 0 < P)
    (hB : ∀ k, k < P → EntryWf c s b k) (h : Holds c s b (phases P step n) vs) : WfStream c n vs :=
  ⟨by rw [h.length, length_phases], h.allWf fun k hk => hB k (lt_of_mem_phases hP hk)⟩

theorem mixStream_wfStream {n : Nat} {y tones : List S} (hy : WfStream c n y) (ht : WfStream c n tones) :
    WfStream c n (mixStream c.num (y.take n) tones) :=
  ⟨by simp [mixStream, hy.1, ht.1], allWf_mixStream c.lawful (hy.2.take n) ht.2⟩

/-- A configuration that is legal stays so while its registers do. -/
theorem KeepsInputs.configured (h : KeepsInputs s t) (hc : Configured c s) : Configured c t := by
  obtain ⟨hlen, hbp, hlp, hper, hstep, -, -⟩ := h
  unfold Configured
  rwa [hlen, hbp, hlp, hper, hstep]

/-- The needed set stays met while the inputs do; a legal configuration keeps its indexes inside the banks. -/
theorem KeepsInputs.needed (h : KeepsInputs s t) (hc : Configured c s) (hn : Needed c s) : Needed c t := by
  have hord := c.maxOrd_le
  have hmaxLen := c.maxLen_le
  have hmaxPer := c.maxPer_le
  have hentry : ∀ (b : Bank) k, b.isOutput = false → k < 2 ^ 24 → EntryWf c s b k → EntryWf c t b k := by
    intro b k hb hk
    unfold EntryWf
    rw [h.entry hb hk]
    exact id
  obtain ⟨⟨-, hlen⟩, hbp, hlp, ⟨-, hper⟩, -⟩ := hc
  obtain ⟨nthr, nbpB, nbpA, nlpB, nlpA, ncos, nsin, nx⟩ := hn
  obtain ⟨elen, ebp, elp, eper, -, ethr, -⟩ := h
  unfold Needed
  rw [elen, ebp, elp, eper, ethr]
  exact ⟨nthr, fun k hk => hentry .bpB k rfl (by omega) (nbpB k hk),
    fun k h1 hk => hentry .bpA k rfl (by omega) (nbpA k h1 hk),
    fun k hk => hentry .lpB k rfl (by omega) (nlpB k hk),
    fun k h1 hk => hentry .lpA k rfl (by omega) (nlpA k h1 hk),
    fun k hk => hentry .loCos k rfl (by omega) (ncos k hk),
    fun k hk => hentry .loSin k rfl (by omega) (nsin k hk),
    fun k hk => hentry .x k rfl (by omega) (nx k hk)⟩

theorem check_inv (h : Running c .check s) (e : check c s = .ok t) : Inv c t := by
  rcases check_eq_ok.1 e with ⟨hbad, rfl⟩ | ⟨hgood, hneeded, rfl⟩
  · have held : Held c .error (raiseError (configTest c s) s) := { h with }
    exact held.inv rfl (by simp [h.result]) (by simp [hbad]) (by simp [h.result, h.outLen])
  · have running : Running c .bpf { s with stage := .bpf } :=
      { h with
        stage := rfl
        inputs := ⟨configTest_eq_none.1 hgood, neededWf_iff.1 hneeded⟩ }
    exact running.inv

theorem bpf_running (h : Running c .bpf s) (e : bpf c s = .ok t) : Running c .mix t := by
  obtain ⟨bs, as, u, hb, ha, hu, rfl⟩ := bpf_eq_ok.1 e
  obtain ⟨-, -, hB, hA, -, -, -, -, hx⟩ := h.inputs
  obtain ⟨hbs, has⟩ := coefficients_allWf hB hA hb ha
  have hrecord : AllWf c.num u := hu.allWf fun k hk => hx k (List.mem_range.1 hk)
  exact { h with
    stage := rfl
    ybp := ⟨length_iir .., allWf_iir c.lawful hbs has hrecord _ _⟩ }

theorem mix_running (h : Running c .mix s) (e : mix c s = .ok t) : Running c .lpfI t := by
  obtain ⟨cosines, sines, -, -, hcos, hsin, rfl⟩ := mix_eq_ok.1 e
  obtain ⟨⟨-, -, -, ⟨hper, -⟩, -⟩, -, -, -, -, -, hC, hS, -⟩ := h.inputs
  exact { h with
    stage := rfl
    i := mixStream_wfStream h.ybp (tones_wfStream hper hC hcos)
    q := mixStream_wfStream h.ybp (tones_wfStream hper hS hsin) }

theorem lpfI_running (h : Running c .lpfI s) (e : lpfI c s = .ok t) : Running c .lpfQ t := by
  obtain ⟨bs, as, hb, ha, -, rfl⟩ := lpfI_eq_ok.1 e
  obtain ⟨-, -, -, -, hB, hA, -⟩ := h.inputs
  obtain ⟨hbs, has⟩ := coefficients_allWf hB hA hb ha
  exact { h with
    stage := rfl
    ib := ⟨length_iir .., allWf_iir c.lawful hbs has (h.i.2.take _) _ _⟩ }

theorem lpfQ_running (h : Running c .lpfQ s) (e : lpfQ c s = .ok t) : Running c .form t := by
  obtain ⟨bs, as, hb, ha, -, rfl⟩ := lpfQ_eq_ok.1 e
  obtain ⟨-, -, -, -, hB, hA, -⟩ := h.inputs
  obtain ⟨hbs, has⟩ := coefficients_allWf hB hA hb ha
  exact { h with
    stage := rfl
    qb := ⟨length_iir .., allWf_iir c.lawful hbs has (h.q.2.take _) _ _⟩ }

/-- A bank into which a whole stream has been stored, over an empty one. -/
theorem filledTo_of_stored {b : Bank} {l : List S} {n : Nat} (hl : WfStream c n l) (hs : FilledTo c 0 s b)
    (ht : ∀ k, k < 2 ^ 24 → t.entry b k = if k < n then l[k]? else s.entry b k) : FilledTo c n t b := by
  intro k hk
  rw [ht k hk, holdsIf_iff]
  by_cases hkn : k < n
  · have hkl : k < l.length := hl.1 ▸ hkn
    simp [hkn, hkl, hl.2 _ (List.getElem_mem hkl)]
  · simpa [hkn, holdsIf_iff] using hs k hk

theorem form_running (h : Running c .form s) (e : form c s = .ok t) : Running c .env t := by
  have hkeeps := form_keepsInputs e
  obtain ⟨hconf, hneeded⟩ := h.inputs
  have hI := filledTo_of_stored h.ib h.ybI fun k => form_entry_ybI e
  have hQ := filledTo_of_stored h.qb h.ybQ fun k => form_entry_ybQ e
  have hinputs : Configured c t ∧ Needed c t := ⟨hkeeps.configured hconf, hkeeps.needed hconf hneeded⟩
  have hwf := form_mem_wf e h.mem_wf
  have hmapped := form_mem_mapped e h.mem_mapped
  obtain ⟨-, -, -, ht, -⟩ := form_eq_ok e
  rw [ht] at hI hQ hinputs hwf hmapped ⊢
  exact { h with
    stage := rfl
    mem_wf := hwf
    mem_mapped := hmapped
    inputs := hinputs
    ybI := hI
    ybQ := hQ }

theorem env_running (h : Running c .env s) (e : env c s = .ok t) : Running c .stat t := by
  obtain ⟨hib, hqb, rfl⟩ := env_eq_ok.1 e
  have hlength : (envelope c.num (s.ib.take s.len.toNat) (s.qb.take s.len.toNat)).length = s.len.toNat := by
    simp [envelope, hib, hqb]
  exact { h with
    stage := rfl
    m := ⟨hlength, allWf_envelope c.lawful (h.ib.2.take _) (h.qb.2.take _)⟩ }

theorem stat_running (h : Running c .stat s) (e : stat c s = .ok t) : Running c .gate t := by
  obtain ⟨first, rest, -, hm, rfl⟩ := stat_eq_ok.1 e
  have hwf : AllWf c.num (first :: rest) := hm ▸ h.m.2.take _
  exact { h with
    stage := rfl
    peak := wf_peakOf hwf
    median := wf_med c.lawful hwf }

theorem gate_inv (h : Running c .gate s) (e : gate c s = .ok t) : Inv c t := by
  obtain ⟨peak, thr, -, -, rfl⟩ := gate_eq_ok.1 e
  have held : Held c .done { s with
      result := gateResult (c.num.lt peak thr)
      outLen := gateOutLen (c.num.lt peak thr) s.len
      stage := .done } := { h with }
  refine held.inv rfl ?_ (by simp [h.errcode]) ?_
  · cases c.num.lt peak thr <;> simp [gateResult]
  · cases c.num.lt peak thr <;> simp [gateResult, gateOutLen]

/-- A turn of the sequencer keeps the invariant. -/
theorem stageOp_inv (h : Inv c s) (e : stageOp c s = .ok t) : Inv c t := by
  obtain ⟨st, hs⟩ : ∃ st, s.stage = st := ⟨_, rfl⟩
  rw [stageOp, hs] at e
  cases st with
  | check => exact check_inv (h.running hs) e
  | bpf => exact (bpf_running (h.running hs) e).inv
  | mix => exact (mix_running (h.running hs) e).inv
  | lpfI => exact (lpfI_running (h.running hs) e).inv
  | lpfQ => exact (lpfQ_running (h.running hs) e).inv
  | form => exact (form_running (h.running hs) e).inv
  | env => exact (env_running (h.running hs) e).inv
  | stat => exact (stat_running (h.running hs) e).inv
  | gate => exact gate_inv (h.running hs) e
  | idle => exact Except.ok.inj e ▸ h
  | done => exact Except.ok.inj e ▸ h
  | error => exact Except.ok.inj e ▸ h

end Sys2Proof.Machine
end

section
/-!
The invariant at reset, at the port and over a step.
-/

namespace Sys2Proof.Machine

variable {S : Type} {c : Config S} {s t : Block S} {l : Loc}

/-! ## The clearing events -/

/-- CLEAR empties the output banks (10 R35). -/
theorem clearColumn_entry_output {b : Bank} {n : Nat} (hb : b.isOutput = true) (hn : n < 2 ^ 24) :
    (clearColumn s).entry b n = none := by
  unfold Block.entry
  rw [clearColumn_mem, Memory.read_discard, Memory.read_discard, bankOf_address b n hn]
  cases b with
  | ybI => simp
  | ybQ => simp
  | _ => cases hb

theorem clearColumn_filledTo {b : Bank} (hb : b.isOutput = true) : FilledTo c 0 (clearColumn s) b :=
  fun n hn => holdsIf_iff.2 (by simp [clearColumn_entry_output hb hn])

theorem wfStream_nil : WfStream c 0 [] := ⟨rfl, fun _ hx => nomatch hx⟩

/-- Column "CLEAR" meets the invariant, whatever the run had come to (10 R35). -/
theorem clearColumn_inv (hwf : s.mem.wf = true) (hmapped : s.mem.mapped c = true) :
    Inv c (clearColumn s) := by
  have idle : Running c .idle (clearColumn s) := {
    stage := rfl
    result := rfl
    errcode := rfl
    outLen := rfl
    mem_wf := Memory.discard_wf _ _ (Memory.discard_wf _ _ (Memory.discard_wf _ _ hwf))
    mem_mapped :=
      Memory.discard_mapped c _ _ (Memory.discard_mapped c _ _ (Memory.discard_mapped c _ _ hmapped))
    inputs := trivial
    ybp := wfStream_nil
    i := wfStream_nil
    q := wfStream_nil
    ib := wfStream_nil
    qb := wfStream_nil
    m := wfStream_nil
    peak := rfl
    median := rfl
    ybI := clearColumn_filledTo rfl
    ybQ := clearColumn_filledTo rfl }
  exact idle.inv

/-- After reset nothing is left for CLEAR to change, so column "reset" meets the invariant too. -/
theorem reset_inv : Inv c (Block.reset : Block S) :=
  clearColumn_inv (s := Block.reset) rfl rfl

/-- Settles O47, on the configuration of the machine. -/
theorem invariantHoldsAtReset : Obligations.InvariantHoldsAtReset := reset_inv

/-! ## The port -/

theorem runCommand_inv (h : Inv c s) : Inv c (runCommand s).1 := by
  unfold runCommand
  split
  · next hs =>
    have running : Running c .check { s with stage := .check } := { h.running hs with stage := rfl }
    exact running.inv
  · exact h

theorem clearCommand_inv (h : Inv c s) : Inv c (clearCommand s).1 := by
  unfold clearCommand
  split
  · exact h
  · exact clearColumn_inv h.mem_wf h.mem_mapped

theorem sresetCommand_inv (h : Inv c s) : Inv c (sresetCommand s).1 := by
  unfold sresetCommand
  split
  · exact h
  · exact reset_inv

theorem commandWrite_inv (w : Word) (h : Inv c s) : Inv c (commandWrite w s).1 := by
  unfold commandWrite
  split
  · exact runCommand_inv h
  split
  · exact clearCommand_inv h
  split
  · exact sresetCommand_inv h
  · exact h

/-- The value of an input entry is part of no product (20 R41). -/
theorem setEntry_idle {b : Bank} {k : Nat} (v : S) (h : Running c .idle s) (hb : b.isOutput = false)
    (hk : b.implemented c k = true) : Running c .idle (s.setEntry b k v) := by
  have hother : ∀ b' : Bank, b'.isOutput = true → ∀ n, n < 2 ^ 24 →
      (s.setEntry b k v).entry b' n = s.entry b' n := by
    intro b' hb' n hn
    rw [entry_setEntry s b b' k n v (implemented_lt c b k hk) hn, if_neg]
    rintro ⟨rfl, -⟩
    rw [hb] at hb'
    cases hb'
  exact { h with
    mem_wf := Memory.write_wf _ _ _ h.mem_wf
    mem_mapped := Memory.write_mapped c _ b k v hk h.mem_mapped
    ybI := fun n hn => hother .ybI rfl n hn ▸ h.ybI n hn
    ybQ := fun n hn => hother .ybQ rfl n hn ▸ h.ybQ n hn }

/-- A control word that the port accepts keeps the invariant: the registers are written in IDLE, where no
product has the length that they give. -/
theorem writeWord_inv (w : Word) (h : Inv c s) (hw : writable s.stage l = true) :
    Inv c (writeWord w s l).1 := by
  cases l with
  | cmd => exact commandWrite_inv w h
  | len => exact Running.inv (st := .idle) { h.running (beq_iff_eq.1 hw) with }
  | bpOrd => exact Running.inv (st := .idle) { h.running (beq_iff_eq.1 hw) with }
  | lpOrd => exact Running.inv (st := .idle) { h.running (beq_iff_eq.1 hw) with }
  | loPer => exact Running.inv (st := .idle) { h.running (beq_iff_eq.1 hw) with }
  | loStep => exact Running.inv (st := .idle) { h.running (beq_iff_eq.1 hw) with }
  | _ => exact h

/-- A value that the port accepts keeps the invariant. -/
theorem writeValue_inv (v : S) (h : Inv c s) (hw : writable s.stage l = true)
    (hl : ∀ b k, l = .entry b k → b.implemented c k = true) : Inv c (writeValue v s l).1 := by
  cases l with
  | thr => exact Running.inv (st := .idle) { h.running (beq_iff_eq.1 hw) with }
  | entry b k =>
    obtain ⟨hb, hs⟩ := Bool.and_eq_true_iff.1 hw
    exact (setEntry_idle v (h.running (beq_iff_eq.1 hs)) (by simpa using hb) (hl b k rfl)).inv
  | _ => exact h

theorem ctrlLoc_ne_entry (n : Nat) (b : Bank) (k : Nat) : ctrlLoc n ≠ .entry b k := by
  unfold ctrlLoc
  split <;> exact nofun

theorem nregLoc_ne_entry (n : Nat) (b : Bank) (k : Nat) : nregLoc n ≠ .entry b k := by
  unfold nregLoc
  split <;> exact nofun

/-- The entry that an address resolves to exists (20 R41). -/
theorem implemented_of_resolve {bank : BankNo} {index : Index} {b : Bank} {k : Nat}
    (h : resolve c bank index = .entry b k) : b.implemented c k = true := by
  have hu : ¬ Unimplemented c bank index := by
    rw [← resolve_eq_unimplemented, h]
    exact nofun
  have h0 : bank.toNat ≠ 0 := fun h0 => ctrlLoc_ne_entry _ b k ((resolve_ctrl h0).symm.trans h)
  have h1 : bank.toNat ≠ 1 := fun h1 => nregLoc_ne_entry _ b k ((resolve_nreg h1).symm.trans h)
  have hA : ¬ 0x0B ≤ bank.toNat := fun hA => hu (resolve_eq_unimplemented.1 (resolve_high hA))
  obtain ⟨b', hb', -, hi, -⟩ := resolve_entry (by omega) (by omega) hu
  cases hb'.symm.trans h
  exact hi

theorem writeLoc_inv (p : Payload S) {bank : BankNo} {index : Index} (h : Inv c s)
    (hw : writable s.stage (resolve c bank index) = true) :
    Inv c (writeLoc p s (resolve c bank index)).1 := by
  cases p with
  | word w => exact writeWord_inv w h hw
  | value v => exact writeValue_inv v h hw fun b k => implemented_of_resolve

/-! ## A step -/

/-- What a transaction can do to the block: nothing, or the write of a location that 20 R46 accepts. -/
theorem perform_toBlock {draw : Nat → S} {y z : System S} {x : Transaction S}
    (h : y.perform c draw x = .ok z) :
    z.toBlock = y.toBlock ∨ ∃ p bank index, writable y.stage (resolve c bank index) = true ∧
      z.toBlock = (writeLoc p y.toBlock (resolve c bank index)).1 := by
  cases x with
  | read bank index =>
    obtain rfl := Except.ok.inj h
    exact .inl (answerRead_toBlock ..)
  | write bank index p =>
    by_cases hp : p.fits bank = true
    · obtain rfl := Except.ok.inj ((perform_write hp).symm.trans h)
      by_cases hw : writable y.stage (resolve c bank index) = true
      · exact .inr ⟨p, bank, index, hw, by rw [if_pos hw, transact_toBlock]⟩
      · exact .inl (by rw [if_neg hw, transact_toBlock])
    · simp [System.perform, hostWrite, hp, Except.map] at h

theorem perform_inv {draw : Nat → S} {y z : System S} {x : Transaction S} (h : Inv c y.toBlock)
    (hz : y.perform c draw x = .ok z) : Inv c z.toBlock := by
  rcases perform_toBlock hz with e | ⟨p, bank, index, hw, e⟩
  · exact e ▸ h
  · exact e ▸ writeLoc_inv p h hw

theorem sequencerTurn_inv {y z : System S} (h : Inv c y.toBlock) (hz : y.sequencerTurn c = .ok z) :
    Inv c z.toBlock := by
  obtain ⟨b, hb, rfl⟩ := afterStage_eq_ok.1 hz
  exact stageOp_inv h hb

theorem hostTurn_inv {draw : Nat → S} {y z : System S} {header : BitVec 33} {p : Option (Payload S)}
    (h : Inv c y.toBlock) (hz : System.hostTurn c draw header p y = .ok z) : Inv c z.toBlock := by
  unfold System.hostTurn at hz
  split at hz
  · exact perform_inv h hz
  · cases hz

/-- Over any type of values, a step keeps the invariant, whichever agent moves. -/
theorem systemStep_inv {draw : Nat → S} {y z : System S} (h : Inv c y.toBlock)
    (hz : System.step c draw y = .ok z) : Inv c z.toBlock := by
  unfold System.step at hz
  split at hz
  · exact sequencerTurn_inv h hz
  · next rest _ => exact sequencerTurn_inv (y := { y with agenda := rest }) h hz
  · next rest _ => exact hostTurn_inv (y := { y with agenda := rest }) h hz
  · obtain rfl := Except.ok.inj hz
    exact reset_inv

/-- Settles O48: the step is the system's, and each of the system's agents keeps the invariant. -/
theorem everyStepKeepsTheInvariant : Obligations.EveryStepKeepsTheInvariant := by
  intro s t h hstep
  rw [stepIsTheSystemsStep s, outcomeOf_eq_next] at hstep
  exact systemStep_inv h hstep

end Sys2Proof.Machine
end

section
/-!
The reset state and the control registers at the port (10 R13 to R22, R35).
-/

namespace Sys2Proof.Machine

variable {s : State} {bank : BankNo} {index : Index}

/-- Settles O7, item by item of the column. -/
theorem resetStateHasTheResetColumn : Obligations.ResetStateHasTheResetColumn :=
  ⟨⟨rfl, rfl, rfl, rfl, rfl, rfl, rfl, rfl, rfl, rfl, rfl, rfl, fun _ => rfl, rfl, rfl, rfl, rfl, rfl, rfl⟩,
    rfl, rfl, rfl⟩

/-- An accepted read of a control register answers its word and changes nothing else. -/
theorem exec_rd_word {w : Word}
    (hr : readable s.stage s.outLen (resolve Config.machine bank index) = true)
    (hw : readLoc s.toBlock (resolve Config.machine bank index) = .word w) :
    exec (.rd bank index) s = .next { s with response := some (.okWord w) } := by
  rw [exec_rd, if_pos hr, hw]
  rfl

/-- The STATUS word, field by field (10 R13). -/
theorem statusWord_fields {S : Type} (b : Block S) :
    (statusWord b).extractLsb' 0 4 = b.stage.code ∧ (statusWord b).extractLsb' 8 2 = b.result.code ∧
    (statusWord b).extractLsb' 4 4 = 0#4 ∧ (statusWord b).extractLsb' 10 22 = 0#22 := by
  unfold statusWord
  generalize b.stage.code = st
  generalize b.result.code = r
  revert st r
  decide

/-- The ERRCODE word, field by field (10 R15). -/
theorem errcodeWord_fields {S : Type} (b : Block S) :
    (errcodeWord b).extractLsb' 0 8 = b.errcode.code ∧ (errcodeWord b).extractLsb' 8 24 = 0#24 := by
  unfold errcodeWord
  cases b.errcode <;> decide

/-- Settles O14: STATUS is readable and not writable in every stage. -/
theorem statusReadsStageAndResult : Obligations.StatusReadsStageAndResult := by
  intro s
  obtain ⟨hstage, hresult, hlow, hhigh⟩ := statusWord_fields s.toBlock
  exact ⟨statusWord s.toBlock, exec_rd_word rfl rfl, hstage, hresult, hlow, hhigh,
    fun w => exec_wr_err rfl rfl⟩

/-- Settles O15: every address of bank 0x00 resolves to its register by computation, in every stage. -/
theorem controlReadsAnswerTheRegister : Obligations.ControlReadsAnswerTheRegister := by
  intro s
  obtain ⟨hcode, hzero⟩ := errcodeWord_fields s.toBlock
  exact ⟨⟨errcodeWord s.toBlock, exec_rd_word rfl rfl, hcode, hzero⟩,
    exec_rd_word rfl rfl, exec_rd_word rfl rfl, exec_rd_word rfl rfl, exec_rd_word rfl rfl,
    exec_rd_word rfl rfl, exec_rd_word rfl rfl⟩

/-- An accepted write has the effect of its location and answers what the location answers. -/
theorem exec_wr_accepted {p : Payload Sample} (hp : p.fits bank = true)
    (hw : writable s.stage (resolve Config.machine bank index) = true) :
    exec (.wr bank index p) s = .next (.mk (s.transact
      (writeLoc p s.toBlock (resolve Config.machine bank index)))) := by
  rw [exec_wr hp, if_pos hw]

/-- Settles O16: IDLE is the stage in which the five registers are writable. -/
theorem controlWritesStoreAllBits : Obligations.ControlWritesStoreAllBits := by
  intro s w hs
  have hidle : (s.stage == .idle) = true := beq_iff_eq.2 hs
  exact ⟨exec_wr_accepted rfl hidle, exec_wr_accepted rfl hidle, exec_wr_accepted rfl hidle,
    exec_wr_accepted rfl hidle, exec_wr_accepted rfl hidle⟩

/-- Settles O17: in IDLE the write is accepted, and a value has no range to check. -/
theorem thresholdWriteStoresTheValue : Obligations.ThresholdWriteStoresTheValue := by
  intro s v hs
  have hidle : (s.stage == .idle) = true := beq_iff_eq.2 hs
  exact exec_wr_accepted rfl hidle

end Sys2Proof.Machine
end

section
/-!
The address map and the numeric locations at the port (20 R41, R46, R47, R54).
-/

namespace Sys2Proof.Machine

variable {S : Type} {c : Config S} {s : State} {bank : BankNo} {index : Index}

/-! ## The address map -/

/-- The bank and the index at which 20 R41 places a location; a name of nothing has none, and takes an index that
no bank has. -/
def Loc.place : Loc → Nat × Nat
  | .cmd => (0x00, 0)
  | .status => (0x00, 1)
  | .errcode => (0x00, 2)
  | .len => (0x00, 3)
  | .bpOrd => (0x00, 4)
  | .lpOrd => (0x00, 5)
  | .loPer => (0x00, 6)
  | .loStep => (0x00, 7)
  | .outLen => (0x00, 8)
  | .thr => (0x01, 0)
  | .peak => (0x01, 1)
  | .median => (0x01, 2)
  | .entry b k => (b.number, k)
  | .unimplemented => (0x00, 2 ^ 24)

theorem ctrlLoc_place {n : Nat} (h : n < 9) : (ctrlLoc n).place = (0x00, n) := by
  interval_cases n <;> rfl

theorem nregLoc_place {n : Nat} (h : n < 3) : (nregLoc n).place = (0x01, n) := by
  interval_cases n <;> rfl

/-- What an address resolves to is placed at that address (20 R41; 30 R60). -/
theorem resolve_place (hu : ¬ Unimplemented c bank index) :
    (resolve c bank index).place = (bank.toNat, index.toNat) := by
  by_cases h0 : bank.toNat = 0
  · have hn : index.toNat < 9 := by unfold Unimplemented at hu; omega
    rw [resolve_ctrl h0, ctrlLoc_place hn, h0]
  by_cases h1 : bank.toNat = 1
  · have hn : index.toNat < 3 := by unfold Unimplemented at hu; omega
    rw [resolve_nreg h1, nregLoc_place hn, h1]
  have hA : bank.toNat ≤ 0x0A := by unfold Unimplemented at hu; omega
  obtain ⟨b, hb, hnumber, -, -⟩ := resolve_entry (by omega) hA hu
  rw [hb, hnumber]
  rfl

/-- Settles O5: the place of a location gives back the address that resolved to it. -/
theorem addressesNameDistinctLocations : Obligations.AddressesNameDistinctLocations := by
  refine ⟨fun _ _ => resolve_eq_unimplemented, fun bank bank' index index' hu heq => ?_⟩
  have hu' : ¬ Unimplemented Config.machine bank' index' := by
    rwa [← resolve_eq_unimplemented, ← heq, resolve_eq_unimplemented]
  have hplace : (bank.toNat, index.toNat) = (bank'.toNat, index'.toNat) := by
    rw [← resolve_place hu, ← resolve_place hu', heq]
  obtain ⟨hbank, hindex⟩ := Prod.mk.inj hplace
  exact ⟨BitVec.eq_of_toNat_eq hbank, BitVec.eq_of_toNat_eq hindex⟩

/-! ## The port while BUSY -/

/-- While BUSY no location is writable (20 R46). -/
theorem writable_of_busy {st : Stage} (h : st.busy = true) (l : Loc) : writable st l = false := by
  have hidle : (st == .idle) = false := beq_eq_false_iff_ne.2 (busy_ne h).1
  cases l <;> simp [writable, h, hidle]

/-- While BUSY only control words can be read (20 R46). -/
theorem readLoc_of_busy {b : Block S} {l : Loc} (h : b.stage.busy = true)
    (hr : readable b.stage b.outLen l = true) : ∃ w, readLoc b l = .word w := by
  have hdone : (b.stage == .done) = false := beq_eq_false_iff_ne.2 (busy_ne h).2.1
  cases l <;> simp [readable, readLoc, h, hdone] at hr ⊢

/-- While BUSY the three commands are refused (44 R131, R133, R134). -/
theorem exec_command_of_busy (h : s.stage.busy = true) :
    exec .run s = .next { s with response := some .err } ∧
    exec .clear s = .next { s with response := some .err } ∧
    exec .sreset s = .next { s with response := some .err } := by
  have hrun : runCommand s.toBlock = (s.toBlock, .err) := if_neg (busy_ne h).1
  have hclear : clearCommand s.toBlock = (s.toBlock, .err) := if_pos h
  have hsreset : sresetCommand s.toBlock = (s.toBlock, .err) := if_pos h
  refine ⟨?_, ?_, ?_⟩
  · show execRun s = _
    rw [execRun, hrun]; rfl
  · show execClear s = _
    rw [execClear, hclear]; rfl
  · show execSreset s = _
    rw [execSreset, hsreset]; rfl

/-- Settles O13: while BUSY writes and commands are refused, and what is read is a control word. -/
theorem busyHostChangesNothing : Obligations.BusyHostChangesNothing := by
  intro s i hbusy hhost hwf
  obtain ⟨hrun, hclear, hsreset⟩ := exec_command_of_busy hbusy
  cases i with
  | run => exact ⟨_, hrun⟩
  | clear => exact ⟨_, hclear⟩
  | sreset => exact ⟨_, hsreset⟩
  | wr bank index p =>
    exact ⟨_, exec_wr_err (Bool.and_eq_true_iff.1 hwf).1 (writable_of_busy hbusy _)⟩
  | rd bank index =>
    cases hr : readable s.stage s.outLen (resolve Config.machine bank index) with
    | false => exact ⟨_, exec_rd_err hr⟩
    | true =>
      obtain ⟨w, hw⟩ := readLoc_of_busy hbusy hr
      exact ⟨_, exec_rd_word hr hw⟩
  | _ => cases hhost

/-! ## Numeric writes and reads -/

/-- Settles O18: the address resolves to an entry of an input bank, which IDLE makes writable. -/
theorem numericWriteStoresOneLocation : Obligations.NumericWriteStoresOneLocation := by
  intro s bank index v hs h2 h8 hu
  obtain ⟨b, hloc, hnumber, -, hout⟩ := resolve_entry h2 (by omega) hu
  have hfits : (Payload.value v).fits bank = true :=
    bne_iff_ne.2 fun h => by simp [h] at h2
  have hw : writable s.stage (resolve Config.machine bank index) = true := by
    have : ¬ 9 ≤ bank.toNat := by omega
    simp [hloc, writable, hs, hout, this]
  refine ⟨_, exec_wr_accepted hfits hw, ?_, fun a => ?_⟩
  · rw [hloc]; rfl
  · rw [hloc, ← address_of_bank index.toNat hnumber]
    exact Memory.read_write ..

/-- An accepted read of a numeric location answers by what it holds. -/
theorem exec_rd_numeric {o : Option Sample}
    (hr : readable s.stage s.outLen (resolve Config.machine bank index) = true)
    (ho : readLoc s.toBlock (resolve Config.machine bank index) = .numeric o) :
    exec (.rd bank index) s = .next (.mk (answerRead Config.draw s.toSystem (.numeric o))) := by
  rw [exec_rd, if_pos hr, ho]

theorem exec_rd_thr (h : s.stage.busy = false) :
    exec (.rd 1#8 0#24) s = .next (.mk (answerRead Config.draw s.toSystem (.numeric s.thr))) :=
  exec_rd_numeric ((Bool.not_eq_true' _).mpr h) rfl

theorem exec_rd_peak (h : s.stage = .done) :
    exec (.rd 1#8 1#24) s = .next (.mk (answerRead Config.draw s.toSystem (.numeric s.peak))) :=
  exec_rd_numeric (beq_iff_eq.2 h) rfl

theorem exec_rd_median (h : s.stage = .done) :
    exec (.rd 1#8 2#24) s = .next (.mk (answerRead Config.draw s.toSystem (.numeric s.median))) :=
  exec_rd_numeric (beq_iff_eq.2 h) rfl

/-- The accepted read of an entry: an input bank outside BUSY, an output bank in DONE below OUT_LEN (20 R46). -/
theorem exec_rd_entry
    (h : (0x02 ≤ bank.toNat ∧ bank.toNat ≤ 0x08 ∧ s.stage.busy = false) ∨
      (0x09 ≤ bank.toNat ∧ bank.toNat ≤ 0x0A ∧ s.stage = .done ∧ index.toNat < s.outLen.toNat))
    (hu : ¬ Unimplemented Config.machine bank index) :
    exec (.rd bank index) s = .next (.mk (answerRead Config.draw s.toSystem
      (.numeric (s.mem.read (bank.toNat * 2 ^ 24 + index.toNat))))) := by
  obtain ⟨b, hloc, hnumber, -, hout⟩ := resolve_entry (by omega) (by omega) hu
  refine exec_rd_numeric ?_ ?_
  · rw [hloc, readable, hout]
    rcases h with ⟨-, h8, hbusy⟩ | ⟨h9, -, hdone, hlen⟩
    · have : ¬ 9 ≤ bank.toNat := by omega
      simp [this, hbusy]
    · simp [h9, hdone, hlen]
  · rw [hloc, readLoc, Block.entry, address_of_bank _ hnumber]

/-- Settles O19, location by location. -/
theorem numericReadAnswersTheHeldValue : Obligations.NumericReadAnswersTheHeldValue := by
  intro s v
  refine ⟨fun hs hv => ?_, fun hs hv => ?_, fun hs hv => ?_, fun bank index hs hu hv => ?_⟩
  · rw [exec_rd_thr hs, hv]; rfl
  · rw [exec_rd_peak hs, hv]; rfl
  · rw [exec_rd_median hs, hv]; rfl
  · rw [exec_rd_entry hs hu, hv]; rfl

/-- Settles O20, location by location. -/
theorem unwrittenReadAnswersADraw : Obligations.UnwrittenReadAnswersADraw := by
  intro s
  refine ⟨fun hs hn => ?_, fun hs hn => ?_, fun hs hn => ?_, fun bank index hs hu hn => ?_⟩
  · rw [exec_rd_thr hs, hn]; rfl
  · rw [exec_rd_peak hs, hn]; rfl
  · rw [exec_rd_median hs, hn]; rfl
  · rw [exec_rd_entry hs hu, hn]; rfl

end Sys2Proof.Machine
end

section
/-!
The draws (20 R47): which steps make one, and where an answered value comes from.
-/

namespace Sys2Proof.Machine

variable {S : Type} {c : Config S} {draw : Nat → S} {y z : System S} {b : Block S} {v : S}

/-- A command answers OK or ERR (44 R131, R133, R134). -/
theorem commandWrite_ne_okValue (w : Word) (b : Block S) (v : S) : (commandWrite w b).2 ≠ .okValue v := by
  unfold commandWrite runCommand clearCommand sresetCommand
  split_ifs <;> exact nofun

/-- A write answers OK or ERR (44 R138). -/
theorem writeLoc_ne_okValue (p : Payload S) (b : Block S) (l : Loc) (v : S) :
    (writeLoc p b l).2 ≠ .okValue v := by
  cases p with
  | word w =>
    cases l with
    | cmd => exact commandWrite_ne_okValue w b v
    | _ => exact nofun
  | value u => cases l <;> exact nofun

/-- A read finds only what a location of the block holds. -/
theorem heldSomewhere_of_readLoc {l : Loc} (h : readLoc b l = .numeric (some v)) : HeldSomewhere b v := by
  cases l with
  | thr => exact .inl (Found.numeric.inj h)
  | peak => exact .inr (.inl (Found.numeric.inj h))
  | median => exact .inr (.inr (.inl (Found.numeric.inj h)))
  | entry bank k => exact .inr (.inr (.inr ⟨bank.address k, Found.numeric.inj h⟩))
  | _ => cases h

theorem heldSomewhere_of_hostRead {bank : BankNo} {index : Index}
    (h : hostRead c bank index b = .numeric (some v)) : HeldSomewhere b v := by
  unfold hostRead at h
  split at h
  · exact heldSomewhere_of_readLoc h
  · cases h

/-- The answer to a read draws nothing, or it is the next draw and counts it (20 R47; log 5). -/
theorem answerRead_draws (f : Found S) :
    (answerRead draw y f).draws = y.draws ∨ ((answerRead draw y f).draws = y.draws + 1 ∧
      (answerRead draw y f).response = some (.okValue (draw y.draws))) := by
  rcases f with _ | w | (_ | v)
  · exact .inl rfl
  · exact .inl rfl
  · exact .inr ⟨rfl, rfl⟩
  · exact .inl rfl

/-- A value answered without a draw is the one that was found. -/
theorem found_of_answerRead {f : Found S} (hd : (answerRead draw y f).draws = y.draws)
    (hr : (answerRead draw y f).response = some (.okValue v)) : f = .numeric (some v) := by
  rcases f with _ | w | (_ | u)
  · cases hr
  · cases hr
  · exact absurd hd (Nat.succ_ne_self _)
  · cases hr; rfl

/-- An answered write leaves the count of draws and answers no value. -/
theorem perform_write_draws {bank : BankNo} {index : Index} {p : Payload S}
    (h : y.perform c draw (.write bank index p) = .ok z) :
    z.draws = y.draws ∧ ∀ v, z.response ≠ some (.okValue v) := by
  by_cases hp : p.fits bank = true
  · obtain rfl := Except.ok.inj ((perform_write hp).symm.trans h)
    refine ⟨rfl, fun v hv => ?_⟩
    rw [transact_response, Option.some_inj] at hv
    split at hv
    · exact writeLoc_ne_okValue _ _ _ _ hv
    · cases hv
  · simp [System.perform, hostWrite, hp, Except.map] at h

/-- Only a read draws. -/
theorem perform_draws {x : Transaction S} (h : y.perform c draw x = .ok z) :
    z.draws = y.draws ∨ ((∃ bank index, x = .read bank index) ∧ z.draws = y.draws + 1 ∧
      z.response = some (.okValue (draw y.draws))) := by
  cases x with
  | write bank index p => exact .inl (perform_write_draws h).1
  | read bank index =>
    obtain rfl := Except.ok.inj h
    exact (answerRead_draws _).imp_right fun hd => ⟨⟨bank, index, rfl⟩, hd⟩

/-- A value answered with the count of draws unchanged was held. -/
theorem heldSomewhere_of_perform {x : Transaction S} (h : y.perform c draw x = .ok z)
    (hd : z.draws = y.draws) (hr : z.response = some (.okValue v)) : HeldSomewhere y.toBlock v := by
  cases x with
  | write bank index p => exact absurd hr ((perform_write_draws h).2 v)
  | read bank index =>
    obtain rfl := Except.ok.inj h
    exact heldSomewhere_of_hostRead (found_of_answerRead hd hr)

/-- The header of a read carries no payload (30 R72). -/
theorem payload_eq_none_of_read {header : BitVec 33} {p : Option (Payload S)} {bank : BankNo} {index : Index}
    (h : decodeTransaction header p = .ok (.read bank index)) : p = none := by
  cases p with
  | none => rfl
  | some p =>
    unfold decodeTransaction at h
    split at h
    · simp only at h
      split at h <;> cases h
    · cases h

/-- What a step can do, by agent: the host's transaction at the port is performed, or another agent moves, draws
nothing and answers nothing. -/
theorem systemStep_cases (h : System.step c draw y = .ok z) :
    (∃ header p rest x, y.agenda = .host header p :: rest ∧ decodeTransaction header p = .ok x ∧
      System.perform c draw { y with agenda := rest } x = .ok z) ∨
    ((∀ header p rest, y.agenda ≠ .host header p :: rest) ∧ z.draws = y.draws ∧
      (z.response = y.response ∨ z.response = none)) := by
  unfold System.step at h
  split at h
  · next ha =>
    obtain ⟨b, -, rfl⟩ := afterStage_eq_ok.1 h
    exact .inr ⟨by simp [ha], rfl, .inl rfl⟩
  · next ha =>
    obtain ⟨b, -, rfl⟩ := afterStage_eq_ok.1 h
    exact .inr ⟨by simp [ha], rfl, .inl rfl⟩
  · next header p rest ha =>
    unfold System.hostTurn at h
    split at h
    · next x hx => exact .inl ⟨header, p, rest, x, ha, hx, h⟩
    · cases h
  · next ha =>
    obtain rfl := Except.ok.inj h
    exact .inr ⟨by simp [ha], rfl, .inr rfl⟩

/-- Settles O21: the step is the system's, where only the host's transactions draw or answer. -/
theorem drawsAreFresh : Obligations.DrawsAreFresh := by
  intro s t hstep
  rw [stepIsTheSystemsStep s, outcomeOf_eq_next] at hstep
  rcases systemStep_cases hstep with ⟨header, p, rest, x, ha, hx, hp⟩ | ⟨hother, hdraws, hresponse⟩
  · refine ⟨?_, fun hother => absurd ha (hother header p rest),
      fun _ _ _ v _ hd hr => heldSomewhere_of_perform (y := { s.toSystem with agenda := rest }) hp hd hr⟩
    rcases perform_draws hp with hd | ⟨⟨bank, index, rfl⟩, hd, hr⟩
    · exact .inl hd
    · obtain rfl := payload_eq_none_of_read hx
      exact .inr ⟨⟨header, rest, ha⟩, hd, hr⟩
  · exact ⟨.inl hdraws, fun _ => ⟨hdraws, hresponse⟩, fun h p rest _ ha => absurd ha (hother h p rest)⟩

end Sys2Proof.Machine
end

section
/-!
The encodings (30 R60, R62, R65, R66, R72): decoder and encoder are inverse to each other.
-/

namespace Sys2Proof

variable {S : Type} {h : BitVec 33} {p : Option (Payload S)} {q : Payload S} {bank : BankNo} {index : Index}
  {i : Instr} {w : Word} {code : BitVec 4}

/-! ## Transactions -/

/-- What decodes to a write: the bit `we`, the fields of the write and its payload, of the kind that its bank
fixes (30 R72; 20 R45). -/
theorem decodeTransaction_eq_write : decodeTransaction h p = .ok (.write bank index q) ↔
    h = header 1#1 bank index ∧ p = some q ∧ q.fits bank = true := by
  constructor
  · intro hd
    have hh := header_fields h
    unfold decodeTransaction at hd
    split at hd
    next hwe =>
      split at hd
      next =>
        split at hd
        next hfits => cases hd; exact ⟨hwe ▸ hh.symm, rfl, hfits⟩
        next => cases hd
      next => cases hd
    next => split at hd <;> cases hd
  · rintro ⟨rfl, rfl, hfits⟩
    simp [decodeTransaction, hfits]

/-- What decodes to a read: the fields of the read, and no payload (30 R72). -/
theorem decodeTransaction_eq_read : decodeTransaction h p = .ok (.read bank index) ↔
    h = header 0#1 bank index ∧ p = none := by
  constructor
  · intro hd
    have hh := header_fields h
    unfold decodeTransaction at hd
    split at hd
    next =>
      split at hd
      next => split at hd <;> cases hd
      next => cases hd
    next hwe =>
      split at hd
      next => cases hd
      next => cases hd; exact ⟨BitVec.eq_zero_or_eq_one _ |>.resolve_right hwe ▸ hh.symm, rfl⟩
  · rintro ⟨rfl, rfl⟩
    simp [decodeTransaction]

/-- A host form decodes to the operation of its transaction. -/
theorem decode_host_eq_ok {p : Option (Payload Sample)} :
    decode (.host h p) = .ok i ↔ ∃ x, decodeTransaction h p = .ok x ∧ x.instr = i := by
  show (decodeTransaction h p).map Transaction.instr = .ok i ↔ _
  cases decodeTransaction h p with
  | error e => simp [Except.map]
  | ok x => simp [Except.map]

/-! ## Commands (30 R62, R66, R71) -/

/-- The words 1, 2 and 3 name a command (30 R66). -/
theorem isSome_decodeCommand (w : Word) :
    (decodeCommand w).isSome = (w == 1#32 || w == 2#32 || w == 3#32) := by
  rw [decodeCommand_eq]
  split_ifs with h1 h2 h3
  · simp [h1]
  · simp [h2]
  · simp [h3]
  · simp [h1, h2, h3]

/-- The writes that are the spelling of a command are those to CMD of a word that names one. -/
theorem isCommandWrite_iff : q.isCommandWrite bank index = true ↔
    bank = 0#8 ∧ index = 0#24 ∧ ∃ w i, q = .word w ∧ decodeCommand w = some i := by
  cases q with
  | value v => simp [Payload.isCommandWrite]
  | word w =>
    rw [Payload.isCommandWrite, ← isSome_decodeCommand]
    simp [Option.isSome_iff_exists, and_assoc]

/-- A word that names a command is the word that encodes it. -/
theorem encode_of_decodeCommand (hw : decodeCommand w = some i) :
    encode i = encodeCommand w ∧ i.wellFormed = true := by
  rw [decodeCommand_eq] at hw
  split_ifs at hw with h1 h2 h3
  · cases hw; exact ⟨h1 ▸ rfl, rfl⟩
  · cases hw; exact ⟨h2 ▸ rfl, rfl⟩
  · cases hw; exact ⟨h3 ▸ rfl, rfl⟩

/-- The write of a word that names a command is that command. -/
theorem instr_commandWrite (hw : decodeCommand w = some i) :
    (Transaction.write 0#8 0#24 (.word w)).instr = i := by
  simp [Transaction.instr, hw]

/-- Every other write is a WR. -/
theorem instr_write {q : Payload Sample} (hq : q.isCommandWrite bank index = false) :
    (Transaction.write bank index q).instr = .wr bank index q := by
  cases q with
  | value v => rfl
  | word w =>
    by_cases hcmd : bank = 0#8 ∧ index = 0#24
    · obtain ⟨rfl, rfl⟩ := hcmd
      cases hw : decodeCommand w with
      | none => simp [Transaction.instr, hw]
      | some i => cases hq.symm.trans (isCommandWrite_iff.2 ⟨rfl, rfl, w, i, rfl, hw⟩)
    · exact if_neg hcmd

theorem decode_encodeCommand (hw : decodeCommand w = some i) : decode (encodeCommand w) = .ok i :=
  decode_host_eq_ok.2 ⟨_, decodeTransaction_eq_write.2 ⟨rfl, rfl, rfl⟩, instr_commandWrite hw⟩

/-! ## Both directions -/

/-- Settles O1: a command is read back from its word, a stage operation from its code, and a transaction from its
header and payload. -/
theorem decodeEncodeRoundTrip : Obligations.DecodeEncodeRoundTrip := by
  intro i hi
  cases i with
  | run => exact decode_encodeCommand (decodeCommand_eq 1#32)
  | clear => exact decode_encodeCommand (decodeCommand_eq 2#32)
  | sreset => exact decode_encodeCommand (decodeCommand_eq 3#32)
  | check => rfl
  | bpf => rfl
  | mix => rfl
  | lpfI => rfl
  | lpfQ => rfl
  | form => rfl
  | env => rfl
  | stat => rfl
  | gate => rfl
  | wr bank index q =>
    obtain ⟨hfits, hplain⟩ : q.fits bank = true ∧ q.isCommandWrite bank index = false := by
      simpa [Instr.wellFormed] using hi
    exact decode_host_eq_ok.2 ⟨_, decodeTransaction_eq_write.2 ⟨rfl, rfl, hfits⟩, instr_write hplain⟩
  | rd bank index => exact decode_host_eq_ok.2 ⟨_, decodeTransaction_eq_read.2 ⟨rfl, rfl⟩, rfl⟩

/-- A stage code that decodes is the code of the operation that it names (30 R65). -/
theorem encode_of_decodeStage (hd : decodeStage code = .ok i) :
    encode i = .stage code ∧ i.wellFormed = true := by
  unfold decodeStage at hd
  split at hd <;> cases hd <;>
    exact ⟨congrArg Encoded.stage (BitVec.eq_of_toNat_eq (Eq.symm ‹code.toNat = _›)), rfl⟩

/-- The operation of a write is encoded as that write, and is well formed when the payload fits. -/
theorem encode_instr_write {q : Payload Sample} (hfits : q.fits bank = true) :
    encode (Transaction.write bank index q).instr = .host (header 1#1 bank index) (some q) ∧
      (Transaction.write bank index q).instr.wellFormed = true := by
  cases hq : q.isCommandWrite bank index with
  | true =>
    obtain ⟨rfl, rfl, w, i, rfl, hw⟩ := isCommandWrite_iff.1 hq
    rw [instr_commandWrite hw]
    exact encode_of_decodeCommand hw
  | false =>
    rw [instr_write hq]
    exact ⟨rfl, by simp [Instr.wellFormed, hfits, hq]⟩

/-- Settles O2, by the kind of the form: a stage code, a write or a read. -/
theorem encodeDecodeRoundTrip : Obligations.EncodeDecodeRoundTrip := by
  intro e i hd
  cases e with
  | stage code => exact encode_of_decodeStage hd
  | host h p =>
    obtain ⟨x, hx, rfl⟩ := decode_host_eq_ok.1 hd
    cases x with
    | write bank index q =>
      obtain ⟨rfl, rfl, hfits⟩ := decodeTransaction_eq_write.1 hx
      exact encode_instr_write hfits
    | read bank index =>
      obtain ⟨rfl, rfl⟩ := decodeTransaction_eq_read.1 hx
      exact ⟨rfl, rfl⟩

end Sys2Proof
end

section
/-!
The encodings at the machine: reserved encodings (30 R67), commands as writes (30 R71), the worked words (30 R60,
R68), and the operation that a step runs (44 R141).
-/

namespace Sys2Proof.Machine

variable {s : State} {st : Stage} {bank : BankNo} {index : Index} {i : Instr}

/-! ## Reserved encodings -/

/-- A word that names no command is refused and does nothing (30 R67 a). -/
theorem commandWrite_illegal {S : Type} {w : Word} (b : Block S) (h1 : w ≠ 1#32) (h2 : w ≠ 2#32)
    (h3 : w ≠ 3#32) : commandWrite w b = (b, .err) := by
  rw [commandWrite, if_neg h1, if_neg h2, if_neg h3]

theorem exec_wr_cmd_illegal {w : Word} (h1 : w ≠ 1#32) (h2 : w ≠ 2#32) (h3 : w ≠ 3#32) :
    exec (.wr 0#8 0#24 (.word w)) s = .next { s with response := some .err } := by
  rw [exec_wr_cmd, commandWrite_illegal _ h1 h2 h3, ite_self]
  rfl

/-- No stage has one of the codes 11 to 14 (30 R67 b). -/
theorem stageCode_not_reserved (st : Stage) : st.code.toNat ∉ [11, 12, 13, 14] := by
  cases st <;> decide

theorem resultCode_ne_three (r : Result) : r.code.toNat ≠ 3 := by
  cases r <;> decide

theorem errCode_le_five (e : ErrCode) : e.code.toNat ≤ 5 := by
  cases e <;> decide

theorem decodeStage_reserved :
    ∀ code : BitVec 4, code.toNat ∈ [11, 12, 13, 14] → decodeStage code = .error (.reservedStage code) := by
  decide

/-- Settles O4: an address that names nothing is neither writable nor readable in any stage. -/
theorem reservedEncodingsAreRefused : Obligations.ReservedEncodingsAreRefused := by
  refine ⟨fun w s => exec_wr_cmd_illegal, fun s => ?_, decodeStage_reserved, fun s bank index p hu hp => ?_⟩
  · exact ⟨stageCode_not_reserved s.stage, resultCode_ne_three s.result, errCode_le_five s.errcode⟩
  · have hr := resolve_eq_unimplemented.2 hu
    exact ⟨exec_wr_err hp (by rw [hr]; rfl), exec_rd_err (by rw [hr]; rfl)⟩

/-! ## Worked words -/

/-- Settles O3: the decoder evaluated on the spec's words. -/
theorem specWordsDecode : Obligations.SpecWordsDecode :=
  ⟨rfl, rfl, rfl, rfl, rfl, rfl, rfl, rfl, rfl⟩

/-- Settles O23: the codes and the STATUS word evaluated on the spec's cases. -/
theorem codedFieldsHaveTheSpecsCodes : Obligations.CodedFieldsHaveTheSpecsCodes :=
  ⟨rfl, rfl, rfl, rfl, rfl, rfl, rfl⟩

/-! ## Commands -/

/-- A WR has the effect of the operation that its transaction is. -/
theorem exec_wr_eq_exec_instr (bank : BankNo) (index : Index) (p : Payload Sample) (s : State) :
    exec (.wr bank index p) s = exec (Transaction.write bank index p).instr s :=
  (exec_instr (.write bank index p)).symm

/-- A word that names a command, written to CMD, has the effect of the command (30 R62, R71). -/
theorem exec_wr_cmd_of_decodeCommand {w : Word} (hw : decodeCommand w = some i) :
    exec (.wr 0#8 0#24 (.word w)) s = exec i s := by
  rw [exec_wr_eq_exec_instr, instr_commandWrite hw]

/-- Settles O11, word by word. -/
theorem commandsAreWritesToCmd : Obligations.CommandsAreWritesToCmd := fun _ =>
  ⟨exec_wr_cmd_of_decodeCommand (decodeCommand_eq 1#32), exec_wr_cmd_of_decodeCommand (decodeCommand_eq 2#32),
    exec_wr_cmd_of_decodeCommand (decodeCommand_eq 3#32)⟩

/-! ## The step -/

/-- The sequencer runs the operation that the stage code names (30 R63). -/
theorem sequencerTurn_of_decode (hd : decode (.stage s.stage.code) = .ok i) : sequencerTurn s = .run i s := by
  rw [sequencerTurn, hd]

/-- In a resting stage the sequencer passes (30 R65; 60 R165). -/
theorem sequencerTurn_of_resting (hs : s.stage.busy = false) : sequencerTurn s = .pass s := by
  obtain ⟨⟨⟨stage⟩⟩⟩ := s
  cases stage with
  | idle => rfl
  | done => rfl
  | error => rfl
  | _ => cases hs

theorem step_of_host {h : BitVec 33} {p : Option (Payload Sample)} {rest : List (Event Sample)}
    (ha : s.agenda = .host h p :: rest) (hd : decode (.host h p) = .ok i) :
    step s = exec i { s with agenda := rest } := by
  simp only [step_eq_outcome_fetch, fetch, ha, hostTurn, hd, Fetched.outcome]

/-- A turn of the sequencer on the agenda is taken off it. -/
theorem step_of_sequencer {rest : List (Event Sample)} (ha : s.agenda = .sequencer :: rest) :
    step s = (sequencerTurn { s with agenda := rest }).outcome := by
  rw [step_eq_outcome_fetch, fetch, ha]

/-- With nothing to come the sequencer has the turn (44 R141). -/
theorem step_of_empty_agenda (ha : s.agenda = []) : step s = (sequencerTurn s).outcome := by
  rw [step_eq_outcome_fetch, fetch, ha]

/-- Settles O43, by the next event of the agenda and what the stage code decodes to. -/
theorem stepRunsTheDecodedOperation : Obligations.StepRunsTheDecodedOperation := by
  refine ⟨fun s h p rest i => step_of_host, fun s rest i ha hd => ?_, fun s i ha hd => ?_,
    fun s rest ha hs => ?_, fun s ha hs => ?_⟩
  · rw [step_of_sequencer ha, sequencerTurn_of_decode (s := { s with agenda := rest }) hd]; rfl
  · rw [step_of_empty_agenda ha, sequencerTurn_of_decode hd]; rfl
  · rw [step_of_sequencer ha, sequencerTurn_of_resting (s := { s with agenda := rest }) hs]; rfl
  · rw [step_of_empty_agenda ha, sequencerTurn_of_resting hs]; rfl

end Sys2Proof.Machine
end

section
/-!
The coefficient contract (40_coefficient_contract.md): which specifications DESIGN rejects, and what the host
writes that load a set leave in the order register and the banks.
-/

namespace Sys2Proof.Machine

variable {S : Type} {c : Config S}

/-! ## Rejected specifications -/

theorem edgeInRange_iff {e : Rat} : edgeInRange e = true ↔ 0 < e ∧ e < 1 := by
  simp [edgeInRange]

/-- Nested edges lie inside (0,1) as soon as the lowest is above 0 and the highest below 1 (40 R82). -/
theorem edgesValid_bandpass_iff {sl pl ph sh : Rat} :
    edgesValid (.bandpass sl pl ph sh) = true ↔ 0 < sl ∧ sl < pl ∧ pl < ph ∧ ph < sh ∧ sh < 1 := by
  simp only [edgesValid, Bool.and_eq_true, decide_eq_true_eq, edgeInRange_iff]
  constructor
  · rintro ⟨⟨⟨⟨⟨⟨h1, h2⟩, h3⟩, h0, -⟩, -⟩, -⟩, -, h4⟩
    exact ⟨h0, h1, h2, h3, h4⟩
  · rintro ⟨h0, h1, h2, h3, h4⟩
    refine ⟨⟨⟨⟨⟨⟨h1, h2⟩, h3⟩, ?_⟩, ?_⟩, ?_⟩, ?_⟩ <;> constructor <;> linarith

theorem edgesValid_lowpass_iff {p st : Rat} :
    edgesValid (.lowpass p st) = true ↔ 0 < p ∧ p < st ∧ st < 1 := by
  simp only [edgesValid, Bool.and_eq_true, decide_eq_true_eq, edgeInRange_iff]
  constructor
  · rintro ⟨⟨h1, h0, -⟩, -, h2⟩
    exact ⟨h0, h1, h2⟩
  · rintro ⟨h0, h1, h2⟩
    exact ⟨⟨h1, h0, h1.trans h2⟩, h0.trans h1, h2⟩

/-- DESIGN meets the hypothesis `design_rejects_invalid` (40 R83, R91). -/
theorem design_rejectsInvalid (N : Num S) : DesignRejectsInvalid (design N) := by
  intro spec h
  simp [design, h]

/-- Settles O54: for either kind of edges, being valid is being strictly nested inside (0,1). -/
theorem invalidSpecificationIsRejected : Obligations.InvalidSpecificationIsRejected :=
  ⟨fun _ N _ _ _ _ _ _ _ h => design_rejectsInvalid N _ (Bool.eq_false_iff.2 (mt edgesValid_bandpass_iff.1 h)),
    fun _ N _ _ _ _ _ h => design_rejectsInvalid N _ (Bool.eq_false_iff.2 (mt edgesValid_lowpass_iff.1 h))⟩

/-! ## A stream of writes, entry by entry -/

section Stream

variable {b : Bank} {k : Nat} {s t : Block S} {vs : List S}

/-- An entry that a stream is written to holds its element of the stream. -/
theorem memWrites_entry (h : memWrites c b s k vs = .ok t) {j : Nat} (hj : j < vs.length) :
    t.entry b (k + j) = vs[j]? := by
  obtain ⟨-, -, hread⟩ := memWrites_eq_ok h
  have haddr : b.address (k + j) = b.address k + j := by unfold Bank.address; omega
  rw [Block.entry, hread, haddr, if_pos (by omega), Nat.add_sub_cancel_left]

/-- An address that a stream is not written to keeps its content. -/
theorem memWrites_read_other (h : memWrites c b s k vs = .ok t) {a : Nat}
    (ha : ∀ j, j < vs.length → a ≠ b.address (k + j)) : t.mem.read a = s.mem.read a := by
  obtain ⟨-, -, hread⟩ := memWrites_eq_ok h
  rw [hread, if_neg]
  rintro ⟨hle, hlt⟩
  have haddr : b.address (k + (a - b.address k)) = b.address k + (a - b.address k) := by
    unfold Bank.address; omega
  exact ha (a - b.address k) (by omega) (by omega)

end Stream

/-! ## The transactions of a load -/

section Load

variable {draw : Nat → S} {y y₁ : System S}

/-- An accepted write has the effect of its location, over any type of values. -/
theorem perform_write_accepted {bank : BankNo} {index : Index} {p : Payload S} (hp : p.fits bank = true)
    (hw : writable y.stage (resolve c bank index) = true) :
    y.perform c draw (.write bank index p) =
      .ok (y.transact (writeLoc p y.toBlock (resolve c bank index))) := by
  rw [perform_write hp, if_pos hw]

/-- In IDLE the write of a value to an implemented entry of an input bank is stored and answers OK (20 R46). -/
theorem perform_write_entry {b : Bank} {k : Nat} (v : S) (hy : y.stage = .idle) (hb : b.isOutput = false)
    (hk : b.implemented c k = true) :
    y.perform c draw (.write (BitVec.ofNat 8 b.number) (BitVec.ofNat 24 k) (.value v)) =
      .ok (y.transact (y.toBlock.setEntry b k v, .ok)) := by
  have hbank : (BitVec.ofNat 8 b.number).toNat = b.number := by cases b <;> rfl
  have hindex : (BitVec.ofNat 24 k).toNat = k := Nat.mod_eq_of_lt (implemented_lt c b k hk)
  have hfits : (Payload.value v).fits (BitVec.ofNat 8 b.number) = true := by cases b <;> rfl
  have hloc : resolve c (BitVec.ofNat 8 b.number) (BitVec.ofNat 24 k) = .entry b k := by
    rw [resolve_bank b hbank, hindex, entryLoc, if_pos hk]
  rw [perform_write_accepted hfits (by simp [hloc, writable, hb, hy]), hloc]
  rfl

/-- Once the port has answered OK, the LDV of a stream in IDLE does what writing the stream to the bank does, and
nothing else changes (30 R71). -/
theorem performAll_ldv {b : Bank} {k : Nat} {vs : List S} {t : Block S} (hb : b.isOutput = false)
    (hy : y.stage = .idle) (hr : y.response = some .ok) (h : memWrites c b y.toBlock k vs = .ok t) :
    System.performAll c draw (ldv b k vs) y = .ok (y.withBlock t) := by
  induction vs generalizing k y with
  | nil =>
    obtain rfl := Except.ok.inj h
    rfl
  | cons v vs ih =>
    obtain ⟨-, himpl, -⟩ := memWrites_eq_ok h
    have hk : b.implemented c k = true := himpl 0 (Nat.succ_pos _)
    have hrest : memWrites c b (y.toBlock.setEntry b k v) (k + 1) vs = .ok t := by
      simpa only [memWrites, memWrite_eq_ok.2 ⟨hk, rfl⟩] using h
    have hstep := ih (y := y.transact (y.toBlock.setEntry b k v, .ok)) hy rfl hrest
    simp only [ldv, System.performAll, perform_write_entry v hy hb hk, hstep]
    simp only [System.withBlock, System.transact, hr]

/-- A pair of banks that can take the coefficients of any order up to MAXORD: entries `0 .. MAXORD` of the one
and `1 .. MAXORD` of the other exist, and the host can write both (20 R41). -/
structure CoefficientBanks (c : Config S) (bankB bankA : Bank) : Prop where
  inputB : bankB.isOutput = false
  inputA : bankA.isOutput = false
  distinct : bankB ≠ bankA
  implementedB : ∀ k, k ≤ c.maxOrd → bankB.implemented c k = true
  implementedA : ∀ k, 1 ≤ k → k ≤ c.maxOrd → bankA.implemented c k = true

theorem coefficientBanks_bandpass : CoefficientBanks c .bpB .bpA where
  inputB := rfl
  inputA := rfl
  distinct := by decide
  implementedB k hk := by simp [Bank.implemented, hk]
  implementedA k h1 hk := by simp [Bank.implemented, h1, hk]

theorem coefficientBanks_lowpass : CoefficientBanks c .lpB .lpA where
  inputB := rfl
  inputA := rfl
  distinct := by decide
  implementedB k hk := by simp [Bank.implemented, hk]
  implementedA k h1 hk := by simp [Bank.implemented, h1, hk]

/-- What loading the set `g` into a pair of banks of the block `s` leaves in the block `t`: the terms of `g`,
padded with zero, in `B[0 .. M]` and `A[1 .. M]`, and the old content at every other address (40 R89). -/
structure BanksLoaded (c : Config S) (bankB bankA : Bank) (g : FilterCoefficients S) (s t : Block S) : Prop where
  entryB : ∀ k, k ≤ loadedOrder g → t.entry bankB k = some (g.feedforward[k]?.getD c.num.zero)
  entryA : ∀ k, 1 ≤ k → k ≤ loadedOrder g → t.entry bankA k = some (g.feedback[k]?.getD c.num.zero)
  other : ∀ x, (∀ k, k ≤ loadedOrder g → x ≠ bankB.address k) →
    (∀ k, 1 ≤ k → k ≤ loadedOrder g → x ≠ bankA.address k) → t.mem.read x = s.mem.read x

variable {bankB bankA : Bank} {g : FilterCoefficients S}

/-- Each padded sequence of a set has `M + 1` terms. -/
theorem length_padTo_loadedOrder :
    (padTo c (loadedOrder g + 1) g.feedforward).length = loadedOrder g + 1 ∧
    (padTo c (loadedOrder g + 1) g.feedback).length = loadedOrder g + 1 := by
  simp only [length_padTo, loadedOrder]
  omega

/-- The two streams of a set, written one after the other, load it. -/
theorem banksLoaded_of_memWrites {s s₁ t : Block S} (hbanks : CoefficientBanks c bankB bankA)
    (hM : loadedOrder g ≤ c.maxOrd)
    (hB : memWrites c bankB s 0 (padTo c (loadedOrder g + 1) g.feedforward) = .ok s₁)
    (hA : memWrites c bankA s₁ 1 (padTo c (loadedOrder g + 1) g.feedback).tail = .ok t) :
    BanksLoaded c bankB bankA g s t := by
  obtain ⟨hlenB, hlenA⟩ := length_padTo_loadedOrder (c := c) (g := g)
  have hlenT : (padTo c (loadedOrder g + 1) g.feedback).tail.length = loadedOrder g := by simp [hlenA]
  refine ⟨fun k hk => ?_, fun k h1 hk => ?_, fun x hxB hxA => ?_⟩
  · have hkeep : t.entry bankB k = s₁.entry bankB k := memWrites_read_other hA fun j hj e =>
      hbanks.distinct (address_inj (implemented_lt c _ _ (hbanks.implementedB k (by omega)))
        (implemented_lt c _ _ (hbanks.implementedA (1 + j) (by omega) (by omega))) e).1
    have hput := memWrites_entry hB (j := k) (by omega)
    rw [hkeep, ← getElem?_padTo g.feedforward (show k < loadedOrder g + 1 by omega), ← hput, Nat.zero_add]
  · obtain ⟨j, rfl⟩ := Nat.exists_eq_add_of_le h1
    rw [memWrites_entry hA (by omega), List.getElem?_tail, Nat.add_comm 1 j,
      getElem?_padTo g.feedback (by omega)]
  · rw [memWrites_read_other hA fun j hj => hxA (1 + j) (by omega) (by omega),
      memWrites_read_other hB fun j hj => hxB (0 + j) (by omega)]

/-- A set of order at most MAXORD can be loaded in IDLE: where the write of the order leads to `y₁`, the rest of
the load fills the two banks of `y₁` and changes nothing else. -/
theorem performAll_loadSet {n : Nat} (hbanks : CoefficientBanks c bankB bankA) (hM : loadedOrder g ≤ c.maxOrd)
    (horder : y.perform c draw
      (.write 0#8 (BitVec.ofNat 24 n) (.word (BitVec.ofNat 32 (loadedOrder g)))) = .ok y₁)
    (hy : y₁.stage = .idle) (hr : y₁.response = some .ok) :
    ∃ ws t, loadSet c n bankB bankA g = some ws ∧ System.performAll c draw ws y = .ok t ∧
      t = { y₁ with mem := t.mem } ∧ BanksLoaded c bankB bankA g y₁.toBlock t.toBlock := by
  obtain ⟨hlenB, hlenA⟩ := length_padTo_loadedOrder (c := c) (g := g)
  obtain ⟨s₁, hB⟩ := memWrites_total (c := c) (s := y₁.toBlock) (b := bankB) (k := 0)
    (vs := padTo c (loadedOrder g + 1) g.feedforward) fun j hj => hbanks.implementedB _ (by omega)
  obtain ⟨t, hA⟩ := memWrites_total (c := c) (s := s₁) (b := bankA) (k := 1)
    (vs := (padTo c (loadedOrder g + 1) g.feedback).tail) fun j hj =>
      hbanks.implementedA _ (by omega) (by rw [List.length_tail] at hj; omega)
  obtain ⟨e₁, -, -⟩ := memWrites_eq_ok hB
  obtain ⟨e₂, -, -⟩ := memWrites_eq_ok hA
  have hs₁ : s₁.stage = .idle := by rw [e₁]; exact hy
  refine ⟨_, y₁.withBlock t, if_pos hM, ?_, ?_, banksLoaded_of_memWrites hbanks hM hB hA⟩
  · rw [List.cons_append, System.performAll, horder]
    simp only [performAll_append, performAll_ldv hbanks.inputB hy hr hB, Except.bind,
      performAll_ldv (y := y₁.withBlock s₁) hbanks.inputA hs₁ hr hA]
    rfl
  · rw [withBlock_toBlock, System.withBlock, e₂, e₁]

/-- A set of order above MAXORD cannot be loaded (40 R89). -/
theorem loadSet_eq_none {n : Nat} (hM : ¬ loadedOrder g ≤ c.maxOrd) : loadSet c n bankB bankA g = none :=
  if_neg hM

/-- A loaded order is stored without loss: MAXORD fits the register (00 R6). -/
theorem toNat_ofNat_loadedOrder (hM : loadedOrder g ≤ c.maxOrd) :
    (BitVec.ofNat 32 (loadedOrder g)).toNat = loadedOrder g := by
  have hmax := c.maxOrd_le
  exact Nat.mod_eq_of_lt (by omega)

end Load

/-! ## Loading a set -/

section Sets

variable [DecidableEq S] {divide : S → S → S} {f : FilterCoefficients S}

/-- What is loaded for a term of a set whose leading feedback term is `a0` (40 R89). -/
def loadedTerm (c : Config S) (divide : S → S → S) (a0 x : S) : S := if a0 = c.num.one then x else divide x a0

/-- A set that cannot be normalised cannot be loaded. -/
theorem load_eq_none_of_normalise (h : normaliseCoefficients c.num divide f = none) :
    loadBandpass c divide f = none ∧ loadLowpass c divide f = none := by
  simp [loadBandpass, loadLowpass, h]

/-- A set of order above MAXORD, or led by a zero that is not 1, cannot be loaded (40 R89). -/
theorem load_eq_none {a0 : S} {tail : List S} (hf : f.feedback = a0 :: tail)
    (h : ¬ (loadedOrder f ≤ c.maxOrd ∧ (a0 = c.num.one ∨ a0 ≠ c.num.zero))) :
    loadBandpass c divide f = none ∧ loadLowpass c divide f = none := by
  by_cases h0 : a0 = c.num.one ∨ a0 ≠ c.num.zero
  · have hM : ¬ loadedOrder f ≤ c.maxOrd := fun hM => h ⟨hM, h0⟩
    simp [loadBandpass, loadLowpass, normaliseCoefficients_eq_some hf h0, loadSet_eq_none, hM]
  · refine load_eq_none_of_normalise (normaliseCoefficients_eq_none ?_)
    rintro a tail' hf'
    obtain ⟨rfl, -⟩ := List.cons.inj (hf.symm.trans hf')
    exact ⟨fun h1 => h0 (.inl h1), by_contra fun hz => h0 (.inr hz)⟩

end Sets

/-- What a loaded set leaves, when its terms are those of `f` under a function: in the words of 40 R89. -/
theorem BanksLoaded.of_map {bankB bankA : Bank} {f : FilterCoefficients S} {term : S → S} {s t : Block S}
    (h : BanksLoaded c bankB bankA (f.map term) s t) :
    (∀ k, k ≤ loadedOrder f → t.entry bankB k = some ((f.feedforward[k]?.map term).getD c.num.zero)) ∧
    (∀ k, 1 ≤ k → k ≤ loadedOrder f → t.entry bankA k = some ((f.feedback[k]?.map term).getD c.num.zero)) ∧
    ∀ x, (∀ k, k ≤ loadedOrder f → x ≠ bankB.number * 2 ^ 24 + k) →
      (∀ k, 1 ≤ k → k ≤ loadedOrder f → x ≠ bankA.number * 2 ^ 24 + k) → t.mem.read x = s.mem.read x := by
  obtain ⟨hB, hA, hother⟩ := h
  simp only [loadedOrder_map, address_eq] at hB hA hother
  simp only [FilterCoefficients.map, List.getElem?_map] at hB hA
  exact ⟨hB, hA, hother⟩

/-- In IDLE the write of an order is stored and answers OK (20 R46). -/
theorem perform_write_bpOrd {draw : Nat → S} {y : System S} (w : Word) (hy : y.stage = .idle) :
    y.perform c draw (.write 0#8 4#24 (.word w)) = .ok { y with bpOrd := w, response := some .ok } :=
  perform_write_accepted rfl (beq_iff_eq.2 hy)

theorem perform_write_lpOrd {draw : Nat → S} {y : System S} (w : Word) (hy : y.stage = .idle) :
    y.perform c draw (.write 0#8 5#24 (.word w)) = .ok { y with lpOrd := w, response := some .ok } :=
  perform_write_accepted rfl (beq_iff_eq.2 hy)

/-- Settles O55: a set that is normalised is loaded by the write of its order and the two streams of its terms. -/
theorem loadingASetFillsItsBanks : Obligations.LoadingASetFillsItsBanks := by
  intro S _ c draw divide s f M
  refine ⟨fun hf => load_eq_none_of_normalise (normaliseCoefficients_eq_none (by simp [hf])), ?_⟩
  intro a0 tail hf loadable term
  refine ⟨load_eq_none hf, ?_⟩
  rintro ⟨hM, h0⟩ hs
  have hnorm : normaliseCoefficients c.num divide f = some (f.map (loadedTerm c divide a0)) :=
    normaliseCoefficients_eq_some hf h0
  have hgM : loadedOrder (f.map (loadedTerm c divide a0)) = M := loadedOrder_map _ f
  have hmax : loadedOrder (f.map (loadedTerm c divide a0)) ≤ c.maxOrd := hgM.trans_le hM
  constructor
  · obtain ⟨ws, t, hws, hrun, ht, hbanks⟩ :=
      performAll_loadSet (draw := draw) coefficientBanks_bandpass hmax (perform_write_bpOrd _ hs) hs rfl
    have hord : t.bpOrd.toNat = M := by rw [ht, toNat_ofNat_loadedOrder hmax, hgM]
    exact ⟨ws, t, by rw [loadBandpass, hnorm]; exact hws, hrun, by rw [ht], hord, hbanks.of_map⟩
  · obtain ⟨ws, t, hws, hrun, ht, hbanks⟩ :=
      performAll_loadSet (draw := draw) coefficientBanks_lowpass hmax (perform_write_lpOrd _ hs) hs rfl
    have hord : t.lpOrd.toNat = M := by rw [ht, toNat_ofNat_loadedOrder hmax, hgM]
    exact ⟨ws, t, by rw [loadLowpass, hnorm]; exact hws, hrun, by rw [ht], hord, hbanks.of_map⟩

end Sys2Proof.Machine
end

section
/-!
The stage operations BPF, LPF_I and LPF_Q with their operands held (41 R101 to R104).
-/

namespace Sys2Proof.Machine

variable {s : State} {b a : List Sample}

/-- A stage operation that answers is a step to the state with the block it answered. -/
theorem outcomeOf_afterStage_ok {r : Except Stop (Block Sample)} {t : Block Sample} (h : r = .ok t) :
    outcomeOf (s.afterStage r) = .next { toSystem := s.withBlock t } := by
  rw [h, afterStage_ok, outcomeOf_ok]

/-- Settles O25, from what BPF answers on a block that holds its operands. -/
theorem bpfFiltersTheRecord : Obligations.BpfFiltersTheRecord := fun _ b a u hb ha hu =>
  outcomeOf_afterStage_ok (bpf_eq_ok.2 ⟨b, a, u, hb, ha, hu, rfl⟩)

/-- Settles O26: a stream of LEN elements is read whole. -/
theorem lpfIFiltersTheInPhaseStream : Obligations.LpfIFiltersTheInPhaseStream := by
  intro s b a hb ha hi v
  have hlpf := lpfI_eq_ok.2 ⟨b, a, hb, ha, hi.ge, rfl⟩
  rw [List.take_of_length_le hi.le] at hlpf
  exact outcomeOf_afterStage_ok hlpf

/-- Settles O27: a stream of LEN elements is read whole. -/
theorem lpfQFiltersTheQuadratureStream : Obligations.LpfQFiltersTheQuadratureStream := by
  intro s b a hb ha hq v
  have hlpf := lpfQ_eq_ok.2 ⟨b, a, hb, ha, hq.ge, rfl⟩
  rw [List.take_of_length_le hq.le] at hlpf
  exact outcomeOf_afterStage_ok hlpf

/-- Two operations that step one after the other. -/
theorem execAll_pair {i j : Instr} {s t u : State} (hi : exec i s = .next t) (hj : exec j t = .next u) :
    execAll [i, j] s = .next u := by
  simp only [execAll, hi, hj]

/-- Settles O32: each channel's operation steps, by O26 and O27, also after the other one, which writes none
of its operands, and with any other content of the other stream. -/
theorem lowpassChannelsAreIndependent : Obligations.LowpassChannelsAreIndependent := by
  intro s b a hb ha hi hq
  have stepI := lpfIFiltersTheInPhaseStream s b a hb ha hi
  have stepQ := lpfQFiltersTheQuadratureStream s b a hb ha hq
  refine ⟨⟨_, _, execAll_pair stepI (lpfQFiltersTheQuadratureStream _ b a hb ha hq),
    execAll_pair stepQ (lpfIFiltersTheInPhaseStream _ b a hb ha hi), rfl⟩, fun x => ⟨?_, ?_⟩⟩
  · exact ⟨_, _, stepI, lpfIFiltersTheInPhaseStream { s with q := x } b a hb ha hi, rfl⟩
  · exact ⟨_, _, stepQ, lpfQFiltersTheQuadratureStream { s with i := x } b a hb ha hq, rfl⟩

end Sys2Proof.Machine
end

section
/-!
The recurrence of the filter (41 R100): what it reads, its prefixes, and zero in, zero out (41 R105).
-/

namespace Sys2Proof.Machine

variable {S : Type} {N : Num S} {b a u u' v v' l : List S} {M n k : Nat}

/-! ## Elements and delayed elements -/

theorem item_of_lt (h : k < l.length) : item N l k = l[k] := List.getD_eq_getElem _ _ h

theorem item_append_of_lt (h : k < l.length) (l' : List S) : item N (l ++ l') k = item N l k :=
  List.getD_append _ _ _ _ h

@[simp] theorem item_append_length (l : List S) (x : S) : item N (l ++ [x]) l.length = x := by
  simp [item]

theorem item_take (h : k < n) (l : List S) : item N (l.take n) k = item N l k := by
  simp [item, List.getD_eq_getElem?_getD, List.getElem?_take_of_lt h]

/-- A list of zeros has no other element. -/
theorem item_eq_zero (h : ∀ x ∈ l, x = N.zero) (k : Nat) : item N l k = N.zero := by
  by_cases hk : k < l.length
  · rw [item_of_lt hk]
    exact h _ (List.getElem_mem hk)
  · exact List.getD_eq_default _ _ (by omega)

theorem delayed_eq_zero (h : ∀ x ∈ l, x = N.zero) (n k : Nat) : delayed N l n k = N.zero := by
  unfold delayed
  split
  · exact item_eq_zero h _
  · rfl

/-- A delayed element depends on the element `n - k` alone. -/
theorem delayed_congr (h : k ≤ n → item N u (n - k) = item N u' (n - k)) :
    delayed N u n k = delayed N u' n k := by
  unfold delayed
  split
  · next hk => exact h hk
  · rfl

/-! ## The outputs -/

/-- Output `n` depends on the inputs up to `n` and on the outputs before `n` alone (41 R100). -/
theorem iirOutput_congr (hu : ∀ j ≤ n, item N u j = item N u' j) (hv : ∀ j < n, item N v j = item N v' j) :
    iirOutput N b a M u v n = iirOutput N b a M u' v' n := by
  have hff : feedForward N b M u n = feedForward N b M u' n := by
    unfold feedForward
    rw [hu n le_rfl]
    refine List.foldl_ext _ _ _ fun acc k _ => ?_
    rw [delayed_congr fun _ => hu _ (Nat.sub_le n k)]
  unfold iirOutput
  rw [hff]
  refine List.foldl_ext _ _ _ fun acc k hk => ?_
  have hpos : 1 ≤ k := (List.mem_range'_1.1 hk).1
  rw [delayed_congr fun hkn => hv _ (by omega)]

/-- The outputs of a shorter run are the first outputs of a longer one. -/
theorem take_iir (N : Num S) (b a u : List S) (M : Nat) {len' len : Nat} (h : len' ≤ len) :
    (iir N b a M u len).take len' = iir N b a M u len' := by
  induction len, h using Nat.le_induction with
  | base => exact List.take_of_length_le (length_iir ..).le
  | succ n h ih => rw [iir_succ, List.take_append_of_le_length (by rwa [length_iir]), ih]

theorem item_iir {len : Nat} (hkn : k < n) (hn : n ≤ len) :
    item N (iir N b a M u n) k = item N (iir N b a M u len) k := by
  rw [← take_iir N b a u M hn, item_take hkn]

/-- A run of `len` samples depends on the first `len` inputs alone. -/
theorem iir_congr {len : Nat} (hu : ∀ j < len, item N u j = item N u' j) :
    iir N b a M u len = iir N b a M u' len := by
  induction len with
  | zero => rfl
  | succ n ih =>
    rw [iir_succ, iir_succ, ih fun j hj => hu j (by omega),
      iirOutput_congr (fun j hj => hu j (by omega)) fun _ _ => rfl]

/-- Each element of the output satisfies the recurrence over the whole output (41 R100). -/
theorem getElem?_iir {len : Nat} (hn : n < len) :
    (iir N b a M u len)[n]? = some (iirOutput N b a M u (iir N b a M u len) n) := by
  have hlast : (iir N b a M u (n + 1))[n]? = some (iirOutput N b a M u (iir N b a M u n) n) := by
    simp [iir_succ]
  rw [← List.getElem?_take_of_lt (Nat.lt_succ_self n), take_iir N b a u M hn, hlast,
    iirOutput_congr (fun _ _ => rfl) fun j hj => item_iir hj hn.le]

/-- Settles O30: the run reads no sample beyond its length. -/
theorem filterPrefixes : Obligations.FilterPrefixes := by
  intro S N b a u M len len' h
  rw [take_iir N b a u M h]
  exact iir_congr fun j hj => (item_take hj u).symm

/-! ## Zero in, zero out -/

/-- Zero inputs after zero outputs give a zero output: every product is zero by L2 (00 R8). -/
theorem iirOutput_eq_zero (hN : N.Lawful) (hb : AllWf N b) (ha : AllWf N a) (hu : ∀ x ∈ u, x = N.zero)
    (hv : ∀ x ∈ v, x = N.zero) (M n : Nat) : iirOutput N b a M u v n = N.zero := by
  have hff : feedForward N b M u n = N.zero := by
    refine List.foldlRecOn (motive := (· = N.zero)) _ _ ?_ fun acc hacc k _ => ?_
    · rw [item_eq_zero hu, hN.mul_zero _ (wf_item hN hb 0)]
    · rw [hacc, delayed_eq_zero hu, hN.mul_zero _ (wf_item hN hb k), hN.add_zero_zero]
  refine List.foldlRecOn (motive := (· = N.zero)) _ _ hff fun acc hacc k _ => ?_
  rw [hacc, delayed_eq_zero hv, hN.mul_zero _ (wf_item hN ha (k - 1)), hN.sub_zero_zero]

/-- Settles O29, by induction on the length: each output follows zero outputs. -/
theorem filterZeroInZeroOut : Obligations.FilterZeroInZeroOut := by
  intro S N hN b a u M len hb ha hu
  induction len with
  | zero => rfl
  | succ n ih =>
    rw [iir_succ, ih, iirOutput_eq_zero hN hb ha hu (fun x hx => List.eq_of_mem_replicate hx),
      List.replicate_succ']

/-! ## The difference equation over the rationals -/

/-- Terms `1 .. M` added in ascending order make a sum. -/
theorem foldl_range'_add (f : Nat → Sample) (c : Sample) (M : Nat) :
    (List.range' 1 M).foldl (fun acc k => acc + f k) c = c + ∑ k ∈ Finset.Icc 1 M, f k := by
  induction M with
  | zero => simp
  | succ M ih =>
    rw [List.range'_1_concat, List.foldl_append, ih, Finset.sum_Icc_succ_top (by omega), ← add_assoc,
      Nat.add_comm 1 M]
    rfl

/-- Terms `1 .. M` subtracted in ascending order take away a sum. -/
theorem foldl_range'_sub (f : Nat → Sample) (c : Sample) (M : Nat) :
    (List.range' 1 M).foldl (fun acc k => acc - f k) c = c - ∑ k ∈ Finset.Icc 1 M, f k := by
  simpa [sub_eq_add_neg] using foldl_range'_add (fun k => -f k) c M

/-- A product with a delayed sample of the rational instance. -/
theorem mul_delayed_rational (x : Sample) (l : List Sample) (n k : Nat) :
    x * delayed Num.rational l n k = if k ≤ n then x * l.getD (n - k) 0 else 0 :=
  mul_ite_zero _ _ _

/-- The feed-forward terms of the rational instance are the first sum of 41 R100. -/
theorem feedForward_rational (b : List Sample) (M : Nat) (u : List Sample) (n : Nat) :
    feedForward Num.rational b M u n =
      ∑ k ∈ Finset.range (M + 1), if k ≤ n then b.getD k 0 * u.getD (n - k) 0 else 0 := by
  simp only [← mul_delayed_rational]
  rw [Finset.sum_range_eq_add_Ico _ M.succ_pos, Nat.succ_eq_add_one, Finset.Ico_add_one_right_eq_Icc,
    ← foldl_range'_add]
  rfl

/-- Output `n` of the rational instance is the difference of the two sums of 41 R100. -/
theorem iirOutput_rational (b a : List Sample) (M : Nat) (u v : List Sample) (n : Nat) :
    iirOutput Num.rational b a M u v n =
      (∑ k ∈ Finset.range (M + 1), if k ≤ n then b.getD k 0 * u.getD (n - k) 0 else 0)
        - ∑ k ∈ Finset.Icc 1 M, if k ≤ n then a.getD (k - 1) 0 * v.getD (n - k) 0 else 0 := by
  rw [← feedForward_rational]
  simp only [← mul_delayed_rational, ← foldl_range'_sub]
  rfl

/-- Settles O28: the folds of the recurrence are sums. -/
theorem filterComputesTheDifferenceEquation : Obligations.FilterComputesTheDifferenceEquation := by
  intro b a u M len n _ _ _ hn
  exact ⟨length_iir .., by rw [getElem?_iir hn, iirOutput_rational]⟩

end Sys2Proof.Machine
end

section
/-!
The sample-at-a-time filter computes the recurrence (41 R105 e; 10 R29).
-/

namespace Sys2Proof.Machine

variable {S : Type} {N : Num S} {b a u v l : List S} {M n k : Nat}

/-! ## The registers -/

/-- Before the first sample the registers hold zeros. -/
theorem lastOf_nil (N : Num S) (M : Nat) : lastOf N [] M 0 = List.replicate M N.zero := by
  rw [List.eq_replicate_iff]
  refine ⟨by simp [lastOf], fun x hx => ?_⟩
  obtain ⟨k, -, rfl⟩ := List.mem_map.1 hx
  exact delayed_eq_zero (by simp) 0 k

/-- A later sample does not change the elements before it. -/
theorem delayed_append (l : List S) (x : S) (hk : 1 ≤ k) :
    delayed N (l ++ [x]) l.length k = delayed N l l.length k :=
  delayed_congr fun hkn => item_append_of_lt (by omega) _

/-- Seen from the next sample, every element is delayed by one more. -/
theorem delayed_succ (l : List S) (n k : Nat) : delayed N l (n + 1) (k + 1) = delayed N l n k := by
  simp [delayed]

/-- The new sample enters the registers in front and the oldest one leaves (10 R29). -/
theorem lastOf_append (l : List S) (x : S) (M : Nat) :
    lastOf N (l ++ [x]) M (l.length + 1) = (x :: lastOf N l M l.length).take M := by
  refine List.ext_getElem (by simp [lastOf]) fun j hj _ => ?_
  cases j with
  | zero => simp [lastOf, delayed]
  | succ j =>
    have hk : 1 ≤ 1 + j := by omega
    simp [lastOf, ← Nat.add_assoc, delayed_succ, delayed_append l x hk]

/-! ## One sample, and a stream of samples -/

/-- The taps of coefficients `f 1 .. f M` on the registers are the terms `k = 1 .. M` in ascending order. -/
theorem tapProducts_lastOf (op : S → S → S) (acc : S) (f : Nat → S) (l : List S) (M n : Nat) :
    tapProducts N op acc ((List.range' 1 M).map f) (lastOf N l M n) =
      (List.range' 1 M).foldl (fun acc k => op acc (N.mul (f k) (delayed N l n k))) acc := by
  rw [tapProducts, lastOf, List.zipWith_map, List.zipWith_self, List.foldl_map]

/-- The coefficients `a[1 .. M]` in the order of the taps. -/
theorem map_item_pred (ha : a.length = M) : (List.range' 1 M).map (fun k => item N a (k - 1)) = a := by
  refine List.ext_getElem (by simp [ha]) fun j _ hj => ?_
  simp [item_of_lt hj]

/-- The coefficients `b[1 .. M]` in the order of the taps. -/
theorem map_item_tail (hb : b.length = M + 1) : (List.range' 1 M).map (item N b) = b.tail := by
  refine List.ext_getElem (by simp [hb]) fun j _ hj => ?_
  have hj' : j + 1 < b.length := by rw [List.length_tail] at hj; omega
  simp [item_of_lt hj', Nat.add_comm 1 j]

/-- One sample through the filter whose registers hold the last inputs and outputs: the output is that of the
recurrence, and the registers hold the last inputs and outputs again. -/
theorem filterTick_lastOf (hb : b.length = M + 1) (ha : a.length = M) (hv : v.length = u.length) (x : S) :
    filterTick N b a (lastOf N u M u.length) (lastOf N v M u.length) M x =
      (iirOutput N b a M (u ++ [x]) v u.length,
        lastOf N (u ++ [x]) M (u.length + 1),
        lastOf N (v ++ [iirOutput N b a M (u ++ [x]) v u.length]) M (u.length + 1)) := by
  have hff : tapProducts N N.add (N.mul (item N b 0) x) b.tail (lastOf N u M u.length) =
      feedForward N b M (u ++ [x]) u.length := by
    rw [← map_item_tail (N := N) hb, tapProducts_lastOf, feedForward, item_append_length]
    refine List.foldl_ext _ _ _ fun acc k hk => ?_
    rw [delayed_append u x (List.mem_range'_1.1 hk).1]
  have hout : tapProducts N N.sub (feedForward N b M (u ++ [x]) u.length) a (lastOf N v M u.length) =
      iirOutput N b a M (u ++ [x]) v u.length := by
    conv_lhs => rw [← map_item_pred (N := N) ha]
    exact tapProducts_lastOf ..
  have hregs := lastOf_append (N := N) v (iirOutput N b a M (u ++ [x]) v u.length) M
  rw [hv] at hregs
  simp only [filterTick, hff, hout, lastOf_append, hregs]

/-- One more sample after a stream: its output after the others, the registers those it leaves. -/
theorem filterTicks_append (N : Num S) (b a : List S) (M : Nat) (u : List S) (x : S) (inputs outputs : List S) :
    filterTicks N b a M (u ++ [x]) inputs outputs =
      let before := filterTicks N b a M u inputs outputs
      let tick := filterTick N b a before.2.1 before.2.2 M x
      (before.1 ++ [tick.1], tick.2) := by
  induction u generalizing inputs outputs with
  | nil => rfl
  | cons y u ih => simp only [List.cons_append, filterTicks, ih]

/-- Settles O31, by induction on the stream from its end: the registers hold the last inputs and outputs after
every sample. -/
theorem streamingFilterRefinesTheRecurrence : Obligations.StreamingFilterRefinesTheRecurrence := by
  intro S N b a u M hb ha
  induction u using List.reverseRecOn with
  | nil => simp [filterTicks, iir, lastOf_nil]
  | append_singleton u x ih =>
    have hprefix : iir N b a M (u ++ [x]) u.length = iir N b a M u u.length :=
      iir_congr fun j hj => item_append_of_lt hj _
    rw [filterTicks_append, ih]
    simp only [filterTick_lastOf hb ha (length_iir ..), List.length_append, List.length_singleton, iir_succ,
      hprefix]

end Sys2Proof.Machine
end

section
/-!
The downconverter: the phase index, and the operations MIX and FORM with their operands held (42 R110, R111,
R114).
-/

namespace Sys2Proof.Machine

variable {S : Type} {N : Num S} {c : Config S} {s t : Block S} {b : Bank}

/-! ## The phase index -/

theorem phase_zero (P step : Nat) : phase P step 0 = 0 := by simp [phase]

theorem phase_succ (P step n : Nat) : phase P step (n + 1) = (phase P step n + step) % P := by
  rw [phase, phase, Nat.mod_add_mod, Nat.succ_mul]

theorem phase_lt {P : Nat} (hP : 0 < P) (step n : Nat) : phase P step n < P := Nat.mod_lt _ hP

/-- Settles O33: a product modulo the period grows by the step modulo the period. -/
theorem phaseIndexSteps : Obligations.PhaseIndexSteps := fun P step n hstep =>
  ⟨phase_zero P step, phase_succ P step n, phase_lt (Nat.zero_lt_of_lt hstep) step n⟩

/-! ## MIX -/

theorem getElem?_mixStream {u tones : List S} {n : Nat} {y x : S} (hy : u[n]? = some y)
    (hx : tones[n]? = some x) : (mixStream N u tones)[n]? = some (N.mul (N.mul N.two y) x) := by
  simp [mixStream, mixProduct, List.getElem?_zipWith_eq_some, hy, hx]

/-- A tone table holds, at the phase indexes of a record, one tone for each sample. -/
theorem holds_phases {P step len : Nat} {tones : List S} (hlen : tones.length = len)
    (himp : ∀ n < len, b.implemented c (phase P step n) = true)
    (hentry : ∀ n < len, s.entry b (phase P step n) = tones[n]?) : Holds c s b (phases P step len) tones := by
  refine ⟨fun k hk => ?_, List.ext_getElem (by simp [hlen]) fun n hn _ => ?_⟩
  · obtain ⟨n, hn, rfl⟩ := List.mem_map.1 hk
    exact himp n (List.mem_range.1 hn)
  · have hn' : n < len := by simpa using hn
    simp [phases, hentry n hn', hlen, hn']

/-- Settles O34: the tables hold the tones, so MIX answers, and its streams are the products element by
element. -/
theorem mixMultipliesByTheTones : Obligations.MixMultipliesByTheTones := by
  intro s cosines sines N k hP hy hcos hsin htones
  have himp : ∀ n < s.len.toNat, k n < Config.machine.maxPer := fun n hn => (htones n hn).1
  have hc : Holds Config.machine s.toBlock .loCos (phases s.loPer.toNat s.loStep.toNat s.len.toNat) cosines :=
    holds_phases hcos (fun n hn => decide_eq_true (himp n hn)) fun n hn => (htones n hn).2.1
  have hs : Holds Config.machine s.toBlock .loSin (phases s.loPer.toNat s.loStep.toNat s.len.toNat) sines :=
    holds_phases hsin (fun n hn => decide_eq_true (himp n hn)) fun n hn => (htones n hn).2.2
  have hmix := mix_eq_ok.2 ⟨cosines, sines, .inl (Nat.one_le_iff_ne_zero.1 hP), hy.ge, hc, hs, rfl⟩
  rw [List.take_of_length_le hy.le] at hmix
  refine ⟨_, outcomeOf_afterStage_ok hmix, rfl, ?_, ?_, fun n y co si hyn hco hsi => ⟨?_, ?_⟩⟩
  · simp [System.withBlock, mixStream, hy, hcos]
  · simp [System.withBlock, mixStream, hy, hsin]
  · exact getElem?_mixStream hyn hco
  · exact getElem?_mixStream hyn hsi

/-! ## FORM -/

/-- FORM leaves every address but those of the record's entries in the output banks as it was (42 R114). -/
theorem form_read_other (h : form c s = .ok t) {a : Nat}
    (ha : ∀ n < s.len.toNat, a ≠ Bank.address .ybI n ∧ a ≠ Bank.address .ybQ n) :
    t.mem.read a = s.mem.read a := by
  obtain ⟨-, -, -, -, hread⟩ := form_eq_ok h
  have haddr : ∀ b : Bank, b.address 0 ≤ a → b.address (a - b.address 0) = a := by
    intro b; unfold Bank.address; omega
  rw [hread, if_neg, if_neg]
  · rintro ⟨hle, hlt⟩
    exact (ha (a - Bank.address .ybI 0) (by omega)).1 (haddr .ybI hle).symm
  · rintro ⟨hle, hlt⟩
    exact (ha (a - Bank.address .ybQ 0) (by omega)).2 (haddr .ybQ hle).symm

/-- Settles O35: FORM answers on a record within the banks, and its entries are read at their flat addresses. -/
theorem formStoresTheComplexBaseband : Obligations.FormStoresTheComplexBaseband := by
  intro s hib hqb hlen
  obtain ⟨t, ht⟩ := form_total hib.ge hqb.ge hlen
  obtain ⟨-, -, -, hframe, -⟩ := form_eq_ok ht
  have hindex : ∀ n < s.len.toNat, n < 2 ^ 24 := fun n hn => hn.trans_le (len_le_of_form ht)
  refine ⟨_, outcomeOf_afterStage_ok ht, ?_, fun n hn => ⟨?_, ?_⟩, fun a ha => ?_⟩
  · rw [hframe]; rfl
  · have hI := form_entry_ybI ht (hindex n hn)
    rwa [if_pos hn, Block.entry, address_eq] at hI
  · have hQ := form_entry_ybQ ht (hindex n hn)
    rwa [if_pos hn, Block.entry, address_eq] at hQ
  · refine form_read_other ht fun n hn => ?_
    rw [address_eq, address_eq]
    exact ha n hn

end Sys2Proof.Machine
end

section
/-!
Peak and median: the order of law L1 on well-formed values, the greatest magnitude, and the one ascending
arrangement (43 R121, R122; 00 R8).
-/

namespace Sys2Proof.Machine

variable {S : Type} {N : Num S} {a b c first : S} {l m s rest : List S}

/-! ## The order of law L1 -/

/-- Both values are well formed, and the second is not below the first. -/
def WfLe (N : Num S) (a b : S) : Prop := N.wf a = true ∧ N.wf b = true ∧ N.lt b a = false

section Order

variable (hN : N.Lawful)
include hN

theorem WfLe.refl (ha : N.wf a = true) : WfLe N a a := ⟨ha, ha, hN.lt_irrefl a ha⟩

/-- A value below another one is not above it. -/
theorem WfLe.of_lt (ha : N.wf a = true) (hb : N.wf b = true) (h : N.lt a b = true) : WfLe N a b := by
  refine ⟨ha, hb, Bool.eq_false_iff.2 fun hba => ?_⟩
  have haa := hN.lt_trans a b a ha hb ha h hba
  rw [hN.lt_irrefl a ha] at haa
  cases haa

theorem WfLe.antisymm (h : WfLe N a b) (h' : WfLe N b a) : a = b := by
  obtain ⟨ha, hb, hba⟩ := h
  obtain ⟨-, -, hab⟩ := h'
  simpa [hab, hba] using hN.lt_total a b ha hb

theorem WfLe.trans (h : WfLe N a b) (h' : WfLe N b c) : WfLe N a c := by
  obtain ⟨ha, hb, hba⟩ := h
  obtain ⟨-, hc, hcb⟩ := h'
  refine ⟨ha, hc, Bool.eq_false_iff.2 fun hca => ?_⟩
  rcases hN.lt_total a b ha hb with hab | rfl | h
  · rw [hN.lt_trans c a b hc ha hb hca hab] at hcb
    cases hcb
  · rw [hca] at hcb
    cases hcb
  · rw [h] at hba
    cases hba

/-! ## The peak -/

/-- The greater of two values is above both. -/
theorem wfLe_maxStep (ha : N.wf a = true) (hb : N.wf b = true) :
    WfLe N a (maxStep N a b) ∧ WfLe N b (maxStep N a b) := by
  unfold maxStep
  split
  · next h => exact ⟨.of_lt hN ha hb h, .refl hN hb⟩
  · next h => exact ⟨.refl hN ha, hb, ha, Bool.eq_false_iff.2 h⟩

/-- No magnitude is above the peak. -/
theorem wfLe_peakOf (h : AllWf N (first :: rest)) : ∀ x ∈ first :: rest, WfLe N x (peakOf N first rest) := by
  induction rest generalizing first with
  | nil =>
    intro x hx
    obtain rfl := List.mem_singleton.1 hx
    exact .refl hN (h x hx)
  | cons y t ih =>
    obtain ⟨hfirst, hy, ht⟩ : N.wf first = true ∧ N.wf y = true ∧ AllWf N t := by
      simpa [AllWf] using h
    obtain ⟨hfm, hym⟩ := wfLe_maxStep hN hfirst hy
    have hle : ∀ x ∈ maxStep N first y :: t, WfLe N x (peakOf N first (y :: t)) :=
      ih (List.forall_mem_cons.2 ⟨hfm.2.1, ht⟩)
    obtain ⟨hmax, hrest⟩ := List.forall_mem_cons.1 hle
    exact List.forall_mem_cons.2 ⟨hfm.trans hN hmax, List.forall_mem_cons.2 ⟨hym.trans hN hmax, hrest⟩⟩

end Order

/-- The peak is one of the magnitudes. -/
theorem peakOf_mem (N : Num S) (first : S) (rest : List S) : peakOf N first rest ∈ first :: rest := by
  refine List.foldlRecOn (motive := (· ∈ first :: rest)) _ _ (by simp) fun p hp x hx => ?_
  unfold maxStep
  split
  · exact List.mem_cons_of_mem _ hx
  · exact hp

/-- Settles O38: the peak is above every magnitude, and another one above all would be above the peak. -/
theorem peakIsTheGreatestMagnitude : Obligations.PeakIsTheGreatestMagnitude := by
  intro S N hN first rest hwf
  have hmem := peakOf_mem N first rest
  have hgreatest := wfLe_peakOf hN hwf
  refine ⟨⟨hmem, fun x hx => (hgreatest x hx).2.2⟩, fun p hp hmax => ?_⟩
  exact (hgreatest p hp).antisymm hN ⟨hwf _ hmem, hwf p hp, hmax _ hmem⟩

/-! ## The ascending arrangement -/

/-- An insertion into an ascending list of well-formed values leaves it ascending. -/
theorem insertAscending_pairwise (hN : N.Lawful) (ha : N.wf a = true) (hl : AllWf N l)
    (h : l.Pairwise (WfLe N)) : (insertAscending N a l).Pairwise (WfLe N) := by
  induction l with
  | nil => exact List.pairwise_singleton _ _
  | cons y t ih =>
    obtain ⟨hyt, ht⟩ := List.pairwise_cons.1 h
    obtain ⟨hy, hwt⟩ := List.forall_mem_cons.1 hl
    unfold insertAscending
    split
    · next hlt =>
      refine List.pairwise_cons.2 ⟨fun z hz => ?_, ih hwt ht⟩
      rcases List.mem_cons.1 ((insertAscending_perm N a t).mem_iff.1 hz) with rfl | hz
      · exact .of_lt hN hy ha hlt
      · exact hyt z hz
    · next hlt =>
      have hay : WfLe N a y := ⟨ha, hy, Bool.eq_false_iff.2 hlt⟩
      exact List.pairwise_cons.2 ⟨List.forall_mem_cons.2 ⟨hay, fun z hz => hay.trans hN (hyt z hz)⟩, h⟩

theorem ascending_pairwise (hN : N.Lawful) (h : AllWf N l) : (ascending N l).Pairwise (WfLe N) := by
  induction l with
  | nil => exact List.Pairwise.nil
  | cons x t ih =>
    obtain ⟨hx, ht⟩ := List.forall_mem_cons.1 h
    exact insertAscending_pairwise hN hx (fun y hy => ht y ((ascending_perm N t).mem_iff.1 hy)) (ih ht)

/-- An ascending arrangement of the values, neighbour by neighbour, as 43 R122 defines it. -/
def IsArrangement (N : Num S) (m s : List S) : Prop :=
  s.Perm m ∧ ∀ j x y, s[j]? = some x → s[j + 1]? = some y → N.lt y x = false

theorem isArrangement_ascending (hN : N.Lawful) (h : AllWf N m) : IsArrangement N m (ascending N m) := by
  refine ⟨ascending_perm N m, fun j x y hx hy => ?_⟩
  obtain ⟨hj, rfl⟩ := List.getElem?_eq_some_iff.1 hx
  obtain ⟨hj', rfl⟩ := List.getElem?_eq_some_iff.1 hy
  exact (List.pairwise_iff_getElem.1 (ascending_pairwise hN h) j (j + 1) hj hj' j.lt_succ_self).2.2

/-- Neighbours in order put every two elements in order, since the order of L1 is transitive. -/
theorem IsArrangement.pairwise (hN : N.Lawful) (h : AllWf N m) (hs : IsArrangement N m s) :
    s.Pairwise (WfLe N) := by
  obtain ⟨hperm, hnext⟩ := hs
  have hwf : AllWf N s := fun x hx => h x (hperm.mem_iff.1 hx)
  have : Trans (WfLe N) (WfLe N) (WfLe N) := ⟨fun h h' => h.trans hN h'⟩
  exact (List.isChain_iff_getElem.2 fun j _ => ⟨hwf _ (List.getElem_mem _), hwf _ (List.getElem_mem _),
    hnext j _ _ (List.getElem?_eq_getElem _) (List.getElem?_eq_getElem _)⟩).pairwise

/-- There is one ascending arrangement (43 R122). -/
theorem IsArrangement.eq_ascending (hN : N.Lawful) (h : AllWf N m) (hs : IsArrangement N m s) :
    s = ascending N m :=
  List.Perm.eq_of_pairwise (fun _ _ _ _ h h' => h.antisymm hN h') (hs.pairwise hN h)
    (ascending_pairwise hN h) (hs.1.trans (ascending_perm N m).symm)

/-! ## The median -/

@[simp] theorem length_ascending (N : Num S) (l : List S) : (ascending N l).length = l.length :=
  (ascending_perm N l).length_eq

theorem getElem?_ascending {k : Nat} (hk : k < l.length) :
    (ascending N l)[k]? = some (item N (ascending N l) k) := by
  have hk' : k < (ascending N l).length := by rwa [length_ascending]
  rw [item_of_lt hk', List.getElem?_eq_getElem hk']

/-- Settles O39: every arrangement is the one that `ascending` gives, in which the median is found. -/
theorem medianIsTheMiddleOfTheArrangement : Obligations.MedianIsTheMiddleOfTheArrangement := by
  refine ⟨fun S N hN m hm hwf => ⟨⟨_, isArrangement_ascending hN hwf⟩, fun s s' hs hs' => ?_, fun s hs => ?_⟩,
    by decide +kernel, by decide +kernel, by decide +kernel⟩
  · exact (IsArrangement.eq_ascending hN hwf hs).trans (IsArrangement.eq_ascending hN hwf hs').symm
  · obtain rfl := IsArrangement.eq_ascending hN hwf hs
    have hpos : 0 < m.length := List.length_pos_iff.2 hm
    refine ⟨fun hodd => ?_, fun heven => ?_⟩
    · rw [med, if_pos hodd]
      exact getElem?_ascending (by omega)
    · refine ⟨_, _, getElem?_ascending (by omega), getElem?_ascending (by omega), ?_⟩
      rw [med, if_neg (by omega)]

end Sys2Proof.Machine
end

section
/-!
ENV, STAT and GATE with their operands held (43 R120 to R126), and the results that DONE forwards (43 R125).
-/

namespace Sys2Proof.Machine

variable {S : Type} {N : Num S} {u v : List S} {b : Bank} {s : State} {bank : BankNo} {index : Index}

/-! ## ENV -/

theorem getElem?_envelope {n : Nat} {x y : S} (hx : u[n]? = some x) (hy : v[n]? = some y) :
    (envelope N u v)[n]? = some (N.mag x y) := by
  simp [envelope, List.getElem?_zipWith_eq_some, hx, hy]

/-- Settles O36: ENV reads both streams whole. -/
theorem envTakesTheMagnitudes : Obligations.EnvTakesTheMagnitudes := by
  intro s hib hqb
  have henv := (env_eq_ok (c := Config.machine)).2 ⟨hib.ge, hqb.ge, rfl⟩
  rw [List.take_of_length_le hib.le, List.take_of_length_le hqb.le] at henv
  refine ⟨_, outcomeOf_afterStage_ok henv, rfl, ?_, fun n x y hx hy => getElem?_envelope hx hy⟩
  simp [System.withBlock, envelope, hib, hqb]

/-! ## STAT -/

/-- Settles O37: STAT reads the magnitudes whole. -/
theorem statTakesPeakAndMedian : Obligations.StatTakesPeakAndMedian := by
  intro s first rest hm hlen
  have htake : s.m.take s.len.toNat = first :: rest := by rw [List.take_of_length_le hlen.le, hm]
  have hstat := (stat_eq_ok (c := Config.machine)).2 ⟨first, rest, hlen.ge, htake, rfl⟩
  rw [← hm] at hstat
  exact outcomeOf_afterStage_ok hstat

/-! ## GATE -/

/-- Settles O40, from what GATE answers on a block that holds PEAK and THR. -/
theorem gateComparesPeakWithThreshold : Obligations.GateComparesPeakWithThreshold :=
  ⟨fun _ peak thr hpeak hthr => outcomeOf_afterStage_ok (gate_eq_ok.2 ⟨peak, thr, hpeak, hthr, rfl⟩),
    by decide +kernel, by decide +kernel, by decide +kernel⟩

/-- Settles O41: by O40 GATE steps in both states by the same comparison. -/
theorem medianTakesNoPartInTheDecision : Obligations.MedianTakesNoPartInTheDecision := by
  obtain ⟨hgate, -⟩ := gateComparesPeakWithThreshold
  exact fun s peak thr x hpeak hthr =>
    ⟨_, _, hgate s peak thr hpeak hthr, hgate { s with median := x } peak thr hpeak hthr, rfl, rfl, rfl⟩

/-- A magnitude of well-formed values is not below zero (00 R8 L4). -/
theorem not_lt_zero_of_mem_envelope (hN : N.Lawful) (hu : AllWf N u) (hv : AllWf N v) {x : S}
    (hx : x ∈ envelope N u v) : N.lt x N.zero = false := by
  obtain ⟨j, hj, rfl⟩ := List.mem_iff_getElem.1 hx
  simp only [envelope, List.getElem_zipWith]
  exact hN.mag_not_neg _ _ (hu _ (List.getElem_mem _)) (hv _ (List.getElem_mem _))

/-- Settles O42: the peak is one of the magnitudes. -/
theorem zeroThresholdAlwaysSignalPresent : Obligations.ZeroThresholdAlwaysSignalPresent := by
  intro S N hN ib qb first rest hib hqb henv
  have hpeak : peakOf N first rest ∈ envelope N ib qb := henv ▸ peakOf_mem N first rest
  rw [not_lt_zero_of_mem_envelope hN hib hqb hpeak]
  rfl

/-! ## The results in DONE -/

/-- The number of an output bank. -/
theorem exists_output_bank (h : bank = 0x09#8 ∨ bank = 0x0A#8) :
    ∃ b : Bank, bank.toNat = b.number ∧ (b = .ybI ∨ b = .ybQ) := by
  rcases h with rfl | rfl
  · exact ⟨.ybI, rfl, .inl rfl⟩
  · exact ⟨.ybQ, rfl, .inr rfl⟩

theorem not_unimplemented_output {c : Config S} (h : bank = 0x09#8 ∨ bank = 0x0A#8)
    (hindex : index.toNat < c.maxLen) : ¬ Unimplemented c bank index := by
  rcases h with rfl | rfl <;> simp [Unimplemented, hindex]

/-- In DONE both output banks hold the entries below LEN (42 R114). -/
theorem Inv.output_held {c : Config S} {s : Block S} {n : Nat} (h : Inv c s) (hs : s.stage = .done)
    (hb : b = .ybI ∨ b = .ybQ) (hn : n < 2 ^ 24) (hlen : n < s.len.toNat) : ∃ v, s.entry b n = some v := by
  have hprogress : 7 ≤ s.stage.progress := by simp [hs, Stage.progress]
  rcases hb with rfl | rfl
  · exact Option.isSome_iff_exists.1 ((h.ybI_bank n hn).2 ⟨hprogress, hlen⟩)
  · exact Option.isSome_iff_exists.1 ((h.ybQ_bank n hn).2 ⟨hprogress, hlen⟩)

/-- With OUT_LEN 0 no entry of an output bank is readable (20 R46). -/
theorem readable_output_of_outLen_zero {c : Config S} {st : Stage} (hb : bank.toNat = b.number)
    (ho : b.isOutput = true) : readable st 0#32 (resolve c bank index) = false := by
  rw [resolve_bank b hb, entryLoc]
  split
  · simp [readable, ho]
  · rfl

/-- Settles O53: under the invariant DONE holds both statistics and the output entries below LEN, and OUT_LEN is
LEN after SIGNAL_PRESENT and 0 after NO_SIGNAL. -/
theorem resultsAreForwardedOnlyOnSignal : Obligations.ResultsAreForwardedOnlyOnSignal := by
  intro s h hs
  have hprogress : s.stage.progress = 10 := by rw [hs]; rfl
  obtain ⟨peak, hpeak⟩ := Option.isSome_iff_exists.1 (h.peak_iff.2 (by omega))
  obtain ⟨median, hmedian⟩ := Option.isSome_iff_exists.1 (h.median_iff.2 (by omega))
  obtain ⟨-, hreadPeak, -, -⟩ := numericReadAnswersTheHeldValue s peak
  obtain ⟨-, -, hreadMedian, -⟩ := numericReadAnswersTheHeldValue s median
  refine ⟨⟨peak, hpeak, hreadPeak hs hpeak⟩, ⟨median, hmedian, hreadMedian hs hmedian⟩,
    fun bank index hbank => ?_⟩
  obtain ⟨b, hnumber, hb⟩ := exists_output_bank hbank
  refine ⟨fun hsignal hindex => ?_, fun hnone => exec_rd_err ?_⟩
  · obtain ⟨v, hv⟩ := h.output_held hs hb index.isLt hindex
    rw [Block.entry, address_of_bank _ hnumber] at hv
    obtain ⟨-, -, -, hreadEntry⟩ := numericReadAnswersTheHeldValue s v
    obtain ⟨⟨⟨-, hmax⟩, -⟩, -⟩ := h.configured (by omega)
    obtain ⟨h9, hA⟩ : 0x09 ≤ bank.toNat ∧ bank.toNat ≤ 0x0A := by rcases hbank with rfl | rfl <;> decide
    have houtLen : s.outLen = s.len := by simpa [hsignal] using h.outLen_eq
    exact ⟨v, hv, hreadEntry bank index (.inr ⟨h9, hA, hs, houtLen ▸ hindex⟩)
      (not_unimplemented_output hbank (hindex.trans_le hmax)) hv⟩
  · have houtLen : s.outLen = 0#32 := by simpa [hnone] using h.outLen_eq
    rw [houtLen]
    exact readable_output_of_outLen_zero hnumber (by rcases hb with rfl | rfl <;> rfl)

end Sys2Proof.Machine
end

section
/-!
A silent record through the pipeline (43 R127): every stage turns zeros into zeros, by law L2 of 00 R8, and the
gate finds the peak below a positive threshold.
-/

namespace Sys2Proof.Machine

variable {S : Type} {N : Num S} {c : Config S} {s t : Block S} {b bB bA : Bank} {l : List S} {thr : S}

/-! ## The numeric functions on zeros -/

theorem mixStream_zeros (hN : N.Lawful) {n : Nat} {tones : List S} (hlen : tones.length = n) (h : AllWf N tones) :
    mixStream N (List.replicate n N.zero) tones = List.replicate n N.zero := by
  refine List.eq_replicate_iff.2 ⟨by simp [mixStream, hlen], fun x hx => ?_⟩
  obtain ⟨j, hj, rfl⟩ := List.mem_iff_getElem.1 hx
  simp only [mixStream, List.getElem_zipWith, List.getElem_replicate, mixProduct]
  rw [hN.mul_zero _ hN.wf_two, hN.zero_mul _ (h _ (List.getElem_mem _))]

theorem envelope_zeros (hN : N.Lawful) (n : Nat) :
    envelope N (List.replicate n N.zero) (List.replicate n N.zero) = List.replicate n N.zero := by
  rw [envelope, List.zipWith_replicate, min_self, hN.mag_zero_zero]

theorem med_eq_zero (hN : N.Lawful) (h : ∀ x ∈ l, x = N.zero) : med N l = N.zero := by
  have hasc : ∀ x ∈ ascending N l, x = N.zero := fun x hx => h x ((ascending_perm N l).mem_iff.1 hx)
  unfold med
  split
  · exact item_eq_zero hasc _
  · rw [item_eq_zero hasc, item_eq_zero hasc, hN.add_zero_zero, hN.half_zero]

/-! ## The operands of a run that passes CHECK -/

/-- A filter finds its coefficients, well formed (20 R48). -/
theorem exists_coefficients {M : Nat} (hB : ∀ k, k ≤ M → EntryWf c s bB k)
    (hA : ∀ k, 1 ≤ k → k ≤ M → EntryWf c s bA k) (hiB : ∀ k ≤ M, bB.implemented c k = true)
    (hiA : ∀ k, 1 ≤ k → k ≤ M → bA.implemented c k = true) : ∃ bs as,
      Holds c s bB (List.range (M + 1)) bs ∧ Holds c s bA (List.range' 1 M) as ∧
      AllWf c.num bs ∧ AllWf c.num as := by
  have hrange : ∀ k ∈ List.range (M + 1), k ≤ M := fun k hk => Nat.le_of_lt_succ (List.mem_range.1 hk)
  have hrange' : ∀ k ∈ List.range' 1 M, 1 ≤ k ∧ k ≤ M := fun k hk => by
    rw [List.mem_range'_1] at hk; omega
  obtain ⟨bs, hbs, hbw⟩ := holds_of_entryWf (fun k hk => hiB k (hrange k hk)) fun k hk => hB k (hrange k hk)
  obtain ⟨as, has, haw⟩ := holds_of_entryWf (fun k hk => hiA k (hrange' k hk).1 (hrange' k hk).2)
    fun k hk => hA k (hrange' k hk).1 (hrange' k hk).2
  exact ⟨bs, as, hbs, has, hbw, haw⟩

theorem exists_bandpass_coefficients (hc : Configured c s) (hn : Needed c s) : ∃ bs as,
    Holds c s .bpB (List.range (s.bpOrd.toNat + 1)) bs ∧ Holds c s .bpA (List.range' 1 s.bpOrd.toNat) as ∧
    AllWf c.num bs ∧ AllWf c.num as := by
  obtain ⟨-, hM, -⟩ := hc
  obtain ⟨-, hB, hA, -⟩ := hn
  exact exists_coefficients hB hA (fun k hk => by simp [Bank.implemented]; omega)
    fun k h1 hk => by simp [Bank.implemented]; omega

theorem exists_lowpass_coefficients (hc : Configured c s) (hn : Needed c s) : ∃ bs as,
    Holds c s .lpB (List.range (s.lpOrd.toNat + 1)) bs ∧ Holds c s .lpA (List.range' 1 s.lpOrd.toNat) as ∧
    AllWf c.num bs ∧ AllWf c.num as := by
  obtain ⟨-, -, hM, -⟩ := hc
  obtain ⟨-, -, -, hB, hA, -⟩ := hn
  exact exists_coefficients hB hA (fun k hk => by simp [Bank.implemented]; omega)
    fun k h1 hk => by simp [Bank.implemented]; omega

/-- MIX finds the tones of a table, one for each sample and well formed (20 R48). -/
theorem exists_tones {step n P : Nat} (hP : 0 < P) (hb : ∀ k < P, EntryWf c s b k)
    (hi : ∀ k < P, b.implemented c k = true) :
    ∃ tones, Holds c s b (phases P step n) tones ∧ WfStream c n tones := by
  obtain ⟨tones, htones, -⟩ := holds_of_entryWf (fun k hk => hi k (lt_of_mem_phases hP hk))
    fun k hk => hb k (lt_of_mem_phases hP hk)
  exact ⟨tones, htones, tones_wfStream hP hb htones⟩

/-! ## The stages of a silent run -/

/-- A stream of LEN zeros. -/
abbrev silence (c : Config S) (len : Word) : List S := List.replicate len.toNat c.num.zero

/-- What a silent run starts from: a legal configuration, well-formed operands, a record of zeros and the
threshold `thr`. -/
structure SilentInputs (c : Config S) (thr : S) (s : Block S) : Prop where
  configured : Configured c s
  needed : Needed c s
  record : ∀ n, n < s.len.toNat → s.entry .x n = some c.num.zero
  thr_held : s.thr = some thr

/-- A run writes none of its inputs (10 R36). -/
theorem KeepsInputs.silentInputs (h : KeepsInputs s t) (hs : SilentInputs c thr s) : SilentInputs c thr t := by
  obtain ⟨hc, hn, hrecord, hthr⟩ := hs
  have ⟨elen, _, _, _, _, ethr, _⟩ := h
  have hmax := c.maxLen_le
  have ⟨⟨_, hlen⟩, _⟩ := hc
  refine ⟨h.configured hc, h.needed hc hn, fun n hn => ?_, ethr.trans hthr⟩
  rw [elen] at hn
  rw [h.entry rfl (by omega), hrecord n hn]

/-- The stream that the operation ending at `progress` produces is zero once that operation has run. A function of
the stage, as in `Held`: for two given stages before or after that operation it says the same by computation. -/
def SilentStream (c : Config S) (st : Stage) (progress : Nat) (len : Word) (l : List S) : Prop :=
  if progress ≤ st.progress then l = silence c len else True

/-- A statistic is zero once STAT has run. -/
def SilentStatistic (c : Config S) (st : Stage) (o : Option S) : Prop :=
  if 9 ≤ st.progress then o = some c.num.zero else True

/-- A silent run at a stage: its inputs, and zero in all it has produced. -/
structure Silent (c : Config S) (thr : S) (st : Stage) (s : Block S) : Prop where
  stage : s.stage = st
  inputs : SilentInputs c thr s
  ybp : SilentStream c st 3 s.len s.ybp
  i : SilentStream c st 4 s.len s.i
  q : SilentStream c st 4 s.len s.q
  ib : SilentStream c st 5 s.len s.ib
  qb : SilentStream c st 6 s.len s.qb
  m : SilentStream c st 8 s.len s.m
  peak : SilentStatistic c st s.peak
  median : SilentStatistic c st s.median

theorem check_silent (h : SilentInputs c thr s) : ∃ t, check c s = .ok t ∧ Silent c thr .bpf t :=
  ⟨_, check_eq_ok.2 (.inr ⟨configTest_eq_none.2 h.configured, neededWf_iff.2 h.needed, rfl⟩),
    { stage := rfl
      inputs := { h with }
      ybp := trivial
      i := trivial
      q := trivial
      ib := trivial
      qb := trivial
      m := trivial
      peak := trivial
      median := trivial }⟩

theorem bpf_silent (h : Silent c thr .bpf s) : ∃ t, bpf c s = .ok t ∧ Silent c thr .mix t := by
  obtain ⟨bs, as, hbs, has, hbw, haw⟩ := exists_bandpass_coefficients h.inputs.configured h.inputs.needed
  obtain ⟨⟨-, hmax⟩, -⟩ := h.inputs.configured
  have hrecord : Holds c s .x (List.range s.len.toNat) (silence c s.len) :=
    ⟨fun k hk => decide_eq_true ((List.mem_range.1 hk).trans_le hmax),
      List.ext_getElem (by simp) fun j hj _ => by simp [h.inputs.record j (by simpa using hj)]⟩
  exact ⟨_, bpf_eq_ok.2 ⟨bs, as, _, hbs, has, hrecord, rfl⟩,
    { h with
      stage := rfl
      inputs := { h.inputs with }
      ybp := filterZeroInZeroOut _ _ c.lawful _ _ _ _ _ hbw haw fun _ => List.eq_of_mem_replicate }⟩

theorem mix_silent (h : Silent c thr .mix s) : ∃ t, mix c s = .ok t ∧ Silent c thr .lpfI t := by
  have hy : s.ybp = silence c s.len := h.ybp
  obtain ⟨-, -, -, ⟨hper, hmax⟩, -⟩ := h.inputs.configured
  obtain ⟨-, -, -, -, -, hcos, hsin, -⟩ := h.inputs.needed
  obtain ⟨cosines, hcos, hcosWf⟩ := exists_tones hper hcos fun k hk => decide_eq_true (hk.trans_le hmax)
  obtain ⟨sines, hsin, hsinWf⟩ := exists_tones hper hsin fun k hk => decide_eq_true (hk.trans_le hmax)
  have hzeros : s.ybp.take s.len.toNat = silence c s.len := by simp [hy]
  exact ⟨_, mix_eq_ok.2 ⟨cosines, sines, .inl (by omega), by simp [hy], hcos, hsin, rfl⟩,
    { h with
      stage := rfl
      inputs := { h.inputs with }
      i := hzeros ▸ mixStream_zeros c.lawful hcosWf.1 hcosWf.2
      q := hzeros ▸ mixStream_zeros c.lawful hsinWf.1 hsinWf.2 }⟩

theorem lpfI_silent (h : Silent c thr .lpfI s) : ∃ t, lpfI c s = .ok t ∧ Silent c thr .lpfQ t := by
  have hi : s.i = silence c s.len := h.i
  obtain ⟨bs, as, hbs, has, hbw, haw⟩ := exists_lowpass_coefficients h.inputs.configured h.inputs.needed
  exact ⟨_, lpfI_eq_ok.2 ⟨bs, as, hbs, has, by simp [hi], rfl⟩,
    { h with
      stage := rfl
      inputs := { h.inputs with }
      ib := filterZeroInZeroOut _ _ c.lawful _ _ _ _ _ hbw haw fun _ hx =>
        List.eq_of_mem_replicate (hi ▸ List.mem_of_mem_take hx) }⟩

theorem lpfQ_silent (h : Silent c thr .lpfQ s) : ∃ t, lpfQ c s = .ok t ∧ Silent c thr .form t := by
  have hq : s.q = silence c s.len := h.q
  obtain ⟨bs, as, hbs, has, hbw, haw⟩ := exists_lowpass_coefficients h.inputs.configured h.inputs.needed
  exact ⟨_, lpfQ_eq_ok.2 ⟨bs, as, hbs, has, by simp [hq], rfl⟩,
    { h with
      stage := rfl
      inputs := { h.inputs with }
      qb := filterZeroInZeroOut _ _ c.lawful _ _ _ _ _ hbw haw fun _ hx =>
        List.eq_of_mem_replicate (hq ▸ List.mem_of_mem_take hx) }⟩

theorem form_silent (h : Silent c thr .form s) : ∃ t, form c s = .ok t ∧ Silent c thr .env t := by
  have hib : s.ib = silence c s.len := h.ib
  have hqb : s.qb = silence c s.len := h.qb
  obtain ⟨⟨-, hmax⟩, -⟩ := h.inputs.configured
  obtain ⟨t, ht⟩ := form_total (by simp [hib]) (by simp [hqb]) hmax
  have hinputs := (form_keepsInputs ht).silentInputs h.inputs
  obtain ⟨-, -, -, hframe, -⟩ := form_eq_ok ht
  rw [hframe] at hinputs ht
  exact ⟨_, ht, { h with stage := rfl, inputs := hinputs }⟩

theorem env_silent (h : Silent c thr .env s) : ∃ t, env c s = .ok t ∧ Silent c thr .stat t := by
  have hib : s.ib = silence c s.len := h.ib
  have hqb : s.qb = silence c s.len := h.qb
  have hm : envelope c.num (s.ib.take s.len.toNat) (s.qb.take s.len.toNat) =
      silence c s.len := by
    rw [hib, hqb, silence, List.take_replicate, min_self, envelope_zeros c.lawful]
  exact ⟨_, env_eq_ok.2 ⟨by simp [hib], by simp [hqb], rfl⟩,
    { h with stage := rfl, inputs := { h.inputs with }, m := hm }⟩

theorem stat_silent (h : Silent c thr .stat s) : ∃ t, stat c s = .ok t ∧ Silent c thr .gate t := by
  have hm : s.m = silence c s.len := h.m
  obtain ⟨⟨hlen, -⟩, -⟩ := h.inputs.configured
  obtain ⟨first, rest, hcons⟩ := List.exists_cons_of_length_pos
    (show 0 < (s.m.take s.len.toNat).length by simp [hm]; omega)
  have hzeros : ∀ x ∈ first :: rest, x = c.num.zero := fun x hx =>
    List.eq_of_mem_replicate (hm ▸ List.mem_of_mem_take (hcons ▸ hx))
  exact ⟨_, stat_eq_ok.2 ⟨first, rest, by simp [hm], hcons, rfl⟩,
    { h with
      stage := rfl
      inputs := { h.inputs with }
      peak := congrArg some (hzeros _ (peakOf_mem ..))
      median := congrArg some (med_eq_zero c.lawful hzeros) }⟩

/-- The gate of a silent run finds the peak, zero, below a positive threshold. -/
theorem gate_silent (h : Silent c thr .gate s) (hthr : c.num.lt c.num.zero thr = true) :
    ∃ t, gate c s = .ok t ∧ Silent c thr .done t ∧ t.result = .noSignal ∧ t.outLen = 0#32 :=
  ⟨_, gate_eq_ok.2 ⟨c.num.zero, thr, h.peak, h.inputs.thr_held, rfl⟩,
    { h with stage := rfl, inputs := { h.inputs with } }, by rw [hthr]; rfl, by rw [hthr]; rfl⟩

/-! ## Nine turns -/

theorem KeepsInputs.trans {u : Block S} (h : KeepsInputs s t) (h' : KeepsInputs t u) : KeepsInputs s u := by
  obtain ⟨hlen, hbp, hlp, hper, hstep, hthr, hread⟩ := h
  obtain ⟨hlen', hbp', hlp', hper', hstep', hthr', hread'⟩ := h'
  exact ⟨hlen'.trans hlen, hbp'.trans hbp, hlp'.trans hlp, hper'.trans hper, hstep'.trans hstep,
    hthr'.trans hthr, fun a hI hQ => (hread' a hI hQ).trans (hread a hI hQ)⟩

/-- No turn of the sequencer writes the inputs of a run (10 R36). -/
theorem stageOp_keepsInputs (h : stageOp c s = .ok t) : KeepsInputs s t := by
  obtain ⟨st, hs⟩ : ∃ st, s.stage = st := ⟨_, rfl⟩
  rw [stageOp, hs] at h
  cases st with
  | check => exact check_keepsInputs h
  | bpf => exact bpf_keepsInputs h
  | mix => exact mix_keepsInputs h
  | lpfI => exact lpfI_keepsInputs h
  | lpfQ => exact lpfQ_keepsInputs h
  | form => exact form_keepsInputs h
  | env => exact env_keepsInputs h
  | stat => exact stat_keepsInputs h
  | gate => exact gate_keepsInputs h
  | idle => exact Except.ok.inj h ▸ KeepsInputs.refl s
  | done => exact Except.ok.inj h ▸ KeepsInputs.refl s
  | error => exact Except.ok.inj h ▸ KeepsInputs.refl s

/-- A turn of the sequencer, then the others. -/
theorem turns_succ_eq_ok {n : Nat} {u : Block S} :
    turns c (n + 1) s = .ok u ↔ ∃ t, stageOp c s = .ok t ∧ turns c n t = .ok u := by
  rw [turns]
  cases stageOp c s <;> simp

theorem turns_keepsInputs {n : Nat} (h : turns c n s = .ok t) : KeepsInputs s t := by
  induction n generalizing s with
  | zero => exact Except.ok.inj h ▸ KeepsInputs.refl s
  | succ n ih =>
    obtain ⟨u, hu, ht⟩ := turns_succ_eq_ok.1 h
    exact (stageOp_keepsInputs hu).trans (ih ht)

/-- From CHECK, nine turns of a silent run answer in DONE. -/
theorem turns_silent (hs : s.stage = .check) (h : SilentInputs c thr s)
    (hthr : c.num.lt c.num.zero thr = true) :
    ∃ t, turns c 9 s = .ok t ∧ Silent c thr .done t ∧ t.result = .noSignal ∧ t.outLen = 0#32 := by
  obtain ⟨s₁, e₁, h₁⟩ := check_silent h
  obtain ⟨s₂, e₂, h₂⟩ := bpf_silent h₁
  obtain ⟨s₃, e₃, h₃⟩ := mix_silent h₂
  obtain ⟨s₄, e₄, h₄⟩ := lpfI_silent h₃
  obtain ⟨s₅, e₅, h₅⟩ := lpfQ_silent h₄
  obtain ⟨s₆, e₆, h₆⟩ := form_silent h₅
  obtain ⟨s₇, e₇, h₇⟩ := env_silent h₆
  obtain ⟨s₈, e₈, h₈⟩ := stat_silent h₇
  obtain ⟨t, e₉, hdone⟩ := gate_silent h₈ hthr
  refine ⟨t, ?_, hdone⟩
  simp only [turns, stageOp, hs, e₁, h₁.stage, e₂, h₂.stage, e₃, h₃.stage, e₄, h₄.stage, e₅, h₅.stage, e₆,
    h₆.stage, e₇, h₇.stage, e₈, h₈.stage, e₉]

/-- Settles O51: the streams of the block in DONE have the length that the run started with. -/
theorem silenceGivesNoSignal : Obligations.SilenceGivesNoSignal := by
  intro S c s thr hs hc hn hx hthr hlt zeros
  obtain ⟨t, ht, h, hresult, houtLen⟩ := turns_silent hs ⟨hc, hn, hx, hthr⟩ hlt
  obtain ⟨hlen, -⟩ := turns_keepsInputs ht
  have hzeros : silence c t.len = zeros := by rw [hlen]
  exact ⟨t, ht, h.stage, hzeros ▸ h.ybp, hzeros ▸ h.i, hzeros ▸ h.q, hzeros ▸ h.ib, hzeros ▸ h.qb,
    hzeros ▸ h.m, h.peak, h.median, hresult, houtLen⟩

end Sys2Proof.Machine
end

section
/-!
The commands RUN, CLEAR and SRESET (44 R131, R133, R134) and the table of the stages (44 R130).
-/

namespace Sys2Proof.Machine

variable {S : Type} {c : Config S} {s t : State} {i : Instr} {bank : BankNo} {index : Index}

/-! ## The commands -/

theorem exec_run_idle (h : s.stage = .idle) :
    exec .run s = .next { s with stage := .check, response := some .ok } := by
  have hrun : runCommand s.toBlock = ({ s.toBlock with stage := .check }, .ok) := if_pos h
  show execRun s = _
  rw [execRun, hrun]
  rfl

theorem exec_run_err (h : s.stage ≠ .idle) : exec .run s = .next { s with response := some .err } := by
  have hrun : runCommand s.toBlock = (s.toBlock, .err) := if_neg h
  show execRun s = _
  rw [execRun, hrun]
  rfl

theorem exec_clear_resting (h : s.stage.busy = false) :
    exec .clear s = .next (.mk (s.transact (clearColumn s.toBlock, .ok))) := by
  have hclear : clearCommand s.toBlock = (clearColumn s.toBlock, .ok) := if_neg (by simp [h])
  show execClear s = _
  rw [execClear, hclear]
  rfl

theorem exec_sreset_resting (h : s.stage.busy = false) :
    exec .sreset s = .next (.mk (s.transact (Block.reset, .ok))) := by
  have hsreset : sresetCommand s.toBlock = (Block.reset, .ok) := if_neg (by simp [h])
  show execSreset s = _
  rw [execSreset, hsreset]
  rfl

/-- Settles O10, by whether the stage is IDLE. -/
theorem runStartsTheCheck : Obligations.RunStartsTheCheck := fun _ => ⟨exec_run_idle, exec_run_err⟩

/-- Settles O8: outside BUSY the block takes the value of the reset state's block. -/
theorem sresetEndsTheSession : Obligations.SresetEndsTheSession := by
  intro s
  refine ⟨exec_sreset_resting, fun hbusy => ?_⟩
  obtain ⟨-, -, hsreset⟩ := exec_command_of_busy hbusy
  exact hsreset

/-- CLEAR empties the banks X, YB_I and YB_Q and keeps every other address (10 R35). -/
theorem clearColumn_read (b : Block S) (a : Nat) : (clearColumn b).mem.read a =
    if a / 2 ^ 24 = 0x08 ∨ a / 2 ^ 24 = 0x09 ∨ a / 2 ^ 24 = 0x0A then none else b.mem.read a := by
  rw [clearColumn_mem, Memory.read_discard, Memory.read_discard, Memory.read_discard]
  show _ = if bankOf a = 0x08 ∨ bankOf a = 0x09 ∨ bankOf a = 0x0A then none else b.mem.read a
  generalize bankOf a = n
  by_cases hn : n = 0x08 ∨ n = 0x09 ∨ n = 0x0A
  · rcases hn with rfl | rfl | rfl <;> rfl
  · rw [if_neg hn]
    simp only [not_or] at hn
    simp [Bank.number, hn]

/-- Settles O9: outside BUSY the block takes column "CLEAR", whose memory is read by `clearColumn_read`. -/
theorem clearEndsTheEvent : Obligations.ClearEndsTheEvent := by
  intro s
  refine ⟨fun hrest => ⟨_, exec_clear_resting hrest, rfl, clearColumn_read s.toBlock⟩, fun hbusy => ?_⟩
  obtain ⟨-, hclear, -⟩ := exec_command_of_busy hbusy
  exact hclear

/-! ## The stage after a turn of the sequencer -/

/-- Settles O44: with nothing to come the sequencer has the turn. -/
theorem stepIsTheSequencersTurn : Obligations.StepIsTheSequencersTurn := by
  intro s ha
  rw [step_of_empty_agenda ha, sequencerTurn_outcome]
  rfl

/-- After a turn of the sequencer the block is the one that its operation answers. -/
theorem stageOp_of_step (ha : s.agenda = [] ∨ ∃ rest, s.agenda = .sequencer :: rest) (h : step s = .next t) :
    stageOp Config.machine s.toBlock = .ok t.toBlock := by
  rcases ha with ha | ⟨rest, ha⟩
  · rw [stepIsTheSequencersTurn s ha] at h
    exact stageOp_of_exec h
  · rw [step_of_sequencer ha, sequencerTurn_outcome] at h
    exact stageOp_of_exec (y := { s with agenda := rest }) h

/-- The sequencer moves along the table while BUSY and stays otherwise (44 R130). -/
theorem stageOp_stage {b b' : Block S} (h : stageOp c b = .ok b') :
    if b.stage.busy then b'.stage ∈ b.stage.successors else b'.stage = b.stage := by
  obtain ⟨st, hs⟩ : ∃ st, b.stage = st := ⟨_, rfl⟩
  rw [stageOp, hs] at h
  rw [hs]
  cases st with
  | check => rcases check_eq_ok.1 h with ⟨-, rfl⟩ | ⟨-, -, rfl⟩ <;> simp [Stage.busy, Stage.successors]
  | bpf => obtain ⟨_, _, _, -, -, -, rfl⟩ := bpf_eq_ok.1 h; exact List.mem_singleton_self _
  | mix => obtain ⟨_, _, -, -, -, -, rfl⟩ := mix_eq_ok.1 h; exact List.mem_singleton_self _
  | lpfI => obtain ⟨_, _, -, -, -, rfl⟩ := lpfI_eq_ok.1 h; exact List.mem_singleton_self _
  | lpfQ => obtain ⟨_, _, -, -, -, rfl⟩ := lpfQ_eq_ok.1 h; exact List.mem_singleton_self _
  | form => obtain ⟨-, -, -, ht, -⟩ := form_eq_ok h; rw [ht]; exact List.mem_singleton_self _
  | env => obtain ⟨-, -, rfl⟩ := env_eq_ok.1 h; exact List.mem_singleton_self _
  | stat => obtain ⟨_, _, -, -, rfl⟩ := stat_eq_ok.1 h; exact List.mem_singleton_self _
  | gate => obtain ⟨_, _, -, -, rfl⟩ := gate_eq_ok.1 h; exact List.mem_singleton_self _
  | idle => exact Except.ok.inj h ▸ hs
  | done => exact Except.ok.inj h ▸ hs
  | error => exact Except.ok.inj h ▸ hs

/-- A CHECK that answers leads to BPF exactly when every test passes (44 R132). -/
theorem check_stage_eq_bpf {b b' : Block S} (h : check c b = .ok b') : b'.stage = .bpf ↔ Configured c b := by
  rw [← configTest_eq_none]
  rcases check_eq_ok.1 h with ⟨hbad, rfl⟩ | ⟨hgood, -, rfl⟩
  · simp [hbad]
  · simp [hgood]

/-! ## The stage after an event of the host or a reset -/

/-- The only address that names CMD (20 R41). -/
theorem address_of_resolve_cmd (h : resolve c bank index = .cmd) : bank = 0#8 ∧ index = 0#24 := by
  have hu : ¬ Unimplemented c bank index := by
    rw [← resolve_eq_unimplemented, h]
    exact nofun
  have hplace := resolve_place hu
  rw [h] at hplace
  obtain ⟨hbank, hindex⟩ := Prod.mk.inj hplace
  exact ⟨BitVec.eq_of_toNat_eq hbank.symm, BitVec.eq_of_toNat_eq hindex.symm⟩

/-- A word that names no command does nothing (30 R67 a). -/
theorem commandWrite_of_decodeCommand_none {w : Word} (hw : decodeCommand w = none) (b : Block S) :
    commandWrite w b = (b, .err) := by
  have hsome := isSome_decodeCommand w
  rw [hw] at hsome
  simp only [Option.isSome_none, Bool.false_eq, Bool.or_eq_false_iff, beq_eq_false_iff_ne] at hsome
  obtain ⟨⟨h1, h2⟩, h3⟩ := hsome
  exact commandWrite_illegal b h1 h2 h3

/-- A write that is no command leaves the stage as it is. -/
theorem writeLoc_stage {p : Payload S} (b : Block S) (hp : p.isCommandWrite bank index = false) :
    (writeLoc p b (resolve c bank index)).1.stage = b.stage := by
  obtain ⟨l, hl⟩ : ∃ l, resolve c bank index = l := ⟨_, rfl⟩
  rw [hl]
  cases p with
  | value v => cases l <;> rfl
  | word w =>
    cases l with
    | cmd =>
      obtain ⟨rfl, rfl⟩ := address_of_resolve_cmd hl
      cases hw : decodeCommand w with
      | none => exact congrArg (fun r => r.1.stage) (commandWrite_of_decodeCommand_none hw b)
      | some i => cases hp.symm.trans (isCommandWrite_iff.2 ⟨rfl, rfl, w, i, rfl, hw⟩)
    | _ => rfl

theorem exec_wr_stage {p : Payload Sample} (hwf : (Instr.wr bank index p).wellFormed = true)
    (h : exec (.wr bank index p) s = .next t) : t.stage = s.stage := by
  obtain ⟨hfits, hplain⟩ : p.fits bank = true ∧ p.isCommandWrite bank index = false := by
    simpa [Instr.wellFormed] using hwf
  obtain rfl := Host.Outcome.next.inj ((exec_wr hfits).symm.trans h)
  rw [transact_toBlock]
  split
  · exact writeLoc_stage s.toBlock hplain
  · rfl

theorem exec_rd_stage (h : exec (.rd bank index) s = .next t) : t.stage = s.stage := by
  obtain rfl := Host.Outcome.next.inj (exec_rd.symm.trans h)
  rw [answerRead_toBlock]

/-- The operations of the host move the stage by RUN in IDLE and by CLEAR and SRESET outside BUSY, and not
otherwise (44 R130). -/
theorem exec_host_stage (hhost : isStageOp i = false) (hwf : i.wellFormed = true) (h : exec i s = .next t) :
    t.stage = if i = .run ∧ s.stage = .idle then .check
      else if (i = .clear ∨ i = .sreset) ∧ s.stage.busy = false then .idle
      else s.stage := by
  cases i with
  | run =>
    by_cases hs : s.stage = .idle
    · obtain rfl := Host.Outcome.next.inj ((exec_run_idle hs).symm.trans h)
      simp [hs]
    · obtain rfl := Host.Outcome.next.inj ((exec_run_err hs).symm.trans h)
      simp [hs]
  | clear =>
    cases hs : s.stage.busy with
    | false =>
      obtain rfl := Host.Outcome.next.inj ((exec_clear_resting hs).symm.trans h)
      simp
    | true =>
      obtain ⟨-, hclear, -⟩ := exec_command_of_busy hs
      obtain rfl := Host.Outcome.next.inj (hclear.symm.trans h)
      simp
  | sreset =>
    cases hs : s.stage.busy with
    | false =>
      obtain rfl := Host.Outcome.next.inj ((exec_sreset_resting hs).symm.trans h)
      simp [Block.reset]
    | true =>
      obtain ⟨-, -, hsreset⟩ := exec_command_of_busy hs
      obtain rfl := Host.Outcome.next.inj (hsreset.symm.trans h)
      simp
  | wr bank index p => simpa using exec_wr_stage hwf h
  | rd bank index => simpa using exec_rd_stage h
  | _ => cases hhost

/-- What decodes from a host form is an operation of the host, well formed (30 R72). -/
theorem host_of_decode {h : BitVec 33} {p : Option (Payload Sample)} (hd : decode (.host h p) = .ok i) :
    isStageOp i = false ∧ i.wellFormed = true := by
  obtain ⟨hencode, hwf⟩ := encodeDecodeRoundTrip _ _ hd
  refine ⟨?_, hwf⟩
  cases i with
  | run => rfl
  | clear => rfl
  | sreset => rfl
  | wr => rfl
  | rd => rfl
  | _ => cases hencode

theorem step_of_hardwareReset {rest : List (Event Sample)} (ha : s.agenda = .hardwareReset :: rest) :
    step s = .next { toSystem := hardwareReset { s.toSystem with agenda := rest } } := by
  simp only [step_eq_outcome_fetch, fetch, ha, Fetched.outcome]

/-- Settles O45, by the agent that moves: the sequencer, the host, or a reset. -/
theorem stageChangesOnlyByTheTable : Obligations.StageChangesOnlyByTheTable := by
  intro s t hstep
  refine ⟨fun ha => ?_, fun h p rest i ha hd => ?_, fun rest ha => ?_⟩
  · have hop := stageOp_of_step ha hstep
    refine ⟨stageOp_stage hop, fun hs => check_stage_eq_bpf ?_⟩
    rwa [stageOp, hs] at hop
  · rw [step_of_host ha hd] at hstep
    obtain ⟨hhost, hwf⟩ := host_of_decode hd
    exact exec_host_stage (s := { s with agenda := rest }) hhost hwf hstep
  · obtain rfl := Host.Outcome.next.inj ((step_of_hardwareReset ha).symm.trans hstep)
    rfl

/-! ## CHECK -/

/-- The tests of CHECK on the numbers that the registers stand for. -/
theorem configTest_eq {b : Block S} : configTest c b =
    if b.len.toNat = 0 ∨ c.maxLen < b.len.toNat then .badLen
    else if c.maxOrd < b.bpOrd.toNat then .badBpOrd
    else if c.maxOrd < b.lpOrd.toNat then .badLpOrd
    else if b.loPer.toNat = 0 ∨ c.maxPer < b.loPer.toNat then .badLoPer
    else if b.loPer.toNat ≤ b.loStep.toNat then .badLoStep
    else .none := by
  have hzero : ∀ w : Word, w = 0#32 ↔ w.toNat = 0 := fun w => BitVec.toNat_inj.symm
  simp only [configTest, hzero]

theorem check_of_not_configured {b : Block S} (h : ¬ Configured c b) :
    check c b = .ok (raiseError (configTest c b) b) :=
  check_eq_ok.2 (.inl ⟨mt configTest_eq_none.1 h, rfl⟩)

theorem check_of_needed {b : Block S} (h : Configured c b) (hn : Needed c b) :
    check c b = .ok { b with stage := .bpf } :=
  check_eq_ok.2 (.inr ⟨configTest_eq_none.2 h, neededWf_iff.2 hn, rfl⟩)

theorem check_of_not_needed {b : Block S} (h : Configured c b) (hn : ¬ Needed c b) :
    check c b = .error (.refuse .unspecifiedRun) := by
  rw [check, if_pos (configTest_eq_none.2 h), if_neg (mt neededWf_iff.1 hn)]

/-- A failing test raises its code (60 R154). -/
theorem exec_check_raises {e : ErrCode} (h : configTest Config.machine s.toBlock = e) (he : e ≠ .none) :
    exec .check s = .next { s with errcode := e, stage := .error } := by
  subst h
  exact outcomeOf_afterStage_ok (check_of_not_configured (mt configTest_eq_none.2 he))

/-- Settles O22, test by test in the order of CHECK. -/
theorem checkReportsTheFirstFailingTest : Obligations.CheckReportsTheFirstFailingTest := by
  intro s c badLen badBpOrd badLpOrd badLoPer badLoStep raised
  have raise : ∀ e, configTest c s.toBlock = e → e ≠ .none → raised e := fun e => exec_check_raises
  have htest : configTest c s.toBlock = if badLen then .badLen else if badBpOrd then .badBpOrd
    else if badLpOrd then .badLpOrd else if badLoPer then .badLoPer else if badLoStep then .badLoStep
    else .none := configTest_eq
  refine ⟨fun h1 => raise _ ?_ nofun, fun h1 h2 => raise _ ?_ nofun, fun h1 h2 h3 => raise _ ?_ nofun,
    fun h1 h2 h3 h4 => raise _ ?_ nofun, fun h1 h2 h3 h4 h5 => raise _ ?_ nofun, fun h1 h2 h3 h4 h5 => ?_⟩
  · rw [htest, if_pos h1]
  · rw [htest, if_neg h1, if_pos h2]
  · rw [htest, if_neg h1, if_neg h2, if_pos h3]
  · rw [htest, if_neg h1, if_neg h2, if_neg h3, if_pos h4]
  · rw [htest, if_neg h1, if_neg h2, if_neg h3, if_neg h4, if_pos h5]
  · have hc : Configured c s.toBlock := configTest_eq_none.1
      (by rw [htest, if_neg h1, if_neg h2, if_neg h3, if_neg h4, if_neg h5])
    exact ⟨fun hn => outcomeOf_afterStage_ok (check_of_needed hc hn), fun hn =>
      congrArg (fun r => outcomeOf (s.afterStage r)) (check_of_not_needed hc hn)⟩

end Sys2Proof.Machine
end

section
/-!
A run that has passed CHECK goes through the pipeline without a stop (44 R130, R140, R141).
-/

namespace Sys2Proof.Machine

variable {S : Type} {c : Config S} {s t : Block S} {st : Stage}

/-! ## A run that is ready for its stage -/

/-- What holds once the operation that ends at `progress` has run. A function of the stage, as in `Held`: for two
given stages before or after that operation it says the same by computation. -/
def Once (st : Stage) (progress : Nat) (p : Prop) : Prop := if progress ≤ st.progress then p else True

/-- A run at a stage with all that the operations from there on need: a legal configuration, the needed set, and
the streams and the peak of the operations before. -/
structure Ready (c : Config S) (st : Stage) (s : Block S) : Prop where
  stage : s.stage = st
  configured : Configured c s
  needed : Needed c s
  ybp : Once st 3 (s.ybp.length = s.len.toNat)
  i : Once st 4 (s.i.length = s.len.toNat)
  q : Once st 4 (s.q.length = s.len.toNat)
  ib : Once st 5 (s.ib.length = s.len.toNat)
  qb : Once st 6 (s.qb.length = s.len.toNat)
  m : Once st 8 (s.m.length = s.len.toNat)
  peak : Once st 9 (s.peak.isSome = true)

theorem StreamLength.once {progress : Nat} {l : List S} (h : StreamLength s progress l) :
    Once s.stage progress (l.length = s.len.toNat) := by
  unfold StreamLength at h
  unfold Once
  split
  · next hp => rwa [if_pos hp] at h
  · trivial

/-- Past CHECK the invariant makes a run ready. -/
theorem Inv.ready (h : Inv c s) (hp : 2 ≤ s.stage.progress) : Ready c s.stage s := by
  obtain ⟨hc, hn⟩ := h.configured hp
  have hpeak : Once s.stage 9 (s.peak.isSome = true) := by
    unfold Once
    split
    · next hp => exact h.peak_iff.2 hp
    · trivial
  exact {
    stage := rfl
    configured := hc
    needed := hn
    ybp := h.ybp_length.once
    i := h.i_length.once
    q := h.q_length.once
    ib := h.ib_length.once
    qb := h.qb_length.once
    m := h.m_length.once
    peak := hpeak }

/-- In CHECK nothing has been produced, so a legal configuration and the needed set are all there is to hold. -/
theorem ready_check (hs : s.stage = .check) (hc : Configured c s) (hn : Needed c s) : Ready c .check s where
  stage := hs
  configured := hc
  needed := hn
  ybp := trivial
  i := trivial
  q := trivial
  ib := trivial
  qb := trivial
  m := trivial
  peak := trivial

/-! ## Stage by stage -/

theorem check_ready (h : Ready c .check s) : ∃ t, check c s = .ok t ∧ Ready c .bpf t :=
  ⟨_, check_of_needed h.configured h.needed, { h with stage := rfl }⟩

theorem bpf_ready (h : Ready c .bpf s) : ∃ t, bpf c s = .ok t ∧ Ready c .mix t := by
  obtain ⟨bs, as, hbs, has, -, -⟩ := exists_bandpass_coefficients h.configured h.needed
  obtain ⟨⟨-, hmax⟩, -⟩ := h.configured
  obtain ⟨-, -, -, -, -, -, -, hx⟩ := h.needed
  obtain ⟨u, hu, -⟩ := holds_of_entryWf (b := .x) (ks := List.range s.len.toNat)
    (fun k hk => decide_eq_true ((List.mem_range.1 hk).trans_le hmax)) fun k hk => hx k (List.mem_range.1 hk)
  exact ⟨_, bpf_eq_ok.2 ⟨bs, as, u, hbs, has, hu, rfl⟩, { h with stage := rfl, ybp := length_iir .. }⟩

theorem mix_ready (h : Ready c .mix s) : ∃ t, mix c s = .ok t ∧ Ready c .lpfI t := by
  have hy : s.ybp.length = s.len.toNat := h.ybp
  obtain ⟨-, -, -, ⟨hper, hmax⟩, -⟩ := h.configured
  obtain ⟨-, -, -, -, -, hcos, hsin, -⟩ := h.needed
  obtain ⟨cosines, hcos, hcosLen, -⟩ := exists_tones hper hcos fun k hk => decide_eq_true (hk.trans_le hmax)
  obtain ⟨sines, hsin, hsinLen, -⟩ := exists_tones hper hsin fun k hk => decide_eq_true (hk.trans_le hmax)
  have hlength : ∀ tones : List S, tones.length = s.len.toNat →
      (mixStream c.num (s.ybp.take s.len.toNat) tones).length = s.len.toNat := fun tones htones => by
    simp [mixStream, hy, htones]
  exact ⟨_, mix_eq_ok.2 ⟨cosines, sines, .inl (by omega), hy.ge, hcos, hsin, rfl⟩,
    { h with stage := rfl, i := hlength _ hcosLen, q := hlength _ hsinLen }⟩

theorem lpfI_ready (h : Ready c .lpfI s) : ∃ t, lpfI c s = .ok t ∧ Ready c .lpfQ t := by
  have hi : s.i.length = s.len.toNat := h.i
  obtain ⟨bs, as, hbs, has, -, -⟩ := exists_lowpass_coefficients h.configured h.needed
  exact ⟨_, lpfI_eq_ok.2 ⟨bs, as, hbs, has, hi.ge, rfl⟩, { h with stage := rfl, ib := length_iir .. }⟩

theorem lpfQ_ready (h : Ready c .lpfQ s) : ∃ t, lpfQ c s = .ok t ∧ Ready c .form t := by
  have hq : s.q.length = s.len.toNat := h.q
  obtain ⟨bs, as, hbs, has, -, -⟩ := exists_lowpass_coefficients h.configured h.needed
  exact ⟨_, lpfQ_eq_ok.2 ⟨bs, as, hbs, has, hq.ge, rfl⟩, { h with stage := rfl, qb := length_iir .. }⟩

theorem form_ready (h : Ready c .form s) : ∃ t, form c s = .ok t ∧ Ready c .env t := by
  have hib : s.ib.length = s.len.toNat := h.ib
  have hqb : s.qb.length = s.len.toNat := h.qb
  obtain ⟨⟨-, hmax⟩, -⟩ := h.configured
  obtain ⟨t, ht⟩ := form_total hib.ge hqb.ge hmax
  have hkeeps := form_keepsInputs ht
  have hinputs := And.intro (hkeeps.configured h.configured) (hkeeps.needed h.configured h.needed)
  obtain ⟨-, -, -, hframe, -⟩ := form_eq_ok ht
  rw [hframe] at hinputs ht
  obtain ⟨hc, hn⟩ := hinputs
  exact ⟨_, ht, { h with stage := rfl, configured := hc, needed := hn }⟩

theorem env_ready (h : Ready c .env s) : ∃ t, env c s = .ok t ∧ Ready c .stat t := by
  have hib : s.ib.length = s.len.toNat := h.ib
  have hqb : s.qb.length = s.len.toNat := h.qb
  have hm : (envelope c.num (s.ib.take s.len.toNat) (s.qb.take s.len.toNat)).length = s.len.toNat := by
    simp [envelope, hib, hqb]
  exact ⟨_, env_eq_ok.2 ⟨hib.ge, hqb.ge, rfl⟩, { h with stage := rfl, m := hm }⟩

theorem stat_ready (h : Ready c .stat s) : ∃ t, stat c s = .ok t ∧ Ready c .gate t := by
  have hm : s.m.length = s.len.toNat := h.m
  obtain ⟨⟨hlen, -⟩, -⟩ := h.configured
  obtain ⟨first, rest, hcons⟩ := List.exists_cons_of_length_pos
    (show 0 < (s.m.take s.len.toNat).length by simp [hm]; omega)
  exact ⟨_, stat_eq_ok.2 ⟨first, rest, hm.ge, hcons, rfl⟩, { h with stage := rfl, peak := rfl }⟩

theorem gate_ready (h : Ready c .gate s) : ∃ t, gate c s = .ok t ∧ Ready c .done t := by
  obtain ⟨peak, hpeak⟩ := Option.isSome_iff_exists.1 (show s.peak.isSome = true from h.peak)
  obtain ⟨⟨thr, hthr, -⟩, -⟩ := h.needed
  exact ⟨_, gate_eq_ok.2 ⟨peak, thr, hpeak, hthr, rfl⟩, { h with stage := rfl }⟩

/-! ## The pipeline -/

/-- A ready run in a BUSY stage goes on to the next stage, and not to ERROR, which CHECK alone enters (60 R162). -/
theorem stageOp_ready (h : Ready c st s) (hbusy : st.busy = true) :
    ∃ t st', stageOp c s = .ok t ∧ Ready c st' t ∧ st' ∈ st.successors ∧ st' ≠ .error := by
  rw [stageOp, h.stage]
  cases st with
  | check => obtain ⟨t, ht, hr⟩ := check_ready h; exact ⟨t, _, ht, hr, by decide⟩
  | bpf => obtain ⟨t, ht, hr⟩ := bpf_ready h; exact ⟨t, _, ht, hr, by decide⟩
  | mix => obtain ⟨t, ht, hr⟩ := mix_ready h; exact ⟨t, _, ht, hr, by decide⟩
  | lpfI => obtain ⟨t, ht, hr⟩ := lpfI_ready h; exact ⟨t, _, ht, hr, by decide⟩
  | lpfQ => obtain ⟨t, ht, hr⟩ := lpfQ_ready h; exact ⟨t, _, ht, hr, by decide⟩
  | form => obtain ⟨t, ht, hr⟩ := form_ready h; exact ⟨t, _, ht, hr, by decide⟩
  | env => obtain ⟨t, ht, hr⟩ := env_ready h; exact ⟨t, _, ht, hr, by decide⟩
  | stat => obtain ⟨t, ht, hr⟩ := stat_ready h; exact ⟨t, _, ht, hr, by decide⟩
  | gate => obtain ⟨t, ht, hr⟩ := gate_ready h; exact ⟨t, _, ht, hr, by decide⟩
  | idle => cases hbusy
  | done => cases hbusy
  | error => cases hbusy

/-- Past CHECK a BUSY stage has something produced before it. -/
theorem two_le_progress (hbusy : st.busy = true) (hst : st ≠ .check) : 2 ≤ st.progress := by
  cases st with
  | idle => cases hbusy
  | check => exact absurd rfl hst
  | error => cases hbusy
  | _ => decide

/-- Settles O49: past CHECK the invariant makes the run ready; CHECK answers but for the one refusal. -/
theorem stagesAfterCheckNeverStop : Obligations.StagesAfterCheckNeverStop := by
  intro S c s h hbusy
  refine ⟨fun hst => ?_, fun hst => ?_⟩
  · obtain ⟨t, st', ht, hready, hmem, herror⟩ := stageOp_ready (h.ready (two_le_progress hbusy hst)) hbusy
    obtain rfl := hready.stage
    exact ⟨t, ht, hmem, herror⟩
  · rw [stageOp, hst]
    by_cases hc : Configured c s
    · by_cases hn : Needed c s
      · exact .inl ⟨_, check_of_needed hc hn⟩
      · exact .inr ⟨hc, hn, check_of_not_needed hc hn⟩
    · exact .inl ⟨_, check_of_not_configured hc⟩

/-! ## Nine turns -/

/-- The stages of a run in order, from CHECK to DONE (44 R130). -/
def pipeline : List Stage := [.check, .bpf, .mix, .lpfI, .lpfQ, .form, .env, .stat, .gate, .done]

/-- The stages before DONE are BUSY, and each is followed in the table by the next one, or by ERROR. -/
theorem pipeline_next {k : Nat} (hk : k < 9) (h : pipeline[k]? = some st) :
    st.busy = true ∧ ∀ st' ∈ st.successors, st' ≠ .error → pipeline[k + 1]? = some st' := by
  interval_cases k <;> cases h <;> decide

/-- A run that is ready at a place of the pipeline is ready `n` places on after `n` turns. -/
theorem turns_ready {k n : Nat} (hkn : k + n ≤ 9) (hst : pipeline[k]? = some st) (h : Ready c st s) :
    ∃ t st', turns c n s = .ok t ∧ pipeline[k + n]? = some st' ∧ Ready c st' t := by
  induction n generalizing k st s with
  | zero => exact ⟨s, st, rfl, hst, h⟩
  | succ n ih =>
    obtain ⟨hbusy, hnext⟩ := pipeline_next (by omega) hst
    obtain ⟨t, st', ht, hready, hmem, herror⟩ := stageOp_ready h hbusy
    obtain ⟨u, st'', hu, hst'', hready'⟩ := ih (k := k + 1) (by omega) (hnext st' hmem herror) hready
    exact ⟨u, st'', turns_succ_eq_ok.2 ⟨t, ht, hu⟩, by rwa [Nat.add_right_comm] at hst'', hready'⟩

/-- Settles O50: a run ready in CHECK moves one place a turn; an illegal configuration is raised in the first. -/
theorem runTakesNineTurns : Obligations.RunTakesNineTurns := by
  intro S c s hs
  refine ⟨fun hc hn n hle => ?_, fun hc => ?_⟩
  · obtain ⟨t, st, ht, hst, hready⟩ := turns_ready (k := 0) (n := n) (by omega) rfl (ready_check hs hc hn)
    rw [Nat.zero_add] at hst
    exact ⟨t, ht, hready.stage ▸ hst⟩
  · have hcheck : stageOp c s = .ok (raiseError (configTest c s) s) := by
      rw [stageOp, hs]
      exact check_of_not_configured hc
    exact ⟨_, turns_succ_eq_ok.2 ⟨_, hcheck, rfl⟩, rfl, mt configTest_eq_none.1 hc⟩

end Sys2Proof.Machine
end

section
/-!
The results of a run depend on its inputs alone (44 R137): two runs that differ in no more than the working
registers, and in how the memory is written down, go on alike.
-/

namespace Sys2Proof.Machine

variable {S : Type} {c : Config S} {s s' t w : Block S} {b : Bank} {ks : List Nat} {vs : List S}

/-- The block with the memory, the delay lines and the working registers of another one. -/
abbrev Block.withWorking (s w : Block S) : Block S :=
  { s with
    mem := w.mem
    bpDelay := w.bpDelay
    lpiDelay := w.lpiDelay
    lpqDelay := w.lpqDelay
    mixN := w.mixN
    mixK := w.mixK
    statMax := w.statMax
    statOrder := w.statOrder }

/-- Two blocks agree on all that a run can see: on every item but the working registers (10 R29 to R31), and on
every read of the memory. -/
def Alike (s s' : Block S) : Prop := ∃ w : Block S, s' = s.withWorking w ∧ w.mem.read = s.mem.read

theorem Holds.withWorking (h : Holds c s b ks vs) (hw : w.mem.read = s.mem.read) :
    Holds c (s.withWorking w) b ks vs := by
  unfold Holds Block.entry at *
  rwa [hw]

/-! ## Stage by stage -/

theorem check_alike (h : Alike s s') (e : check c s = .ok t) : ∃ t', check c s' = .ok t' ∧ Alike t t' := by
  obtain ⟨w, rfl, hw⟩ := h
  rcases check_eq_ok.1 e with ⟨hbad, rfl⟩ | ⟨hgood, hneeded, rfl⟩
  · exact ⟨_, check_eq_ok.2 (.inl ⟨hbad, rfl⟩), w, rfl, hw⟩
  · have hkeeps : KeepsInputs s (s.withWorking w) :=
      ⟨rfl, rfl, rfl, rfl, rfl, rfl, fun a _ _ => congrFun hw a⟩
    have hneeded' : Needed c (s.withWorking w) :=
      hkeeps.needed (configTest_eq_none.1 hgood) (neededWf_iff.1 hneeded)
    exact ⟨_, check_eq_ok.2 (.inr ⟨hgood, neededWf_iff.2 hneeded', rfl⟩), w, rfl, hw⟩

theorem bpf_alike (h : Alike s s') (e : bpf c s = .ok t) : ∃ t', bpf c s' = .ok t' ∧ Alike t t' := by
  obtain ⟨w, rfl, hw⟩ := h
  obtain ⟨bs, as, u, hb, ha, hu, rfl⟩ := bpf_eq_ok.1 e
  exact ⟨_, bpf_eq_ok.2 ⟨bs, as, u, hb.withWorking hw, ha.withWorking hw, hu.withWorking hw, rfl⟩,
    { w with bpDelay := _ }, rfl, hw⟩

theorem mix_alike (h : Alike s s') (e : mix c s = .ok t) : ∃ t', mix c s' = .ok t' ∧ Alike t t' := by
  obtain ⟨w, rfl, hw⟩ := h
  obtain ⟨cosines, sines, hper, hy, hcos, hsin, rfl⟩ := mix_eq_ok.1 e
  exact ⟨_, mix_eq_ok.2 ⟨cosines, sines, hper, hy, hcos.withWorking hw, hsin.withWorking hw, rfl⟩,
    { w with mixN := _, mixK := _ }, rfl, hw⟩

theorem lpfI_alike (h : Alike s s') (e : lpfI c s = .ok t) : ∃ t', lpfI c s' = .ok t' ∧ Alike t t' := by
  obtain ⟨w, rfl, hw⟩ := h
  obtain ⟨bs, as, hb, ha, hi, rfl⟩ := lpfI_eq_ok.1 e
  exact ⟨_, lpfI_eq_ok.2 ⟨bs, as, hb.withWorking hw, ha.withWorking hw, hi, rfl⟩,
    { w with lpiDelay := _ }, rfl, hw⟩

theorem lpfQ_alike (h : Alike s s') (e : lpfQ c s = .ok t) : ∃ t', lpfQ c s' = .ok t' ∧ Alike t t' := by
  obtain ⟨w, rfl, hw⟩ := h
  obtain ⟨bs, as, hb, ha, hq, rfl⟩ := lpfQ_eq_ok.1 e
  exact ⟨_, lpfQ_eq_ok.2 ⟨bs, as, hb.withWorking hw, ha.withWorking hw, hq, rfl⟩,
    { w with lpqDelay := _ }, rfl, hw⟩

/-- FORM reads its streams and overwrites the same addresses in both memories. -/
theorem form_alike (h : Alike s s') (e : form c s = .ok t) : ∃ t', form c s' = .ok t' ∧ Alike t t' := by
  obtain ⟨w, rfl, hw⟩ := h
  obtain ⟨hib, hqb, hfit, ht, hread⟩ := form_eq_ok e
  have hmax : s.len.toNat ≤ c.maxLen := by
    by_contra hlt
    have := hfit c.maxLen (by omega)
    omega
  obtain ⟨t', e'⟩ := form_total (s := s.withWorking w) hib hqb hmax
  obtain ⟨-, -, -, ht', hread'⟩ := form_eq_ok e'
  refine ⟨t', e', t', ?_, funext fun a => ?_⟩
  · rw [ht', ht]
  · rw [hread, hread', hw]

theorem env_alike (h : Alike s s') (e : env c s = .ok t) : ∃ t', env c s' = .ok t' ∧ Alike t t' := by
  obtain ⟨w, rfl, hw⟩ := h
  obtain ⟨hib, hqb, rfl⟩ := env_eq_ok.1 e
  exact ⟨_, env_eq_ok.2 ⟨hib, hqb, rfl⟩, w, rfl, hw⟩

theorem stat_alike (h : Alike s s') (e : stat c s = .ok t) : ∃ t', stat c s' = .ok t' ∧ Alike t t' := by
  obtain ⟨w, rfl, hw⟩ := h
  obtain ⟨first, rest, hlen, hm, rfl⟩ := stat_eq_ok.1 e
  exact ⟨_, stat_eq_ok.2 ⟨first, rest, hlen, hm, rfl⟩, { w with statMax := _, statOrder := _ }, rfl, hw⟩

theorem gate_alike (h : Alike s s') (e : gate c s = .ok t) : ∃ t', gate c s' = .ok t' ∧ Alike t t' := by
  obtain ⟨w, rfl, hw⟩ := h
  obtain ⟨peak, thr, hpeak, hthr, rfl⟩ := gate_eq_ok.1 e
  exact ⟨_, gate_eq_ok.2 ⟨peak, thr, hpeak, hthr, rfl⟩, w, rfl, hw⟩

theorem stageOp_alike (h : Alike s s') (e : stageOp c s = .ok t) :
    ∃ t', stageOp c s' = .ok t' ∧ Alike t t' := by
  obtain ⟨st, hs⟩ : ∃ st, s.stage = st := ⟨_, rfl⟩
  have hs' : s'.stage = st := by
    obtain ⟨w, rfl, -⟩ := h
    exact hs
  rw [stageOp, hs] at e
  rw [stageOp, hs']
  cases st with
  | check => exact check_alike h e
  | bpf => exact bpf_alike h e
  | mix => exact mix_alike h e
  | lpfI => exact lpfI_alike h e
  | lpfQ => exact lpfQ_alike h e
  | form => exact form_alike h e
  | env => exact env_alike h e
  | stat => exact stat_alike h e
  | gate => exact gate_alike h e
  | idle => exact ⟨s', rfl, Except.ok.inj e ▸ h⟩
  | done => exact ⟨s', rfl, Except.ok.inj e ▸ h⟩
  | error => exact ⟨s', rfl, Except.ok.inj e ▸ h⟩

/-- Two runs that are alike stay so. -/
theorem turns_alike {n : Nat} (h : Alike s s') (e : turns c n s = .ok t) :
    ∃ t', turns c n s' = .ok t' ∧ Alike t t' := by
  induction n generalizing s s' with
  | zero => exact ⟨s', rfl, Except.ok.inj e ▸ h⟩
  | succ n ih =>
    obtain ⟨u, hu, ht⟩ := turns_succ_eq_ok.1 e
    obtain ⟨u', hu', h'⟩ := stageOp_alike h hu
    obtain ⟨t', ht', h''⟩ := ih h' ht
    exact ⟨t', turns_succ_eq_ok.2 ⟨u', hu', ht'⟩, h''⟩

theorem Alike.sameResults (h : Alike s s') : SameResults s s' := by
  obtain ⟨w, rfl, hw⟩ := h
  exact ⟨rfl, rfl, rfl, rfl, rfl, rfl, fun _ _ => ⟨congrFun hw.symm _, congrFun hw.symm _⟩⟩

/-! ## Two runs at CHECK -/

/-- A pair that a read finds is listed. -/
theorem mem_of_read {m : Memory S} {a : Nat} {v : S} (h : m.read a = some v) : (a, v) ∈ m := by
  induction m with
  | nil => cases h
  | cons e m ih =>
    unfold Memory.read at h
    split at h
    · next ha => cases h; exact ha ▸ List.mem_cons_self
    · exact List.mem_cons_of_mem _ (ih h)

/-- A memory that keeps the map holds values at entries only (20 R41). -/
theorem address_of_read {m : Memory S} {a : Nat} {v : S} (hm : m.mapped c = true) (h : m.read a = some v) :
    ∃ (b : Bank) (k : Nat), k < 2 ^ 24 ∧ a = b.address k := by
  have hall := List.all_eq_true.1 hm _ (mem_of_read h)
  obtain ⟨b, -, hb⟩ := List.any_eq_true.1 hall
  simp only [bankOf, Bool.and_eq_true, beq_iff_eq] at hb
  exact ⟨b, a % 2 ^ 24, Nat.mod_lt _ (by decide), by unfold Bank.address; omega⟩

/-- Two mapped memories that agree on the entries agree on every read. -/
theorem read_eq_of_entries (hm : s.mem.mapped c = true) (hm' : s'.mem.mapped c = true)
    (h : ∀ (b : Bank) k, k < 2 ^ 24 → s.entry b k = s'.entry b k) : s'.mem.read = s.mem.read := by
  funext a
  by_cases ha : ∃ (b : Bank) (k : Nat), k < 2 ^ 24 ∧ a = b.address k
  · obtain ⟨b, k, hk, rfl⟩ := ha
    exact (h b k hk).symm
  · rw [Option.eq_none_iff_forall_ne_some.2 fun v hv => ha (address_of_read hm hv),
      Option.eq_none_iff_forall_ne_some.2 fun v hv => ha (address_of_read hm' hv)]

/-- In CHECK both output banks are empty (10 R35). -/
theorem Running.output_none (h : Running c .check s) (hb : b.isOutput = true) {k : Nat} (hk : k < 2 ^ 24) :
    s.entry b k = none := by
  cases b with
  | ybI => exact h.ybI k hk
  | ybQ => exact h.ybQ k hk
  | _ => cases hb

/-- In CHECK nothing has been produced and the flags are clear. -/
theorem Running.eq_of_check (h : Running c .check s) : s = { s with
    stage := .check, result := .none, errcode := .none, outLen := 0#32, peak := none, median := none,
    ybp := [], i := [], q := [], ib := [], qb := [], m := [] } := by
  have hnil : ∀ {l : List S}, WfStream c 0 l → l = [] := fun hl => List.length_eq_zero_iff.1 hl.1
  cases s
  simp only [Block.mk.injEq, true_and, and_true]
  exact ⟨h.stage, h.result, h.errcode, h.outLen, h.peak, h.median,
    hnil h.ybp, hnil h.i, hnil h.q, hnil h.ib, hnil h.qb, hnil h.m⟩

/-- Two runs in CHECK with the same inputs are alike: the invariant leaves nothing else to differ. -/
theorem alike_of_sameInputs (h : Running c .check s) (h' : Running c .check s') (hin : SameInputs s s') :
    Alike s s' := by
  obtain ⟨-, hlen, hbp, hlp, hper, hstep, hthr, hentry⟩ := hin
  have hread : s'.mem.read = s.mem.read := by
    refine read_eq_of_entries h.mem_mapped h'.mem_mapped fun b k hk => ?_
    cases hb : b.isOutput with
    | false => exact hentry b k hb hk
    | true => rw [h.output_none hb hk, h'.output_none hb hk]
  refine ⟨s', ?_, hread⟩
  rw [h.eq_of_check, h'.eq_of_check, Block.withWorking]
  simp only [hlen, hbp, hlp, hper, hstep, hthr]

/-- Settles O52: under the invariant the two runs are alike in CHECK, and stay so. -/
theorem resultsDependOnInputsOnly : Obligations.ResultsDependOnInputsOnly := by
  intro S c s s' h h' hs hin t ht
  have ⟨hstage, _⟩ := hin
  have hs' : s'.stage = .check := hstage.symm.trans hs
  obtain ⟨t', ht', halike⟩ := turns_alike (alike_of_sameInputs (h.running hs) (h'.running hs') hin) ht
  exact ⟨t', ht', halike.sameResults⟩

end Sys2Proof.Machine
end

section
/-!
The refused transactions P1 to P9 (60 R152), and the ways out of ERROR (60 R155).
-/

namespace Sys2Proof.Machine

variable {S : Type} {c : Config S} {s t : State} {st : Stage} {l : Loc} {outLen : Word} {i : Instr}
  {bank : BankNo} {index : Index}

/-! ## Refused writes -/

/-- Outside IDLE no location but CMD is writable (20 R46). -/
theorem writable_of_not_idle (hst : st ≠ .idle) (hl : l ≠ .cmd) : writable st l = false := by
  have hidle : (st == .idle) = false := beq_eq_false_iff_ne.2 hst
  cases l with
  | cmd => exact absurd rfl hl
  | _ => simp [writable, hidle]

/-- An address of an output bank names an entry of one, or nothing (20 R41). -/
theorem resolve_output (h : bank.toNat = 0x09 ∨ bank.toNat = 0x0A) :
    resolve c bank index = .unimplemented ∨
      ∃ b : Bank, b.isOutput = true ∧ resolve c bank index = .entry b index.toNat := by
  by_cases hu : Unimplemented c bank index
  · exact .inl (resolve_eq_unimplemented.2 hu)
  · obtain ⟨b, hloc, -, -, hout⟩ := resolve_entry (by omega) (by omega) hu
    exact .inr ⟨b, by rw [hout, decide_eq_true (by omega)], hloc⟩

/-- STATUS, ERRCODE, OUT_LEN, PEAK, MEDIAN and the output banks are not writable in any stage (20 R46). -/
theorem writable_of_readOnly
    (h : (bank.toNat = 0x00 ∧ (index.toNat = 1 ∨ index.toNat = 2 ∨ index.toNat = 8)) ∨
      (bank.toNat = 0x01 ∧ (index.toNat = 1 ∨ index.toNat = 2)) ∨ bank.toNat = 0x09 ∨ bank.toNat = 0x0A) :
    writable st (resolve c bank index) = false := by
  rcases h with ⟨hbank, hindex⟩ | ⟨hbank, hindex⟩ | hbank
  · rw [resolve_ctrl hbank]
    rcases hindex with h | h | h <;> rw [h] <;> rfl
  · rw [resolve_nreg hbank]
    rcases hindex with h | h <;> rw [h] <;> rfl
  · rcases resolve_output hbank with hloc | ⟨b, hout, hloc⟩
    · rw [hloc]; rfl
    · simp [hloc, writable, hout]

/-- Outside IDLE every write to another address than CMD is refused. -/
theorem exec_wr_of_not_idle {p : Payload Sample} (hp : p.fits bank = true) (hs : s.stage ≠ .idle)
    (hcmd : ¬ (bank = 0#8 ∧ index = 0#24)) :
    exec (.wr bank index p) s = .next { s with response := some .err } :=
  exec_wr_err hp (writable_of_not_idle hs (mt address_of_resolve_cmd hcmd))

/-! ## Refused reads -/

/-- While BUSY no location outside bank 0x00 is readable (20 R46). -/
theorem readable_of_busy (hst : st.busy = true) (hbank : bank.toNat ≠ 0x00) :
    readable st outLen (resolve c bank index) = false := by
  have hdone : (st == .done) = false := beq_eq_false_iff_ne.2 (busy_ne hst).2.1
  by_cases hu : Unimplemented c bank index
  · rw [resolve_eq_unimplemented.2 hu]; rfl
  · have hplace := resolve_place hu
    cases hl : resolve c bank index with
    | thr => simp [readable, hst]
    | peak => exact hdone
    | median => exact hdone
    | entry b k => simp [readable, hst, hdone]
    | _ =>
      rw [hl] at hplace
      exact absurd (Prod.mk.inj hplace).1.symm hbank

/-- Outside DONE neither PEAK nor MEDIAN is readable (20 R46). -/
theorem readable_statistic (hbank : bank.toNat = 0x01) (hindex : index.toNat = 1 ∨ index.toNat = 2)
    (hst : st ≠ .done) : readable st outLen (resolve c bank index) = false := by
  rw [resolve_nreg hbank]
  rcases hindex with h | h <;> rw [h] <;> exact beq_eq_false_iff_ne.2 hst

/-- Outside DONE, and at an index from OUT_LEN up, no output entry is readable (20 R46). -/
theorem readable_output (hbank : bank.toNat = 0x09 ∨ bank.toNat = 0x0A)
    (h : st ≠ .done ∨ outLen.toNat ≤ index.toNat) : readable st outLen (resolve c bank index) = false := by
  rcases resolve_output hbank with hloc | ⟨b, hout, hloc⟩
  · rw [hloc]; rfl
  · simpa [hloc, readable, hout, or_iff_not_imp_left] using h

/-- Settles O12, case by case of 60 R152. -/
theorem refusedTransactionsChangeNothing : Obligations.RefusedTransactionsChangeNothing := by
  intro s bank index p hp errWr errRd
  have cmdAddress : bank.toNat = 0x00 ∧ index.toNat = 0 → bank = 0#8 ∧ index = 0#24 :=
    fun ⟨hbank, hindex⟩ => ⟨BitVec.eq_of_toNat_eq hbank, BitVec.eq_of_toNat_eq hindex⟩
  have p1 : Unimplemented Config.machine bank index → errWr ∧ errRd := by
    obtain ⟨-, -, -, hrefused⟩ := reservedEncodingsAreRefused
    exact fun hu => hrefused s bank index p hu hp
  have p3 : bank.toNat = 0x00 ∧ index.toNat = 0 → errRd := by
    intro hcmd
    obtain ⟨rfl, rfl⟩ := cmdAddress hcmd
    exact exec_rd_err rfl
  have p4 : bank.toNat = 0x00 ∧ index.toNat = 0 →
      p ≠ .word 1#32 → p ≠ .word 2#32 → p ≠ .word 3#32 → errWr := by
    intro hcmd h1 h2 h3
    obtain ⟨w, rfl⟩ := fits_ctrl hp hcmd.1
    obtain ⟨rfl, rfl⟩ := cmdAddress hcmd
    exact exec_wr_cmd_illegal (mt (congrArg _) h1) (mt (congrArg _) h2) (mt (congrArg _) h3)
  have p5 : bank.toNat = 0x00 ∧ index.toNat = 0 →
      (p = .word 1#32 ∧ s.stage ≠ .idle) ∨ s.stage.busy = true → errWr := by
    rintro hcmd (⟨rfl, hs⟩ | hbusy)
    · obtain ⟨rfl, rfl⟩ := cmdAddress hcmd
      exact (exec_wr_cmd_of_decodeCommand (decodeCommand_eq 1#32)).trans (exec_run_err hs)
    · exact exec_wr_err hp (writable_of_busy hbusy _)
  have p6 : (bank.toNat = 0x00 ∧ 3 ≤ index.toNat ∧ index.toNat ≤ 7) ∨
      (bank.toNat = 0x01 ∧ index.toNat = 0) ∨ (0x02 ≤ bank.toNat ∧ bank.toNat ≤ 0x08) →
      s.stage ≠ .idle → errWr := by
    refine fun haddress hs => exec_wr_of_not_idle hp hs ?_
    rintro ⟨rfl, rfl⟩
    simp at haddress
  exact ⟨p1, fun h => exec_wr_err hp (writable_of_readOnly h), p3, p4, p5, p6,
    fun hbank hbusy => exec_rd_err (readable_of_busy hbusy hbank),
    fun ⟨hbank, hindex⟩ hs => exec_rd_err (readable_statistic hbank hindex hs),
    fun hbank h => exec_rd_err (readable_output hbank h)⟩

/-! ## Leaving ERROR -/

/-- Outside IDLE every write that is no command is refused, CMD included. -/
theorem exec_plain_wr_of_not_idle {p : Payload Sample} (hwf : (Instr.wr bank index p).wellFormed = true)
    (hs : s.stage ≠ .idle) : exec (.wr bank index p) s = .next { s with response := some .err } := by
  obtain ⟨hfits, hplain⟩ : p.fits bank = true ∧ p.isCommandWrite bank index = false := by
    simpa [Instr.wellFormed] using hwf
  by_cases hcmd : bank = 0#8 ∧ index = 0#24
  · obtain ⟨rfl, rfl⟩ := hcmd
    obtain ⟨w, rfl⟩ := fits_ctrl hfits rfl
    obtain ⟨⟨h1, h2⟩, h3⟩ : (w ≠ 1#32 ∧ w ≠ 2#32) ∧ w ≠ 3#32 := by
      simpa [Payload.isCommandWrite] using hplain
    exact exec_wr_cmd_illegal h1 h2 h3
  · exact exec_wr_of_not_idle hfits hs hcmd

/-- Outside BUSY, CLEAR and SRESET each lead to IDLE with ERRCODE 0 (44 R133, R134). -/
theorem exec_clearing_command (hs : s.stage.busy = false) (hi : i = .clear ∨ i = .sreset) :
    ∃ t, exec i s = .next t ∧ t.stage = .idle ∧ t.errcode = .none := by
  rcases hi with rfl | rfl
  · exact ⟨_, exec_clear_resting hs, rfl, rfl⟩
  · exact ⟨_, exec_sreset_resting hs, rfl, rfl⟩

/-- What stands at the port when a step answers is a transaction (30 R72). -/
theorem decode_of_step {h : BitVec 33} {p : Option (Payload Sample)} {rest : List (Event Sample)}
    (ha : s.agenda = .host h p :: rest) (hstep : step s = .next t) : ∃ i, decode (.host h p) = .ok i := by
  cases hd : decode (.host h p) with
  | ok i => exact ⟨i, rfl⟩
  | error e => simp [step_eq_outcome_fetch, fetch, ha, hostTurn, hd, Fetched.outcome] at hstep

/-- In ERROR the operations of the host that move the stage are CLEAR and SRESET (44 R130). -/
theorem clearing_of_step_from_error {h : BitVec 33} {p : Option (Payload Sample)} {rest : List (Event Sample)}
    (hs : s.stage = .error) (hstep : step s = .next t) (hleft : t.stage ≠ .error)
    (ha : s.agenda = .host h p :: rest) (hd : decode (.host h p) = .ok i) : i = .clear ∨ i = .sreset := by
  obtain ⟨-, hhost, -⟩ := stageChangesOnlyByTheTable s t hstep
  have hstage := hhost h p rest i ha hd
  by_contra hi
  simp [hs, hi] at hstage
  exact hleft hstage

/-- A step out of ERROR is a hardware reset, or CLEAR or SRESET at the port, and leads to IDLE with ERRCODE 0. -/
theorem step_leaves_error (hs : s.stage = .error) (hstep : step s = .next t) (hleft : t.stage ≠ .error) :
    t.stage = .idle ∧ t.errcode = .none ∧
    ((∃ rest, s.agenda = .hardwareReset :: rest) ∨ ∃ h p rest, s.agenda = .host h p :: rest ∧
      (decode (.host h p) = .ok .clear ∨ decode (.host h p) = .ok .sreset)) := by
  have hrest : s.stage.busy = false := by rw [hs]; rfl
  obtain ⟨hturn, -, -⟩ := stageChangesOnlyByTheTable s t hstep
  have hsequencer : ¬ (s.agenda = [] ∨ ∃ rest, s.agenda = .sequencer :: rest) := by
    intro ha
    obtain ⟨hstage, -⟩ := hturn ha
    rw [hs] at hstage
    exact hleft hstage
  cases ha : s.agenda with
  | nil => exact absurd (.inl ha) hsequencer
  | cons event rest =>
    cases event with
    | sequencer => exact absurd (.inr ⟨rest, ha⟩) hsequencer
    | hardwareReset =>
      obtain rfl := Host.Outcome.next.inj ((step_of_hardwareReset ha).symm.trans hstep)
      exact ⟨rfl, rfl, .inl ⟨rest, rfl⟩⟩
    | host h p =>
      obtain ⟨i, hd⟩ := decode_of_step ha hstep
      have hi := clearing_of_step_from_error hs hstep hleft ha hd
      obtain ⟨u, hu, hidle, herrcode⟩ := exec_clearing_command (s := { s with agenda := rest }) hrest hi
      obtain rfl := Host.Outcome.next.inj ((hu.symm.trans (step_of_host ha hd).symm).trans hstep)
      exact ⟨hidle, herrcode, .inr ⟨h, p, rest, rfl, by simpa [hd] using hi⟩⟩

/-- Settles O24, by the event that the step takes and, at the port, by the operation. -/
theorem onlyClearingEventsLeaveError : Obligations.OnlyClearingEventsLeaveError := by
  intro s hs
  have hrest : s.stage.busy = false := by rw [hs]; rfl
  have hidle : s.stage ≠ .idle := by rw [hs]; exact nofun
  exact ⟨fun _ => step_leaves_error hs, exec_clearing_command hrest (.inl rfl),
    exec_clearing_command hrest (.inr rfl), exec_run_err hidle,
    fun _ _ _ hwf => exec_plain_wr_of_not_idle hwf hidle⟩

end Sys2Proof.Machine
end

section
/-!
The two resets, hardware and SRESET (70 R171).
-/

namespace Sys2Proof.Machine

/-- The block after reset holds column "reset" of 10 R35. -/
theorem reset_hasResetColumn : HasResetColumn (Block.reset : Block Sample) := by
  obtain ⟨hcolumn, -⟩ := resetStateHasTheResetColumn
  exact hcolumn

/-- Settles O6: each of the two resets leaves the block of the reset state. -/
theorem eitherResetGivesTheResetColumn : Obligations.EitherResetGivesTheResetColumn := by
  refine ⟨fun s rest => ?hardwareReset, fun s hresting => ?sreset⟩
  case hardwareReset => exact ⟨_, step_of_hardwareReset rfl, reset_hasResetColumn, rfl⟩
  case sreset => exact ⟨_, exec_sreset_resting hresting, reset_hasResetColumn⟩

end Sys2Proof.Machine
end
